-- ==== Sys2Proof/Word.lean ====
section
/-!
DEFINITION. Word.lean: the fixed-width types of 00_scope.md rules R7 and R10. Every quantity of the codec is
unsigned (rule R9); counters the spec gives no width are plain `Nat` and never wrap (rule R10, decision D8).
-/

namespace Sys2Proof

/-- `u8`: a greyscale sample, or a byte of a stream (rule R10). -/
abbrev Byte := BitVec 8

/-- `u16`: a command word, and the width of `W` and `H` (rules R7, R10). -/
abbrev Word := BitVec 16

/-- `u2`: an intensity, 0..3 (rule R10). -/
abbrev Intensity := BitVec 2

/-- `Bytes`: a finite sequence of `u8`, indexed from 0 (rule R10). -/
abbrev Bytes := List Byte

end Sys2Proof
end

