-- ==== Sys2Proof/Config.lean ====
section
/-!
DEFINITION. Config.lean: the parameters of 00_scope.md rule R6 that are fixed for a machine. The two OPEN
parameters are left open: `FILTER` is an opaque constant nothing can evaluate, and an `FPS` value is an
uninterpreted token no rule reads.
-/

namespace Sys2Proof

/-- `FPS` (rule R6, decision D7): a value the codec carries and never reads. The spec gives it no type, unit or
range; the token stands for it, and no definition of the model computes with it.
DESIGN CHOICE, log entry 3: the values are represented by natural-number tokens. -/
structure Fps where
  token : Nat
deriving DecidableEq, Repr

/-- `FILTER` (rules R3, R6): a lossless pair of byte-stream functions. `identity` is the pass-through pair the spec
admits; `pair` is any other deterministic pair with `decompress (compress b) = some b`. A lossy pair cannot be
built (93_implementation_defined.md I12). -/
inductive Filter where
  | identity
  | pair (compress : Bytes → Bytes) (decompress : Bytes → Option Bytes)
      (lossless : ∀ b, decompress (compress b) = some b)
deriving Inhabited

/-- `FILTER.compress` (rule R6). -/
def Filter.compress : Filter → Bytes → Bytes
  | .identity, b => b
  | .pair c _ _, b => c b

/-- `FILTER.decompress` (rule R6): `none` where the filter rejects the blob (44_decoder.md rule R110). -/
def Filter.decompress : Filter → Bytes → Option Bytes
  | .identity, b => some b
  | .pair _ d _, b => d b

namespace Config

/-- `SKIP_MAX = 32767 = 2^15 − 1` (rule R6). -/
def skipMax : Nat := 32767

/-- `DRAW_MAX = 8191 = 2^13 − 1` (rule R6). -/
def drawMax : Nat := 8191

/-- The largest value of `W` and of `H` (rule R6). -/
def dimMax : Nat := 65535

/-- `VALIDATE_FRAME_LEN` as the spec sets it (rule R6, decision D14). A machine built with the other setting is a
state whose `validateFrameLen` is `false`. -/
def validateFrameLen : Bool := true

/-- The machine's `FILTER`: OPEN (rule R6, decision D3), so it has no body, and what is proved of the machine is
true whichever lossless pair it is. -/
opaque filter : Filter

/-- What `enc.inten` holds after a Skip run opens: "`enc.inten` has meaning only when `enc.kind = DRAW`"
(10_state.md rule R28), and the key `(SKIP)` of 43_encoder.md rule R97 gives it no value. A free value of the frame,
the raster index and the old value: it has no body, and what is proved of the machine is true whatever it is. Log
entry 8. -/
opaque skipIntensity (frame index : Nat) (old : Intensity) : Intensity

end Config

end Sys2Proof
end

