-- ==== Sys2Proof/Syntax.lean ====
section
/-!
DEFINITION. Syntax.lean: the three commands, which are the instructions of the stream (00_scope.md rules R2, R11),
and the driver operations, which are the interface transactions of the units (rule R2, 20_memory.md rule R50).
-/

namespace Sys2Proof

/-- A command of the stream, one constructor per row of the opcode table (30_encoding.md rule R66). It is the
`Command` of 00_scope.md rule R11, with the operands in that rule's order. -/
inductive Instr where
  /-- END: `End`, the all-zero word (rule R63). -/
  | endFrame
  /-- SKIP: `Skip(count)`, layout S (rule R61). A Skip of count 0 is no command (rule R63): `Instr.wf` refuses it. -/
  | skip (count : BitVec 15)
  /-- DRAW: `Draw(count, intensity)`, layout D (rule R62); count 0 is legal (rule R67). -/
  | draw (count : BitVec 13) (intensity : Intensity)
deriving DecidableEq, Repr

/-- An operation a driver issues to a unit (00_scope.md rule R2, 10_state.md rule R16). The host issues the ENC and
FMT operations and QUANT; the consumer issues the DEC and INT operations. The spec gives instances no identifiers
(60_exceptions.md rule R140): `d` is the position of a DEC instance and `b` the position of a pixel buffer in
`State` (DESIGN CHOICE, log entry 5). -/
inductive Op where
  /-- 43_encoder.md rule R91. -/
  | encBegin (W H : Nat) (fps : Fps)
  /-- 43_encoder.md rule R92. -/
  | encFrameBegin (w h : Nat)
  /-- 43_encoder.md rule R93. -/
  | encPixel (s : Byte)
  /-- 43_encoder.md rule R101. -/
  | encFrameEnd
  /-- 43_encoder.md rule R103. -/
  | encFinish
  /-- 41_quantizer.md rule R80. -/
  | quant (s : Byte)
  /-- 42_formatter.md rule R83. -/
  | fmtSkip (c : Nat)
  /-- 42_formatter.md rule R84. -/
  | fmtDraw (c : Nat) (i : Intensity)
  /-- 42_formatter.md rule R85. -/
  | fmtEnd
  /-- 42_formatter.md rule R86. -/
  | fmtSerialize (w : Word)
  /-- 42_formatter.md rule R87. -/
  | parseBytes (b0 b1 : Byte)
  /-- 42_formatter.md rule R88. -/
  | parse (w : Word)
  /-- 44_decoder.md rule R109: a fresh instance, after the ones that exist. -/
  | decConstruct (blob : Bytes) (W H : BitVec 16) (frameCount : Nat) (fps : Fps)
  /-- 44_decoder.md rule R112, on instance `d`. -/
  | decAdvance (d : Nat)
  /-- 40_commands.md rule R72, on pixel buffer `b`; a `b` that is no buffer yet gives a new one. -/
  | intReset (b : Nat) (W H : BitVec 16)
  /-- 40_commands.md rule R73, on pixel buffer `b`. -/
  | intApply (b : Nat) (c : Instr)
  /-- The consumer turns to playing instance `d` on pixel buffer `b` (70_reset_and_hazards.md rule R147 step 4). It is
  the driver's choice of units, not an operation of a unit: it changes no register of one (log entry 5). -/
  | drive (d b : Nat)
deriving DecidableEq, Repr

end Sys2Proof
end

