-- ==== Sys2Proof/WellFormed.lean ====
section
/-!
DEFINITION. WellFormed.lean: which terms of the syntax are commands of the spec. The operand widths are the types'
own (00_scope.md rules R7, R11); what is left to check is that a Skip covers at least one pixel.
-/

namespace Sys2Proof

/-- A term of `Instr` that is a `Command` of rule R11: `Skip.count` is 1..32767, because the word that would spell
`Skip(0)` is End (30_encoding.md rule R63). `Draw(0, i)` is a command (rule R67). -/
def Instr.wf : Instr → Bool
  | .endFrame => true
  | .skip count => count != 0#15
  | .draw _ _ => true

/-- An operation whose command argument, where it has one, is a command of rule R11. -/
def Op.wf : Op → Bool
  | .intApply _ c => c.wf
  | _ => true

end Sys2Proof
end

