-- ==== Sys2Proof/Decode.lean ====
section
/-!
DEFINITION. Decode.lean: from bytes to commands (30_encoding.md, 42_formatter.md rules R87 and R88), total on any
bytes, and the encoder after it (30_encoding.md rule R65).
-/

namespace Sys2Proof

/-- Why a byte sequence holds no command word. Both are of the model's own naming: no 16-bit word is illegal
(rule R68), so nothing else is refused. -/
inductive DecodeError where
  /-- No byte is left: the end of the stream (44_decoder.md rule R111). -/
  | noBytes
  /-- One byte is left, which forms no word (20_memory.md rule R48). -/
  | oneByte
deriving DecidableEq, Repr

/-- PARSE_BYTES (42_formatter.md rule R87): `zext_16(b0) | (zext_16(b1) << 8)`; `b0` is the byte at the lower
offset (20_memory.md rule R45). -/
def parseBytes (b0 b1 : Byte) : Word :=
  b0.setWidth 16 ||| (b1.setWidth 16 <<< 8)

/-- The discriminator, `w[0]`: 0 = Skip, 1 = Draw (30_encoding.md rule R60). -/
def isDrawWord (w : Word) : Bool := w.getLsbD 0

/-- Layout S: `count = w[15:1]` (30_encoding.md rules R61, R64). -/
def skipCount (w : Word) : BitVec 15 := w.extractLsb' 1 15

/-- Layout D: `count = w[15:3]` (30_encoding.md rules R62, R64). -/
def drawCount (w : Word) : BitVec 13 := w.extractLsb' 3 13

/-- Layout D: `intensity = w[2:1]` (30_encoding.md rules R62, R64). -/
def drawIntensity (w : Word) : Intensity := w.extractLsb' 1 2

/-- PARSE (42_formatter.md rule R88), in the priority of 30_encoding.md rule R66. Total: no word is illegal. -/
def parse (w : Word) : Instr :=
  if w = 0x0000#16 then .endFrame
  else if isDrawWord w then .draw (drawCount w) (drawIntensity w)
  else .skip (skipCount w)

/-- The command at the head of a byte sequence and the bytes after it. Every command is one little-endian 16-bit
word (30_encoding.md rules R60, R69). -/
def decode : Bytes → Except DecodeError (Instr × Bytes)
  | [] => .error .noBytes
  | [_] => .error .oneByte
  | b0 :: b1 :: rest => .ok (parse (parseBytes b0 b1), rest)

/-- `word(c)` (30_encoding.md rule R65): `{c[14:0], 0}` for Skip, `{c[12:0], i[1:0], 1}` for Draw, 0x0000 for End.
On `Draw(0, i)`, which rule R65 leaves out, it is the word that parses to it (rule R67). -/
def encode : Instr → Word
  | .endFrame => 0x0000#16
  | .skip count => (count ++ 0#1 : BitVec 16)
  | .draw count intensity => (count ++ intensity ++ 1#1 : BitVec 16)

/-- FMT_SERIALIZE (42_formatter.md rule R86): `[w[7:0], w[15:8]]`, low byte first. -/
def serialize (w : Word) : Bytes := [w.extractLsb' 0 8, w.extractLsb' 8 8]

/-- The bytes of a command in the stream (20_memory.md rule R45). -/
def encodeBytes (i : Instr) : Bytes := serialize (encode i)

/-- The bytes of a whole command stream, one word after another (20_memory.md rule R43). -/
def encodeStream (cs : List Instr) : Bytes := cs.flatMap encodeBytes

/-- A row of the opcode map (30_encoding.md rule R66): a word is the row's when its bits under `mask` are
`pattern`. -/
structure OpcodeRow where
  mnemonic : String
  pattern : Word
  mask : Word
deriving DecidableEq, Repr

/-- Whether a word has the row's bits under the row's mask. -/
def OpcodeRow.covers (r : OpcodeRow) (w : Word) : Bool := w &&& r.mask == r.pattern

/-- The opcode map in the order of its priorities (rule R66). -/
def opcodeTable : List OpcodeRow :=
  [⟨"END", 0x0000#16, 0xFFFF#16⟩, ⟨"SKIP", 0x0000#16, 0x0001#16⟩, ⟨"DRAW", 0x0001#16, 0x0001#16⟩]

/-- The mnemonic the opcode table gives a command. -/
def Instr.mnemonic : Instr → String
  | .endFrame => "END"
  | .skip _ => "SKIP"
  | .draw _ _ => "DRAW"

/-- The word that an opcode-table row of `nbits` bits with the bits `w` stands for: bit 0 is the least significant,
and the bits above `nbits` are 0. -/
def tableWord (nbits w : Nat) : Word := BitVec.ofNat 16 (w % 2 ^ nbits)

/-- What the decoder reads from that word laid out as the stream stores it, low byte first. -/
def decodeTableWord (nbits w : Nat) : Option Instr :=
  match decode (serialize (tableWord nbits w)) with
  | .ok (i, _) => some i
  | .error _ => none

end Sys2Proof
end

