-- ==== Sys2Proof/Machine/State.lean ====
section
/-!
DEFINITION. Machine/State.lean: every piece of state of 10_state.md as plain data, the reasons a step can stop, and
the machine right after reset.
-/

namespace Sys2Proof.Machine

/-- The fault codes of 60_exceptions.md rule R128. -/
inductive FaultCode where
  | eZeroDim
  | eDimRange
  | eDimMismatch
  | ePixelCount
  | eFieldOverflow
  | eZeroRun
  | eNoFrames
  | eSequence
  | fEmptyStream
  | fNoEnd
  | fOddTail
  | fFilter
  | fIntBounds
  | fIntShortFrame
deriving DecidableEq, Repr

/-- An array of 2-bit elements by raster index, some of which may have no value (20_memory.md rule R42): the
(index, intensity) pairs that have one, in strictly rising order of index. An unlisted index reads as no value. -/
abbrev Memory := List (Nat × Intensity)

/-- The filter's scratch state. Between operations it is always the filter's initial state (10_state.md rule R26,
decision D3), so this type has that one value. -/
inductive FilterScratch where
  | initial
deriving DecidableEq, Repr

/-- One DEC instance (10_state.md section 2). -/
structure Dec where
  /-- `dec.P`, the physical stream (rule R19); `L` is its length. -/
  P : Bytes
  /-- `dec.cursor`, the decoder's program counter: a byte offset in `P` (rule R20). -/
  cursor : Nat
  /-- `dec.pass`, the restarts since construction (rule R21). -/
  pass : Nat
  /-- `dec.fp`, `frames_played` (rule R22). -/
  fp : Nat
  /-- `dec.err`, a fault code or NONE (rule R23). -/
  err : Option FaultCode
  /-- `dec.W` (rule R24). -/
  W : BitVec 16
  /-- `dec.H` (rule R24). -/
  H : BitVec 16
  /-- `dec.frame_count` (rule R24). -/
  frameCount : Nat
  /-- `dec.fps` (rule R24). -/
  fps : Fps
  /-- `dec.blob` (rule R24). -/
  blob : Bytes
  /-- `dec.win`, the command-word reassembly window (rule R25). -/
  win : Bytes
  /-- The filter's scratch state (rule R26). -/
  scratch : FilterScratch
deriving DecidableEq, Repr

/-- `enc.kind` (10_state.md rule R28). -/
inductive RunKind where
  | skip
  | draw
deriving DecidableEq, Repr

/-- `enc.phase` (10_state.md rule R32). -/
inductive Phase where
  | idle
  | between
  | inFrame
  | done
deriving DecidableEq, Repr

/-- The encoder (10_state.md section 3). -/
structure Enc where
  /-- `enc.W` (rule R27). -/
  W : BitVec 16
  /-- `enc.H` (rule R27). -/
  H : BitVec 16
  /-- `enc.fps` (rule R27). -/
  fps : Fps
  /-- `enc.kind` (rule R28). -/
  kind : RunKind
  /-- `enc.inten` (rule R28). -/
  inten : Intensity
  /-- `enc.count` (rule R28); 0 means that no run is open. -/
  count : Nat
  /-- `enc.prev`, the previous frame (rule R29). -/
  prev : Memory
  /-- `enc.has_prev` (rule R30). -/
  hasPrev : Bool
  /-- `enc.pix`, the raster index of the next pixel (rule R31). -/
  pix : Nat
  /-- `enc.phase` (rule R32). -/
  phase : Phase
  /-- `enc.frames` (rule R33). -/
  frames : Nat
  /-- `enc.O`, the physical stream under construction (rule R34). -/
  O : Bytes
  /-- `enc.err`, a build error code or NONE (rule R35). -/
  err : Option FaultCode
deriving DecidableEq, Repr

/-- A frame event `FRAME_OUT(k, snapshot)` (10_state.md rule R41): the snapshot is a copy of `int.buf`, an array of
`npix` elements of which `cells` lists those that have a value. -/
structure FrameOut where
  k : Nat
  npix : Nat
  cells : Memory
deriving DecidableEq, Repr

/-- One interpreter with its pixel buffer (10_state.md section 4). -/
structure Interp where
  /-- `int.W` (rule R36). -/
  W : BitVec 16
  /-- `int.H` (rule R36). -/
  H : BitVec 16
  /-- `int.buf` (rule R37); an unlisted index is ⊥. -/
  buf : Memory
  /-- `int.offset` (rule R38). -/
  offset : Nat
  /-- `int.frames` (rule R39). -/
  frames : Nat
  /-- `int.err`, a fault code or NONE (rule R40). -/
  err : Option FaultCode
  /-- The FRAME_OUT events, oldest first (rule R41). -/
  out : List FrameOut
deriving DecidableEq, Repr

/-- What an operation returned to its driver: its value, or the fault in place of it (60_exceptions.md rule R130). -/
inductive Result where
  /-- No operation has run yet. -/
  | nothing
  /-- The operation returned without a value. -/
  | done
  /-- QUANT's result (41_quantizer.md rule R80). -/
  | level (q : Intensity)
  /-- The word of FMT_SKIP, FMT_DRAW, FMT_END or PARSE_BYTES (42_formatter.md). -/
  | word (w : Word)
  /-- FMT_SERIALIZE's result (42_formatter.md rule R86). -/
  | bytes (bs : Bytes)
  /-- The command PARSE returned or DEC_ADVANCE yielded. -/
  | command (c : Instr)
  /-- ENC_FINISH's result `(blob, W, H, frame_count, fps)` (43_encoder.md rule R103). -/
  | asset (blob : Bytes) (W H : BitVec 16) (frameCount : Nat) (fps : Fps)
  /-- DEC_CONSTRUCT's fresh instance, by its position. -/
  | decoder (d : Nat)
  /-- INT_RESET's pixel buffer, by its position. -/
  | buffer (b : Nat)
  /-- A fault in place of the result. -/
  | fault (c : FaultCode)
deriving DecidableEq, Repr

/-- The machine: ENC, the DEC instances, the pixel buffers with their interpreters, and the drivers' side. -/
structure State where
  /-- The operations the drivers have issued and that have not begun, oldest first (20_memory.md rule R53). The
  MODEL's own field: log entry 1. -/
  script : List Op
  /-- The encoder (10_state.md rule R16: at most one per build). The spec fixes no number of encoders (00_scope.md rule
  R8); that there is exactly one, so that builds follow one another and never overlap, is a DESIGN CHOICE, log entry
  22. -/
  enc : Enc
  /-- The DEC instances, in the order of their construction (rule R16, 60_exceptions.md rule R140). -/
  decs : List Dec
  /-- The interpreters, one per consumer pixel buffer (rule R16). -/
  ints : List Interp
  /-- The position of the DEC instance the consumer plays. The MODEL's own field: log entry 5. -/
  cur : Nat
  /-- The position of the pixel buffer it plays into. The MODEL's own field: log entry 5. -/
  curBuf : Nat
  /-- The parameter `VALIDATE_FRAME_LEN` of this machine (00_scope.md rule R6); no operation writes it. -/
  validateFrameLen : Bool
  /-- What the last operation returned to its driver. The MODEL's own field: log entry 11. -/
  result : Result
deriving DecidableEq, Repr

/-- A read to which the spec gives no value, and which its rules say no run makes. Each is SAFE: the model stops
where a rule would need a value that does not exist. -/
inductive Fault where
  /-- CLASSIFY read an element of `enc.prev` that nothing has written (10_state.md rule R29). Raised by ENC_PIXEL.
  Safe. -/
  | prevUnwritten
  /-- READ_WORD would read a byte of `dec.P` past its end, from a cursor above L (10_state.md rule R20, 20_memory.md
  rule R42). Raised by DEC_ADVANCE and by the fetch of a step. Safe. -/
  | streamBounds
deriving DecidableEq, Repr

/-- An operation the spec gives no meaning to, because the unit it names does not exist. -/
inductive Refusal where
  /-- An instruction with no meaning in the model yet: no arm of exec answers it. Safe. -/
  | notModelled (mnemonic : String)
  /-- DEC_ADVANCE on an instance that was never constructed: "the instance does not exist", and "a model refuses it"
  (70_reset_and_hazards.md rule R143). Raised by decAdvance and by the fetch of a step. Safe. -/
  | noDecoder
  /-- INT_APPLY before INT_RESET, "likewise refused" (rule R143). Raised by the three commands and by intApply.
  Safe. -/
  | noInterpreter
deriving DecidableEq, Repr

/-- What ends an operation before its end: `raise Fault(code)` of the spec (00_scope.md rule R12), or a read that has
no value. -/
inductive Stop where
  | raised (c : FaultCode)
  | halted (f : Fault)
deriving DecidableEq, Repr

/-- ENC's registers as ENC_BEGIN resets them (10_state.md section 5, 43_encoder.md rule R91), in phase IDLE. Before the
first ENC_BEGIN every register but `enc.phase` holds no value (70_reset_and_hazards.md rule R143): that `State.reset`
has ENC_BEGIN's reset values there already, and zeros for `W`, `H` and `fps`, is a DESIGN CHOICE, log entry 6. -/
def Enc.reset : Enc where
  W := 0
  H := 0
  fps := ⟨0⟩
  kind := .skip
  inten := 0
  count := 0
  prev := []
  hasPrev := false
  pix := 0
  phase := .idle
  frames := 0
  O := []
  err := none

/-- The machine right after reset (70_reset_and_hazards.md rule R143): ENC in phase IDLE, no DEC instance, no pixel
buffer, and no operation issued. -/
def State.reset : State where
  script := []
  enc := Enc.reset
  decs := []
  ints := []
  cur := 0
  curBuf := 0
  validateFrameLen := Config.validateFrameLen
  result := .nothing

end Sys2Proof.Machine
end

