-- ==== Sys2Proof/Machine/Ops.lean ====
section
/-!
DEFINITION. Machine/Ops.lean: the named operations over the pixel arrays and the units, the fault codes, and taking a
fault, which every operation of every unit shares (60_exceptions.md section 2).
-/

namespace Sys2Proof.Machine

/-! ### Pixel arrays -/

/-- The canonical form of a pixel array: its indices rise strictly. An element without a value is never listed, so
equal arrays are equal lists. -/
def Memory.wf : Memory → Bool
  | [] => true
  | [_] => true
  | (a, _) :: (b, v) :: rest => decide (a < b) && Memory.wf ((b, v) :: rest)

/-- Every listed index is one of the array's `n` elements (20_memory.md rule R44). -/
def Memory.within (n : Nat) (m : Memory) : Bool := m.all fun cell => decide (cell.1 < n)

/-- The element at index `p`; `none` is ⊥, no value (10_state.md rules R29, R37, R41). -/
def Memory.read : Memory → Nat → Option Intensity
  | [], _ => none
  | (a, v) :: rest, p => if p = a then some v else Memory.read rest p

/-- `x[p] <- v` (00_scope.md rule R12). -/
def Memory.write : Memory → Nat → Intensity → Memory
  | [], p, v => [(p, v)]
  | (a, u) :: rest, p, v =>
    if p < a then (p, v) :: (a, u) :: rest
    else if p = a then (a, v) :: rest
    else (a, u) :: Memory.write rest p v

/-- `for j in 0 .. n-1: x[p + j] <- v`, in ascending order (00_scope.md rules R12, R13). -/
def Memory.fill : Memory → Nat → Nat → Intensity → Memory
  | m, _, 0, _ => m
  | m, p, n + 1, v => Memory.fill (m.write p v) (p + 1) n v

/-! ### Fault codes (60_exceptions.md rule R128) -/

/-- The numeric code of a fault. -/
def FaultCode.code : FaultCode → Nat
  | .eZeroDim => 0x01
  | .eDimRange => 0x02
  | .eDimMismatch => 0x03
  | .ePixelCount => 0x04
  | .eFieldOverflow => 0x05
  | .eZeroRun => 0x06
  | .eNoFrames => 0x07
  | .eSequence => 0x08
  | .fEmptyStream => 0x10
  | .fNoEnd => 0x11
  | .fOddTail => 0x12
  | .fFilter => 0x13
  | .fIntBounds => 0x20
  | .fIntShortFrame => 0x21

/-- The codes `enc.err` may hold (10_state.md rule R35). -/
def FaultCode.isEnc (c : FaultCode) : Bool := c.code ≤ 0x08

/-- The codes `dec.err` may hold (10_state.md rule R23). -/
def FaultCode.isDec (c : FaultCode) : Bool := 0x10 ≤ c.code && c.code ≤ 0x13

/-- The codes `int.err` may hold (10_state.md rule R40). -/
def FaultCode.isInt (c : FaultCode) : Bool := 0x20 ≤ c.code

/-! ### Units and taking a fault -/

/-- The unit an operation acts on. The formatter's faults are recorded in ENC's register (10_state.md rule R35). -/
inductive UnitId where
  | enc
  | dec (d : Nat)
  | int (b : Nat)
deriving DecidableEq, Repr

/-- `enc.err <- c`, nothing else. -/
def Enc.withErr (e : Enc) (c : FaultCode) : Enc := { e with err := some c }

/-- `dec.err <- c`, nothing else. -/
def Dec.withErr (d : Dec) (c : FaultCode) : Dec := { d with err := some c }

/-- `int.err <- c`, nothing else. -/
def Interp.withErr (b : Interp) (c : FaultCode) : Interp := { b with err := some c }

/-- The encoder after a step of its own. -/
def State.putEnc (s : State) (e : Enc) : State := { s with enc := e }

/-- DEC instance `d` after a step of its own. -/
def State.putDec (s : State) (d : Nat) (x : Dec) : State := { s with decs := s.decs.set d x }

/-- Pixel buffer `b` after a step of its own. -/
def State.putInt (s : State) (b : Nat) (x : Interp) : State := { s with ints := s.ints.set b x }

/-- What an operation hands back to its driver. -/
def State.answer (s : State) (r : Result) : State := { s with result := r }

/-- The unit's sticky error register written, nothing else (60_exceptions.md rule R129). -/
def State.recordFault (s : State) (u : UnitId) (c : FaultCode) : State :=
  match u with
  | .enc => s.putEnc (s.enc.withErr c)
  | .dec d => match s.decs[d]? with
    | some x => s.putDec d (x.withErr c)
    | none => s
  | .int b => match s.ints[b]? with
    | some x => s.putInt b (x.withErr c)
    | none => s

/-- TAKING A FAULT (00_scope.md rule R12, 60_exceptions.md rules R129, R130): applied to the state from before the
operation, it writes the unit's error register and hands the fault to the driver in place of a result. Nothing is
saved and no vector is taken. There is no return from it (rule R132): the unit's reset operation is the only way on. -/
def State.takeFault (s : State) (u : UnitId) (c : FaultCode) : State := (s.recordFault u c).answer (.fault c)

/-- How an operation on unit `u` of state `s` ends: with the state it computed; with a fault taken, everything it did
rolled back (rule R130); or at a read that has no value. -/
def State.finish (s : State) (u : UnitId) : Except Stop State → Host.Outcome State Fault Refusal
  | .ok s' => .next s'
  | .error (.raised c) => .next (s.takeFault u c)
  | .error (.halted f) => .fault f

/-- The sticky error, which every operation but a unit's reset looks at first (60_exceptions.md rules R131, R133). -/
def sticky {α : Type} (err : Option FaultCode) (body : Except Stop α) : Except Stop α :=
  match err with
  | some c => .error (.raised c)
  | none => body

end Sys2Proof.Machine
end

