-- ==== Sys2Proof/Machine/Operands.lean ====
section
/-!
DEFINITION. Machine/Operands.lean: the operands of the commands and the positions they refer to. A command word
carries a count and an intensity and no address (20_memory.md rule R42); its place is an implicit raster index.
-/

namespace Sys2Proof.Machine

/-- The raster index of column `x` and row `y` in a frame of width `W`: `p = y * W + x` (00_scope.md rule R13). -/
def rasterIndex (W x y : Nat) : Nat := y * W + x

/-- `enc.npix = enc.W * enc.H` (10_state.md rule R27), in `Nat`. -/
def Enc.npix (e : Enc) : Nat := e.W.toNat * e.H.toNat

/-- `int.npix = int.W * int.H` (10_state.md rule R36), in `Nat`. -/
def Interp.npix (b : Interp) : Nat := b.W.toNat * b.H.toNat

/-- `L`, the length of the physical stream (10_state.md rule R19). -/
def Dec.L (d : Dec) : Nat := d.P.length

/-- How many pixels a command covers: the count itself, not the count minus one (30_encoding.md rule R64); none for
End. -/
def pixelsOf : Instr → Nat
  | .endFrame => 0
  | .skip count => count.toNat
  | .draw count _ => count.toNat

/-- The number of pixels the commands of a list cover together. -/
def pixelsOfAll (cs : List Instr) : Nat := (cs.map pixelsOf).sum

/-- The largest count of a run of each kind (43_encoder.md rule R97). -/
def RunKind.max : RunKind → Nat
  | .skip => Config.skipMax
  | .draw => Config.drawMax

/-- A run key (43_encoder.md rule R94): `(SKIP)`, or `(DRAW, q)`. -/
inductive RunKey where
  | skip
  | draw (q : Intensity)
deriving DecidableEq, Repr

/-- The kind of a key. -/
def RunKey.kind : RunKey → RunKind
  | .skip => .skip
  | .draw _ => .draw

/-- The key of the open run. Two keys are equal when their kinds are equal and, if the kind is DRAW, their intensities
are equal too (43_encoder.md rule R94). -/
def Enc.key (e : Enc) : RunKey :=
  match e.kind with
  | .skip => .skip
  | .draw => .draw e.inten

end Sys2Proof.Machine
end

