-- ==== Sys2Proof/Machine/Flags.lean ====
section
/-!
DEFINITION. Machine/Flags.lean: the block has no status flag, condition code or predicate (10_state.md rule R18).
What stands here are the one-bit conditions that rule names, each read directly from registers.
-/

namespace Sys2Proof.Machine

/-- "End seen" is `c = End` (rule R18). -/
def endSeen (c : Instr) : Bool := c == .endFrame

/-- "exhausted" is `dec.cursor = L` (rule R18). -/
def Dec.exhausted (d : Dec) : Bool := d.cursor == d.L

/-- The bounds check of INT: `int.offset + n ≤ int.npix`, in `Nat` with no wrap-around (40_commands.md rule R74). -/
def Interp.fits (b : Interp) (n : Nat) : Bool := decide (b.offset + n ≤ b.npix)

/-- The frame-length check of INT passes: the parameter does not hold, or the frame is whole (40_commands.md rule
R75). -/
def Interp.frameWhole (validate : Bool) (b : Interp) : Bool := !validate || b.offset == b.npix

end Sys2Proof.Machine
end

