-- ==== Sys2Proof/Machine/Decoder.lean ====
section
/-!
DEFINITION. Machine/Decoder.lean: the decoder state machine DEC (44_decoder.md).
-/

namespace Sys2Proof.Machine

/-- DEC_CONSTRUCT (44_decoder.md rule R109): a fresh instance. A blob the filter rejects leaves an empty stream and
F_FILTER in the error register (rule R110); nothing else is checked. -/
def Dec.construct (F : Filter) (blob : Bytes) (W H : BitVec 16) (frameCount : Nat) (fps : Fps) : Dec where
  P := (F.decompress blob).getD []
  cursor := 0
  pass := 0
  fp := 0
  err := if (F.decompress blob).isSome then none else some .fFilter
  W := W
  H := H
  frameCount := frameCount
  fps := fps
  blob := blob
  win := []
  scratch := .initial

/-- READ_WORD (44_decoder.md rule R111): the next word and the instance after reading it; `none` is EOF. The window
is empty again when the word has been read (10_state.md rule R25). A cursor above L, which no run has (rule R20),
stops at the read that has no value. -/
def Dec.readWord (d : Dec) : Except Stop (Option (Word × Dec)) :=
  if d.exhausted then .ok none
  else if d.cursor + 1 = d.L then .error (.raised .fOddTail)
  else
    match d.P[d.cursor]?, d.P[d.cursor + 1]? with
    | some b0, some b1 => .ok (some (parseBytes b0 b1, { d with cursor := d.cursor + 2, win := [] }))
    | _, _ => .error (.halted .streamBounds)

/-- RESTART (44_decoder.md rule R115): back to offset 0 of the same stream. -/
def Dec.restart (d : Dec) : Dec := { d with cursor := 0, scratch := .initial, pass := d.pass + 1 }

/-- LOOP_SKIP (44_decoder.md rule R116), as at most `fuel` rounds of its loop: words are read and discarded until an
End has been read. `Dec.skipFrame` gives it more rounds than the stream has words, and the round that finds the end
of the stream raises F_NO_END, so the rounds do not run out. -/
def Dec.loopSkip : Nat → Dec → Except Stop Dec
  | 0, _ => .error (.raised .fNoEnd)
  | fuel + 1, d =>
    match d.readWord with
    | .error x => .error x
    | .ok none => .error (.raised .fNoEnd)
    | .ok (some (w, d')) => if endSeen (parse w) then .ok d' else Dec.loopSkip fuel d'

/-- LOOP_SKIP over the instance's whole stream. -/
def Dec.skipFrame (d : Dec) : Except Stop Dec := Dec.loopSkip (d.L + 1) d

/-- The word READ_WORD gives RESTART_YIELD (44_decoder.md rule R118); an empty stream raises F_EMPTY_STREAM. -/
def Dec.firstWord (d : Dec) : Except Stop (Word × Dec) :=
  match d.readWord with
  | .error x => .error x
  | .ok none => .error (.raised .fEmptyStream)
  | .ok (some r) => .ok r

/-- EXHAUSTED (44_decoder.md rule R114) up to its yield: restart, loop-skip where more than one End was seen in the
pass just ended (rule R116), `dec.fp <- 0` (rule R117), and the first word of the new pass (rule R118). -/
def Dec.nextPass (d : Dec) : Except Stop (Word × Dec) :=
  match (if 1 < d.fp then d.restart.skipFrame else .ok d.restart) with
  | .error x => .error x
  | .ok d' => Dec.firstWord { d' with fp := 0 }

/-- DEC_ADVANCE up to its yield (44_decoder.md rule R112): the word of the command it will yield. -/
def Dec.fetchWord (d : Dec) : Except Stop (Word × Dec) :=
  sticky d.err
    (match d.readWord with
     | .error x => .error x
     | .ok none => d.nextPass
     | .ok (some r) => .ok r)

/-- What yielding a command does to the instance (rules R113, R118): an End is counted in `dec.fp`; Draw and Skip
write no register. -/
def Dec.yield (d : Dec) (c : Instr) : Dec := if endSeen c then { d with fp := d.fp + 1 } else d

/-- DEC_ADVANCE (44_decoder.md rule R112): the command it yields and the instance after it. -/
def Dec.advance (d : Dec) : Except Stop (Instr × Dec) :=
  match d.fetchWord with
  | .error x => .error x
  | .ok (w, d') => .ok (parse w, d'.yield (parse w))

end Sys2Proof.Machine
end

