-- ==== Sys2Proof/Machine/Interpreter.lean ====
section
/-!
DEFINITION. Machine/Interpreter.lean: the interpreter INT and its pixel buffer (40_commands.md). Each operation gives
the interpreter after it, or the fault it raised before it changed anything.
-/

namespace Sys2Proof.Machine

/-- INT_RESET (40_commands.md rule R72). `out` is the FRAME_OUT events already made, which the rule does not name:
they stay (DESIGN CHOICE, log entry 10). -/
def Interp.reset (W H : BitVec 16) (out : List FrameOut) : Interp where
  W := W
  H := H
  buf := []
  offset := 0
  frames := 0
  err := none
  out := out

/-- The element of column `x` and row `y` of the pixel buffer (20_memory.md rule R44); `none` is ⊥. -/
def Interp.pixelAt (b : Interp) (x y : Nat) : Option Intensity := b.buf.read (rasterIndex b.W.toNat x y)

/-- INT_APPLY(Draw(n, i)) (40_commands.md rules R74, R76). -/
def Interp.draw (b : Interp) (n : Nat) (i : Intensity) : Except Stop Interp :=
  if b.fits n then .ok { b with buf := b.buf.fill b.offset n i, offset := b.offset + n }
  else .error (.raised .fIntBounds)

/-- INT_APPLY(Skip(n)) (40_commands.md rules R74, R77). -/
def Interp.skip (b : Interp) (n : Nat) : Except Stop Interp :=
  if b.fits n then .ok { b with offset := b.offset + n }
  else .error (.raised .fIntBounds)

/-- `FRAME_OUT(int.frames, copy(int.buf))` (10_state.md rule R41). -/
def Interp.frameOut (b : Interp) : FrameOut where
  k := b.frames
  npix := b.npix
  cells := b.buf

/-- INT_APPLY(End) (40_commands.md rules R75, R78). -/
def Interp.endFrame (validate : Bool) (b : Interp) : Except Stop Interp :=
  if b.frameWhole validate then
    .ok { b with out := b.out ++ [b.frameOut], frames := b.frames + 1, offset := 0 }
  else .error (.raised .fIntShortFrame)

/-- INT_APPLY's match (40_commands.md rule R73), after its look at the sticky error. -/
def Interp.apply (validate : Bool) (b : Interp) : Instr → Except Stop Interp
  | .endFrame => b.endFrame validate
  | .skip count => b.skip count.toNat
  | .draw count intensity => b.draw count.toNat intensity

/-- An operation of the interpreter on pixel buffer `b` of the machine: refused where INT_RESET has not made the
buffer (70_reset_and_hazards.md rule R143); the sticky error comes first (rule R73). -/
def State.onInt (s : State) (b : Nat) (f : Interp → Except Stop Interp) : Host.Outcome State Fault Refusal :=
  match s.ints[b]? with
  | none => .refused .noInterpreter
  | some x => s.finish (.int b) ((sticky x.err (f x)).map fun x' => (s.putInt b x').answer .done)

end Sys2Proof.Machine
end

