-- ==== Sys2Proof/Machine/Commands.lean ====
section
/-!
DEFINITION. Machine/Commands.lean: the meaning of the three commands (40_commands.md), each the effect of yielding it
on the DEC instance the consumer plays and the effect of INT_APPLY on the pixel buffer it plays into. The fetch of
the command's word has moved the cursor before (Fetch.lean).
-/

namespace Sys2Proof.Machine

/-- The DEC effect of a yielded command, on the instance the consumer plays. Where no instance exists, nothing has
yielded the command and there is no register to write. -/
def State.yieldCommand (s : State) (c : Instr) : State :=
  match s.decs[s.cur]? with
  | some d => s.putDec s.cur (d.yield c)
  | none => s

/-- END (40_commands.md rule R78): DEC counts it (44_decoder.md rule R113), then INT_APPLY(End). The two are separate
operations: a fault of INT leaves DEC's count in place. -/
def execEnd (s : State) : Host.Outcome State Fault Refusal :=
  (s.yieldCommand .endFrame).onInt s.curBuf (Interp.endFrame s.validateFrameLen)

/-- SKIP (40_commands.md rule R77): DEC writes no register for it; INT_APPLY(Skip(count)). -/
def execSkip (count : BitVec 15) (s : State) : Host.Outcome State Fault Refusal :=
  (s.yieldCommand (.skip count)).onInt s.curBuf (fun b => b.skip count.toNat)

/-- DRAW (40_commands.md rule R76): DEC writes no register for it; INT_APPLY(Draw(count, intensity)). -/
def execDraw (count : BitVec 13) (intensity : Intensity) (s : State) : Host.Outcome State Fault Refusal :=
  (s.yieldCommand (.draw count intensity)).onInt s.curBuf (fun b => b.draw count.toNat intensity)

end Sys2Proof.Machine
end

