-- ==== Sys2Proof/Machine/Dispatch.lean ====
section
/-!
DEFINITION. Machine/Dispatch.lean: the meaning of each instruction, one arm per constructor.
-/

namespace Sys2Proof.Machine

def exec (i : Instr) (s : State) : Host.Outcome State Fault Refusal :=
  match i with
  | .endFrame => Sys2Proof.Machine.execEnd s
  | .skip count => Sys2Proof.Machine.execSkip count s
  | .draw count intensity => Sys2Proof.Machine.execDraw count intensity s

end Sys2Proof.Machine
end

