-- ==== Sys2Proof/Machine/Fetch.lean ====
section
/-!
DEFINITION. Machine/Fetch.lean: how the consumer's play iteration gets its next command (70_reset_and_hazards.md rule
R147 step 4), and how a command word is placed where that fetch finds it.
-/

namespace Sys2Proof.Machine

/-- What the fetch of a play iteration gives: a command with the state in which it runs, or the end of the step. -/
inductive Fetched where
  | command (c : Instr) (s : State)
  | ended (o : Host.Outcome State Fault Refusal)

/-- The fetch: DEC_ADVANCE on the instance the consumer plays, up to its yield (44_decoder.md rule R112). A fault of
DEC ends the iteration, since there is then no command to apply (60_exceptions.md rule R130). -/
def fetch (s : State) : Fetched :=
  match s.decs[s.cur]? with
  | none => .ended (.refused .noDecoder)
  | some d =>
    match d.fetchWord with
    | .error x => .ended (s.finish (.dec s.cur) (.error x))
    | .ok (w, d') => .command (parse w) (s.putDec s.cur d')

/-- The next operation a driver has issued is taken from the script (20_memory.md rule R53). -/
def State.takeOp (s : State) (rest : List Op) : State := { s with script := rest }

/-- A DEC instance whose stream is `bytes`, as DEC_CONSTRUCT makes it from the blob that decompresses to them
(44_decoder.md rule R109). -/
def Dec.ofStream (bytes : Bytes) (W H : BitVec 16) : Dec where
  P := bytes
  cursor := 0
  pass := 0
  fp := 0
  err := none
  W := W
  H := H
  frameCount := 1
  fps := ⟨0⟩
  blob := Config.filter.compress bytes
  win := []
  scratch := .initial

/-- The machine with a one-command stream ready to play: no operation waits, a fresh DEC instance bound to the stream
stands after those that exist, and the consumer plays it. The pixel buffer it plays into stays as it is; where there
is none, a fresh one of one row, as wide as the command's count, is made as INT_RESET makes it. Log entry 2. -/
def State.withStream (s : State) (w : Word) : State :=
  let width := BitVec.ofNat 16 (pixelsOf (parse w))
  { s with
    script := []
    decs := s.decs ++ [Dec.ofStream (serialize w) width 1#16]
    cur := s.decs.length
    ints := match s.ints[s.curBuf]? with
      | some _ => s.ints
      | none => s.ints ++ [Interp.reset width 1#16 []]
    curBuf := match s.ints[s.curBuf]? with
      | some _ => s.curBuf
      | none => s.ints.length }

end Sys2Proof.Machine
end

