-- ==== Sys2Proof/Machine/Formatter.lean ====
section
/-!
DEFINITION. Machine/Formatter.lean: FMT_SKIP, FMT_DRAW and FMT_END (42_formatter.md). FMT_SERIALIZE, PARSE_BYTES and
PARSE are in Decode.lean.
-/

namespace Sys2Proof.Machine

/-- FMT_SKIP (42_formatter.md rule R83). -/
def fmtSkip (c : Nat) : Except Stop Word :=
  if c = 0 then .error (.raised .eZeroRun)
  else if Config.skipMax < c then .error (.raised .eFieldOverflow)
  else .ok (encode (.skip (BitVec.ofNat 15 c)))

/-- FMT_DRAW (42_formatter.md rule R84). -/
def fmtDraw (c : Nat) (i : Intensity) : Except Stop Word :=
  if c = 0 then .error (.raised .eZeroRun)
  else if Config.drawMax < c then .error (.raised .eFieldOverflow)
  else .ok (encode (.draw (BitVec.ofNat 13 c) i))

/-- FMT_END (42_formatter.md rule R85). -/
def fmtEnd : Word := encode .endFrame

end Sys2Proof.Machine
end

