-- ==== Sys2Proof/Machine/Quantizer.lean ====
section
/-!
DEFINITION. Machine/Quantizer.lean: QUANT (41_quantizer.md).
-/

namespace Sys2Proof.Machine

/-- QUANT (41_quantizer.md rule R80): `s[7:6]`. -/
def quant (s : Byte) : Intensity := s.extractLsb' 6 2

end Sys2Proof.Machine
end

