-- ==== Sys2Proof/Machine/Encoder.lean ====
section
/-!
DEFINITION. Machine/Encoder.lean: the streaming encoder ENC (43_encoder.md sections 1 and 2). Each operation gives the
encoder after it, or what it raised; the fault is taken in Transactions.lean, with everything rolled back.
-/

namespace Sys2Proof.Machine

/-- The checks before every ENC operation but ENC_BEGIN: the sticky error, then the phase (43_encoder.md rule R90,
60_exceptions.md rule R133). -/
def Enc.inPhase {α : Type} (e : Enc) (ph : Phase) (body : Except Stop α) : Except Stop α :=
  sticky e.err (if e.phase = ph then body else .error (.raised .eSequence))

/-- ENC_BEGIN (43_encoder.md rule R91), accepted in every phase and with any sticky error. -/
def Enc.beginBuild (W H : Nat) (fps : Fps) : Except Stop Enc :=
  if W = 0 ∨ H = 0 then .error (.raised .eZeroDim)
  else if Config.dimMax < W ∨ Config.dimMax < H then .error (.raised .eDimRange)
  else .ok { Enc.reset with W := BitVec.ofNat 16 W, H := BitVec.ofNat 16 H, fps := fps, phase := .between }

/-- `enc.count <- 0` (43_encoder.md rules R92, R101): no run is open (10_state.md rule R28), and while none is, the kind
and the intensity of the emission state are fixed at SKIP and 0 (93_implementation_defined.md I20, decision D20). -/
def Enc.closeRun (e : Enc) : Enc := { e with kind := .skip, inten := 0, count := 0 }

/-- ENC_FRAME_BEGIN (43_encoder.md rule R92). -/
def Enc.frameBegin (e : Enc) (w h : Nat) : Except Stop Enc :=
  e.inPhase .between
    (if w ≠ e.W.toNat ∨ h ≠ e.H.toNat then .error (.raised .eDimMismatch)
     else .ok { e.closeRun with pix := 0, phase := .inFrame })

/-- CLASSIFY (43_encoder.md rule R94): the key of a pixel of quantized level `q` at index `p`. -/
def Enc.classify (e : Enc) (q : Intensity) (p : Nat) : Except Stop RunKey :=
  if e.hasPrev then
    match e.prev.read p with
    | some old => .ok (if q = old then .skip else .draw q)
    | none => .error (.halted .prevUnwritten)
  else .ok (.draw q)

/-- EMIT (43_encoder.md rule R99): two bytes appended to `enc.O`. -/
def Enc.emit (e : Enc) (w : Word) : Enc := { e with O := e.O ++ serialize w }

/-- FLUSH (43_encoder.md rule R98): the open run as one command. -/
def Enc.flush (e : Enc) : Except Stop Enc :=
  match (match e.kind with
    | .skip => fmtSkip e.count
    | .draw => fmtDraw e.count e.inten) with
  | .ok w => .ok (e.emit w)
  | .error x => .error x

/-- FLUSH where a run is open (43_encoder.md rules R97, R101: "if enc.count > 0"). -/
def Enc.flushOpen (e : Enc) : Except Stop Enc := if 0 < e.count then e.flush else .ok e

/-- `(enc.kind, enc.inten) <- k ; enc.count <- 1` (43_encoder.md rule R97). The key `(SKIP)` gives `enc.inten` no value,
and it has no meaning while the kind is SKIP (10_state.md rule R28): a free value stands there, log entry 8. -/
def Enc.openRun (e : Enc) : RunKey → Enc
  | .skip => { e with kind := .skip, inten := Config.skipIntensity e.frames e.pix e.inten, count := 1 }
  | .draw q => { e with kind := .draw, inten := q, count := 1 }

/-- ACCUMULATE (43_encoder.md rule R97). -/
def Enc.accumulate (e : Enc) (k : RunKey) : Except Stop Enc :=
  if 0 < e.count ∧ k = e.key ∧ e.count < k.kind.max then .ok { e with count := e.count + 1 }
  else
    match e.flushOpen with
    | .ok e' => .ok (e'.openRun k)
    | .error x => .error x

/-- ENC_PIXEL (43_encoder.md rule R93): the element of `enc.prev` is read by CLASSIFY before it is overwritten. -/
def Enc.pixel (e : Enc) (s : Byte) : Except Stop Enc :=
  e.inPhase .inFrame
    (if e.pix = e.npix then .error (.raised .ePixelCount)
     else
      match e.classify (quant s) e.pix with
      | .error x => .error x
      | .ok k =>
        match (Enc.accumulate { e with prev := e.prev.write e.pix (quant s) } k) with
        | .error x => .error x
        | .ok e' => .ok { e' with pix := e.pix + 1 })

/-- ENC_FRAME_END (43_encoder.md rule R101). -/
def Enc.frameEnd (e : Enc) : Except Stop Enc :=
  e.inPhase .inFrame
    (if e.pix ≠ e.npix then .error (.raised .ePixelCount)
     else
      match e.flushOpen with
      | .error x => .error x
      | .ok e' =>
        .ok { (e'.emit fmtEnd).closeRun with hasPrev := true, frames := e.frames + 1, phase := .between })

/-- ENC_FINISH (43_encoder.md rule R103): the encoder after it, and the result. -/
def Enc.finish (F : Filter) (e : Enc) : Except Stop (Enc × Result) :=
  e.inPhase .between
    (if e.frames < 2 then .error (.raised .eNoFrames)
     else .ok ({ e with phase := .done }, .asset (F.compress e.O) e.W e.H (e.frames - 1) e.fps))

end Sys2Proof.Machine
end

