-- ==== Sys2Proof/Machine/Transactions.lean ====
section
/-!
DEFINITION. Machine/Transactions.lean: the operations the drivers issue (00_scope.md rule R2, 20_memory.md rule R50),
each one step of the machine.
-/

namespace Sys2Proof.Machine

/-- An operation of ENC that returns no value. -/
def State.onEnc (s : State) (r : Except Stop Enc) : Host.Outcome State Fault Refusal :=
  s.finish .enc (r.map fun e => (s.putEnc e).answer .done)

/-- ENC_FINISH (43_encoder.md rule R103). -/
def State.encFinish (s : State) : Host.Outcome State Fault Refusal :=
  s.finish .enc ((s.enc.finish Config.filter).map fun r => (s.putEnc r.1).answer r.2)

/-- FMT_SKIP or FMT_DRAW as an operation of its own: its faults go to `enc.err` (42_formatter.md rules R83, R84), whose
sticky code comes first (60_exceptions.md rules R131, R133). It has no phase (43_encoder.md rule R90). DEDUCED, log
entry 9. -/
def State.onFmt (s : State) (r : Except Stop Word) : Host.Outcome State Fault Refusal :=
  s.finish .enc ((sticky s.enc.err r).map fun w => s.answer (.word w))

/-- DEC_CONSTRUCT (44_decoder.md rule R109): a fresh instance beside those that exist (60_exceptions.md rule R140). -/
def State.decConstruct (s : State) (blob : Bytes) (W H : BitVec 16) (frameCount : Nat) (fps : Fps) : State :=
  { s with decs := s.decs ++ [Dec.construct Config.filter blob W H frameCount fps],
           result := .decoder s.decs.length }

/-- DEC_ADVANCE on instance `d` (44_decoder.md rule R112): refused where it was never constructed
(70_reset_and_hazards.md rule R143). -/
def State.decAdvance (s : State) (d : Nat) : Host.Outcome State Fault Refusal :=
  match s.decs[d]? with
  | none => .refused .noDecoder
  | some x => s.finish (.dec d) (x.advance.map fun r => (s.putDec d r.2).answer (.command r.1))

/-- INT_RESET (40_commands.md rule R72) of pixel buffer `b`, or of a new buffer after those that exist. It never
faults. -/
def State.intReset (s : State) (b : Nat) (W H : BitVec 16) : State :=
  match s.ints[b]? with
  | some x => (s.putInt b (Interp.reset W H x.out)).answer (.buffer b)
  | none => { s with ints := s.ints ++ [Interp.reset W H []], result := .buffer s.ints.length }

/-- INT_APPLY (40_commands.md rule R73) on pixel buffer `b`. -/
def State.intApply (s : State) (b : Nat) (c : Instr) : Host.Outcome State Fault Refusal :=
  s.onInt b (fun x => x.apply s.validateFrameLen c)

/-- The consumer turns to playing instance `d` on pixel buffer `b`. It is the driver's own choice and touches no unit
(log entry 5). -/
def State.playOn (s : State) (d b : Nat) : State := { s with cur := d, curBuf := b, result := .done }

/-- One operation of a driver. -/
def runOp (op : Op) (s : State) : Host.Outcome State Fault Refusal :=
  match op with
  | .encBegin W H fps => s.onEnc (Enc.beginBuild W H fps)
  | .encFrameBegin w h => s.onEnc (s.enc.frameBegin w h)
  | .encPixel x => s.onEnc (s.enc.pixel x)
  | .encFrameEnd => s.onEnc s.enc.frameEnd
  | .encFinish => s.encFinish
  | .quant x => .next (s.answer (.level (quant x)))
  | .fmtSkip c => s.onFmt (fmtSkip c)
  | .fmtDraw c i => s.onFmt (fmtDraw c i)
  | .fmtEnd => .next (s.answer (.word fmtEnd))
  | .fmtSerialize w => .next (s.answer (.bytes (serialize w)))
  | .parseBytes b0 b1 => .next (s.answer (.word (parseBytes b0 b1)))
  | .parse w => .next (s.answer (.command (parse w)))
  | .decConstruct blob W H frameCount fps => .next (s.decConstruct blob W H frameCount fps)
  | .decAdvance d => s.decAdvance d
  | .intReset b W H => .next (s.intReset b W H)
  | .intApply b c => s.intApply b c
  | .drive d b => .next (s.playOn d b)

end Sys2Proof.Machine
end

