-- ==== Sys2Proof/Machine/Step.lean ====
section
/-!
DEFINITION. Machine/Step.lean: one step of the machine is one operation of a driver, or, where none is waiting, one play
iteration of the consumer (20_memory.md rules R50, R53; 70_reset_and_hazards.md rule R147 step 4).
-/

namespace Sys2Proof.Machine

/-- The play iteration `c <- DEC_ADVANCE(); INT_APPLY(c)` (rule R147 step 4). -/
def play (s : State) : Host.Outcome State Fault Refusal :=
  match fetch s with
  | .command c s' => exec c s'
  | .ended o => o

/-- One step: the oldest operation the drivers have issued, or else the consumer's next play iteration. -/
def step (s : State) : Host.Outcome State Fault Refusal :=
  match s.script with
  | op :: rest => runOp op (s.takeOp rest)
  | [] => play s

/-- The machine with an opcode-table row's word where the next step fetches its command. -/
def State.withFetchWord (s : State) (nbits w : Nat) : State := s.withStream (tableWord nbits w)

end Sys2Proof.Machine
end

