-- ==== Sys2Proof/Machine/Encode.lean ====
section
/-!
DEFINITION. Machine/Encode.lean: ENCODE, the encoder as a function over whole frames, which is the normative meaning of
the encoder (43_encoder.md rule R105), the expansions of long runs (30_encoding.md rule R71), and the operations a
host issues for a build (43_encoder.md rule R90).
-/

namespace Sys2Proof.Machine

/-- An input frame of rule R105: its own dimensions and its samples in raster order. -/
structure RawFrame where
  w : Nat
  h : Nat
  samples : Bytes
deriving DecidableEq, Repr

/-- A frame holds one sample for each of its pixels (rule R105: `samples[0..w_k*h_k−1]`). -/
def RawFrame.wf (f : RawFrame) : Bool := f.samples.length == f.w * f.h

/-- `Q[k]`: the frame's samples quantized (rule R105). -/
def RawFrame.levels (f : RawFrame) : List Intensity := f.samples.map quant

/-- The key of a pixel whose previous level is `old` and whose level is `new` (rule R105's FRAME). -/
def pixelKey (old new : Intensity) : RunKey := if old = new then .skip else .draw new

/-- The keys of a frame's pixels in raster order: all DRAW where there is no previous frame (43_encoder.md rules R95,
R96, R105). -/
def frameKeys (prev : Option (List Intensity)) (cur : List Intensity) : List RunKey :=
  match prev with
  | none => cur.map RunKey.draw
  | some old => List.zipWith pixelKey old cur

/-- `command(key, count)` (rule R105). -/
def RunKey.command : RunKey → Nat → Instr
  | .skip, count => .skip (BitVec.ofNat 15 count)
  | .draw q, count => .draw (BitVec.ofNat 13 count) q

/-- The open run as a command, where one is open (rule R105: "if count > 0"). -/
def RunKey.close (key : RunKey) (count : Nat) : List Instr := if 0 < count then [key.command count] else []

/-- The loop of rule R105's FRAME over the keys of the pixels that are left, with an open run of `count` pixels. -/
def emitRuns : RunKey → Nat → List RunKey → List Instr
  | key, count, [] => key.close count
  | key, count, k :: rest =>
    if 0 < count ∧ k = key ∧ count < k.kind.max then emitRuns key (count + 1) rest
    else key.close count ++ emitRuns k 1 rest

/-- FRAME (rule R105): the commands of one frame, its End among them. -/
def frameCommands (prev : Option (List Intensity)) (cur : List Intensity) : List Instr :=
  emitRuns .skip 0 (frameKeys prev cur) ++ [.endFrame]

/-- The frames of a list, each against the one before it (rule R105). -/
def chainCommands : Option (List Intensity) → List (List Intensity) → List Instr
  | _, [] => []
  | prev, q :: rest => frameCommands prev q ++ chainCommands (some q) rest

/-- The frames a build encodes: the N frames and frame 0 again as the tail (rules R102, R105). -/
def withTail {α : Type} : List α → List α
  | [] => []
  | f :: rest => f :: rest ++ [f]

/-- `S` of rule R105: the commands of the N + 1 frames. -/
def streamCommands (F : List RawFrame) : List Instr := chainCommands none ((withTail F).map RawFrame.levels)

/-- `P` of rule R105: the serialized words of `S`. -/
def physicalStream (F : List RawFrame) : Bytes := encodeStream (streamCommands F)

/-- ENCODE (rule R105): `(FILTER.compress(P), W, H, N, fps)`, or the fault of the first check that fails. -/
def encodeAsset (flt : Filter) (W H : Nat) (fps : Fps) (F : List RawFrame) : Except FaultCode Result :=
  if W = 0 ∨ H = 0 then .error .eZeroDim
  else if Config.dimMax < W ∨ Config.dimMax < H then .error .eDimRange
  else if F.any (fun f => decide (f.w ≠ W ∨ f.h ≠ H)) then .error .eDimMismatch
  else if F.isEmpty then .error .eNoFrames
  else .ok (.asset (flt.compress (physicalStream F)) (BitVec.ofNat 16 W) (BitVec.ofNat 16 H) F.length fps)

/-- The expansion of a run of `n` pixels of one key, `DrawRun(n, i)` or `SkipRun(n)` (30_encoding.md rule R71): full
commands, then the remainder where there is one. -/
def RunKey.expand (key : RunKey) (n : Nat) : List Instr :=
  List.replicate (n / key.kind.max) (key.command key.kind.max) ++ key.close (n % key.kind.max)

/-- The operations a host issues for one frame (43_encoder.md rule R90). -/
def frameOps (f : RawFrame) : List Op :=
  .encFrameBegin f.w f.h :: f.samples.map Op.encPixel ++ [.encFrameEnd]

/-- The operations a host issues for a whole build (rule R90): the N frames, frame 0 again, and ENC_FINISH. -/
def buildOps (W H : Nat) (fps : Fps) (F : List RawFrame) : List Op :=
  .encBegin W H fps :: (withTail F).flatMap frameOps ++ [.encFinish]

end Sys2Proof.Machine
end

