-- ==== Sys2Proof/Safety.lean ====
section
/-!
DEFINITION. Safety.lean: what a good state of the machine is, as 10_state.md and the rules derived from it say, and
what a safe step is.
-/

namespace Sys2Proof.Machine

/-- How many End words the whole words of a byte sequence hold, read from its start (10_state.md rule R22). -/
def endsIn : Bytes → Nat
  | b0 :: b1 :: rest => (if endSeen (parse (parseBytes b0 b1)) then 1 else 0) + endsIn rest
  | _ => 0

/-- A DEC instance as its rules keep it. -/
structure Dec.Ok (d : Dec) : Prop where
  /-- Outside an operation the cursor is even (10_state.md rule R20). -/
  aligned : d.cursor % 2 = 0
  /-- The cursor never exceeds L (rule R20). -/
  inStream : d.cursor ≤ d.L
  /-- The window is empty between operations (rule R25). -/
  windowEmpty : d.win = []
  /-- `dec.P` is what the filter makes of the blob, or empty where it rejects it (rules R19, R109, R110). -/
  source : d.P = (Config.filter.decompress d.blob).getD []
  /-- A rejected blob leaves F_FILTER (rule R110). -/
  rejected : Config.filter.decompress d.blob = none → d.err = some .fFilter
  /-- `dec.fp` counts End words that were read in this pass (rule R22). -/
  counted : d.fp ≤ endsIn (d.P.take d.cursor)
  /-- Which fault a DEC instance can hold, and what it says of the stream (44_decoder.md rules R110, R123):
  F_NO_END never, F_EMPTY_STREAM only when L = 0, F_ODD_TAIL only when L is odd. -/
  errCause : ∀ c, d.err = some c →
    (c = .fFilter ∧ Config.filter.decompress d.blob = none) ∨ (c = .fEmptyStream ∧ d.L = 0) ∨
      (c = .fOddTail ∧ d.L % 2 = 1)

/-- The encoder as its rules keep it. -/
structure Enc.Ok (e : Enc) : Prop where
  /-- A build under way has dimensions that are not zero (43_encoder.md rule R91). -/
  dims : e.phase ≠ .idle → e.W ≠ 0 ∧ e.H ≠ 0
  /-- `enc.count ≤ MAX(enc.kind)` (10_state.md rule R28). -/
  countBound : e.count ≤ e.kind.max
  /-- While no run is open the emission state is SKIP with intensity 0 (93_implementation_defined.md I20). -/
  noRun : e.count = 0 → e.kind = .skip ∧ e.inten = 0
  /-- `enc.prev` is in canonical form. -/
  prevWf : e.prev.wf = true
  /-- Nothing is written outside the frame (20_memory.md rule R42). -/
  prevWithin : e.prev.within e.npix = true
  /-- `enc.pix ≤ enc.npix` (10_state.md rule R31). -/
  pixBound : e.pix ≤ e.npix
  /-- Once there is a previous frame every element has been written (rule R29). -/
  prevCovers : e.hasPrev = true → ∀ p, p < e.npix → (e.prev.read p).isSome = true
  /-- The pixels of the current frame have been written (43_encoder.md rule R93). -/
  prevSoFar : e.phase = .inFrame → ∀ p, p < e.pix → (e.prev.read p).isSome = true
  /-- A run is open once the frame has a pixel (43_encoder.md rule R101). -/
  runOpen : e.phase = .inFrame → 0 < e.pix → 0 < e.count
  /-- The length of `enc.O` is even (43_encoder.md rule R99). -/
  streamEven : e.O.length % 2 = 0
  /-- There is a previous frame when a frame has been encoded (10_state.md rules R30, R33). -/
  hasPrevIff : e.hasPrev = decide (0 < e.frames)
  /-- The codes `enc.err` holds (rule R35). -/
  errCode : ∀ c, e.err = some c → c.isEnc = true

/-- An interpreter and its pixel buffer as their rules keep them. -/
structure Interp.Ok (b : Interp) : Prop where
  /-- `int.buf` is in canonical form. -/
  bufWf : b.buf.wf = true
  /-- INT never writes an index ≥ int.npix (20_memory.md rule R44). -/
  bufWithin : b.buf.within b.npix = true
  /-- `int.offset ≤ int.npix` (10_state.md rule R38). -/
  offsetBound : b.offset ≤ b.npix
  /-- The codes `int.err` holds (rule R40). -/
  errCode : ∀ c, b.err = some c → c.isInt = true
  /-- Every snapshot is a buffer of its own size in canonical form (rule R41). -/
  outWf : ∀ f ∈ b.out, f.cells.wf = true ∧ f.cells.within f.npix = true

/-- The invariant of the machine: every unit is as its rules keep it. -/
structure State.Inv (s : State) : Prop where
  enc : s.enc.Ok
  decs : ∀ d ∈ s.decs, d.Ok
  ints : ∀ b ∈ s.ints, b.Ok

/-- A step is safe when it makes no read that has no value (the two constructors of `Fault`). -/
def StepSafe (s : State) : Prop := ∀ f, step s ≠ .fault f

/-- The operations whose unit is ENC, but for its reset operation ENC_BEGIN (43_encoder.md rule R90), and the two of the
formatter whose faults set `enc.err` (42_formatter.md rules R83, R84): those that look at the sticky `enc.err` first
(60_exceptions.md rules R131, R133; for the formatter log entry 9). -/
def looksAtEncErr : Op → Bool
  | .encFrameBegin _ _ | .encPixel _ | .encFrameEnd | .encFinish | .fmtSkip _ | .fmtDraw _ _ => true
  | .encBegin _ _ _ | .quant _ | .fmtEnd | .fmtSerialize _ | .parseBytes _ _ | .parse _ | .decConstruct _ _ _ _ _
  | .decAdvance _ | .intReset _ _ _ | .intApply _ _ | .drive _ _ => false

/-- The operations whose faults go to `enc.err` (60_exceptions.md rule R128): those and ENC_BEGIN. -/
def faultsInEnc : Op → Bool
  | .encBegin _ _ _ => true
  | op => looksAtEncErr op

/-- DEC_ADVANCE `n` times from an instance: the commands yielded and the instance after them (44_decoder.md rule
R119). -/
def Dec.advances : Nat → Dec → Except Stop (List Instr × Dec)
  | 0, d => .ok ([], d)
  | n + 1, d =>
    match d.advance with
    | .error x => .error x
    | .ok (c, d') =>
      match Dec.advances n d' with
      | .error x => .error x
      | .ok (cs, d'') => .ok (c :: cs, d'')

/-- INT_APPLY of each command of a list in turn (40_commands.md rule R79), on an interpreter with no error; the first
fault ends it. -/
def Interp.applyAll (validate : Bool) : Interp → List Instr → Except Stop Interp
  | b, [] => .ok b
  | b, c :: rest =>
    match b.apply validate c with
    | .error x => .error x
    | .ok b' => Interp.applyAll validate b' rest

/-- The pixel buffer shows a whole frame: every index of the frame holds that frame's level, and no other index holds
anything. -/
def Shows (m : Memory) (q : List Intensity) : Prop := ∀ p, m.read p = q[p]?

end Sys2Proof.Machine
end

