-- ==== Sys2Proof/Certificates/Slice0/Obligations.lean ====
section
/-!
DEFINITION. Certificates/Slice0/Obligations.lean: the statements about the machine, from the rules of spec/ file by
file. OBLIGATIONS.json lists them with what each cites.
-/

open Sys2Proof Sys2Proof.Machine

/-! ### Command words: 20_memory.md, 30_encoding.md, 42_formatter.md -/

/-- DECODE AND ENCODE AGREE (rules R65, R66, R88): the bytes of any command decode to it, with every operand at every
value its encoding admits, and the bytes after it are left for the next. -/
def Obligations.DecodeOfEncodedCommandIsTheCommand : Prop :=
  ∀ (i : Instr) (rest : Bytes), i.wf = true → decode (encodeBytes i ++ rest) = .ok (i, rest)

/-- No word is illegal and no bit of a word is dropped (rule R68): every word parses to a command whose word it is. -/
def Obligations.EveryWordIsTheWordOfItsCommand : Prop :=
  ∀ w : Word, (parse w).wf = true ∧ encode (parse w) = w

/-- PARSE reads the fields where rules R61 to R64 and R88 put them. -/
def Obligations.ParseReadsTheFieldsOfBothLayouts : Prop :=
  ∀ w : Word,
    (w = 0 → parse w = .endFrame) ∧
    (w ≠ 0 → w.toNat % 2 = 0 → ∃ n, parse w = .skip n ∧ n.toNat = w.toNat / 2 ∧ 1 ≤ n.toNat) ∧
    (w.toNat % 2 = 1 → ∃ n i, parse w = .draw n i ∧ n.toNat = w.toNat / 8 ∧ i.toNat = w.toNat / 2 % 4)

/-- The opcode map (rule R66): a word's command is that of the first row, in the order of the priorities, that
covers it. -/
def Obligations.FirstRowOfTheOpcodeMapNamesTheCommand : Prop :=
  ∀ w : Word, (opcodeTable.find? fun r => r.covers w).map OpcodeRow.mnemonic = some (parse w).mnemonic

/-- A few words written out from the spec's layouts decode to the commands they stand for (rules R45, R61, R62, R63;
95_test_vectors.md L2-PARSE). -/
def Obligations.WrittenWordsDecodeToTheirCommands : Prop :=
  decode [0x00, 0x00] = .ok (.endFrame, []) ∧ decode [0x02, 0x00] = .ok (.skip 1, []) ∧
  decode [0x34, 0x12] = .ok (.skip 2330, []) ∧ decode [0xFE, 0xFF] = .ok (.skip 32767, []) ∧
  decode [0x27, 0x00] = .ok (.draw 4 3, []) ∧ decode [0xCD, 0xAB] = .ok (.draw 5497 2, []) ∧
  decode [0x07, 0x00] = .ok (.draw 0 3, [])

/-- Words are little-endian in both directions (rules R45, R86, R87). -/
def Obligations.WordsAreLittleEndian : Prop :=
  (∀ b0 b1 : Byte, (parseBytes b0 b1).toNat = b0.toNat + 256 * b1.toNat) ∧
  (∀ w : Word, serialize w = [BitVec.ofNat 8 (w.toNat % 256), BitVec.ofNat 8 (w.toNat / 256)])

/-- Rule R89: formatting and parsing are inverse on the commands the encoder can emit, and the other way round but
for the four Draw words of count 0, which have no formatter preimage. -/
def Obligations.FormattingAndParsingAreInverse : Prop :=
  (∀ c, 1 ≤ c → c ≤ 32767 → ∃ w n, fmtSkip c = .ok w ∧ parse w = .skip n ∧ n.toNat = c) ∧
  (∀ c i, 1 ≤ c → c ≤ 8191 → ∃ w n, fmtDraw c i = .ok w ∧ parse w = .draw n i ∧ n.toNat = c) ∧
  parse fmtEnd = .endFrame ∧
  (∀ w, ∃ b0 b1, serialize w = [b0, b1] ∧ parseBytes b0 b1 = w) ∧
  (∀ w, parse w = .endFrame → fmtEnd = w) ∧
  (∀ w n, parse w = .skip n → fmtSkip n.toNat = .ok w) ∧
  (∀ w n i, parse w = .draw n i → 1 ≤ n.toNat → fmtDraw n.toNat i = .ok w) ∧
  (∀ w i, parse w = .draw 0 i → fmtEnd ≠ w ∧ (∀ c, fmtSkip c ≠ .ok w) ∧ ∀ c j, fmtDraw c j ≠ .ok w)

/-- FMT_SKIP and FMT_DRAW as operations (rules R83, R84), with no error set: the word of the count, or E_ZERO_RUN, or
E_FIELD_OVERFLOW, whose code goes to `enc.err` and nowhere else. (That the operations look at the sticky error first
is read from rules R131 and R133: log entry 9.) -/
def Obligations.FormatterPacksACountOrRecordsTheFault : Prop :=
  ∀ (s : State) (rest : List Op) (c : Nat) (i : Intensity), s.enc.err = none →
    (s.script = .fmtSkip c :: rest →
      step s = .next
        (if c = 0 then { s with script := rest, enc := { s.enc with err := some .eZeroRun }, result := .fault .eZeroRun }
         else if 32767 < c then
          { s with script := rest, enc := { s.enc with err := some .eFieldOverflow }, result := .fault .eFieldOverflow }
         else { s with script := rest, result := .word (BitVec.ofNat 16 (2 * c)) })) ∧
    (s.script = .fmtDraw c i :: rest →
      step s = .next
        (if c = 0 then { s with script := rest, enc := { s.enc with err := some .eZeroRun }, result := .fault .eZeroRun }
         else if 8191 < c then
          { s with script := rest, enc := { s.enc with err := some .eFieldOverflow }, result := .fault .eFieldOverflow }
         else { s with script := rest, result := .word (BitVec.ofNat 16 (8 * c + 2 * i.toNat + 1)) }))

/-! ### The quantizer: 41_quantizer.md -/

/-- QUANT is the division by 64 (rule R80), and the level rises with the sample (rule R82). -/
def Obligations.QuantizerDividesBySixtyFour : Prop :=
  (∀ s : Byte, (quant s).toNat = s.toNat / 64) ∧
  (∀ s t : Byte, s.toNat ≤ t.toNat → (quant s).toNat ≤ (quant t).toNat)

/-! ### The commands: 40_commands.md -/

/-- DRAW completes, and its frame (rule R76): where the run fits, the next `count` pixels hold the intensity, every
other index reads as before, the offset moves by the count, and nothing else changes. It is said of INT_APPLY on any
buffer, and of the command played. -/
def Obligations.DrawPaintsTheNextPixels : Prop :=
  ∀ (n : BitVec 13) (i : Intensity) (s : State) (k : Nat) (b : Interp),
    s.ints[k]? = some b → b.err = none → b.offset + n.toNat ≤ b.npix →
    ∃ (m : Memory) (t : State),
      t = { s with
        ints := s.ints.set k { b with buf := m, offset := b.offset + n.toNat }
        result := .done } ∧
      (∀ p, m.read p = if b.offset ≤ p ∧ p < b.offset + n.toNat then some i else b.buf.read p) ∧
      runOp (.intApply k (.draw n i)) s = .next t ∧
      (s.curBuf = k → exec (.draw n i) s = .next t)

/-- SKIP completes, and its frame (rule R77): where the run fits, the offset moves by the count; the pixel buffer and
everything else stay. It is said of INT_APPLY on any buffer, and of the command played. -/
def Obligations.SkipLeavesTheNextPixels : Prop :=
  ∀ (n : BitVec 15) (s : State) (k : Nat) (b : Interp),
    s.ints[k]? = some b → b.err = none → b.offset + n.toNat ≤ b.npix →
    ∃ t : State,
      t = { s with
        ints := s.ints.set k { b with offset := b.offset + n.toNat }
        result := .done } ∧
      runOp (.intApply k (.skip n)) s = .next t ∧
      (s.curBuf = k → exec (.skip n) s = .next t)

/-- END completes, and its frame (rules R78, R113): FRAME_OUT is recorded with the number of the frame and a copy of
the buffer, the frame is counted, the offset is 0; the buffer stays; nothing else changes. It is said of INT_APPLY on
any buffer, and of the command played, where the DEC instance played counts the End (that nothing is counted where
there is no instance is the model's choice, log entry 18). -/
def Obligations.EndRecordsTheFrameAndStartsTheNext : Prop :=
  ∀ (s : State) (k : Nat) (b : Interp),
    s.ints[k]? = some b → b.err = none → (s.validateFrameLen = true → b.offset = b.npix) →
    ∃ t : State,
      t = { s with
        ints := s.ints.set k { b with
          out := b.out ++ [⟨b.frames, b.npix, b.buf⟩], frames := b.frames + 1, offset := 0 }
        result := .done } ∧
      runOp (.intApply k .endFrame) s = .next t ∧
      (s.curBuf = k →
        exec .endFrame s = .next { t with decs := s.decs.modify s.cur fun d => { d with fp := d.fp + 1 } })

/-- Rule R74: a Draw or Skip that does not fit raises F_INT_BOUNDS, and the buffer and the offset are unchanged. It is
said of INT_APPLY on any buffer, and of the command played. -/
def Obligations.OutOfBoundsCommandWritesNothing : Prop :=
  ∀ (s : State) (k : Nat) (b : Interp), s.ints[k]? = some b → b.err = none →
    ∀ c : Instr, c ≠ .endFrame → b.npix < b.offset + pixelsOf c →
      ∃ t : State,
        t = { s with ints := s.ints.set k { b with err := some .fIntBounds }, result := .fault .fIntBounds } ∧
        runOp (.intApply k c) s = .next t ∧
        (s.curBuf = k → exec c s = .next t)

/-- Rule R75: where VALIDATE_FRAME_LEN holds, an End with `int.offset ≠ int.npix` raises F_INT_SHORT_FRAME and changes
nothing but the error register. That is INT_APPLY(End). In END played, the count that DEC_ADVANCE made of the End it
yielded (rule R113) stays, since rule R130 rolls back the operation that faults: that two-operation reading is the
model's choice, log entry 18. -/
def Obligations.ShortFrameEndFaults : Prop :=
  ∀ (s : State) (k : Nat) (b : Interp), s.ints[k]? = some b → b.err = none → s.validateFrameLen = true →
    b.offset ≠ b.npix →
    runOp (.intApply k .endFrame) s = .next { s with
      ints := s.ints.set k { b with err := some .fIntShortFrame }, result := .fault .fIntShortFrame } ∧
    (s.curBuf = k → exec .endFrame s = .next { s with
      decs := s.decs.modify s.cur fun d => { d with fp := d.fp + 1 }
      ints := s.ints.set k { b with err := some .fIntShortFrame }
      result := .fault .fIntShortFrame })

/-- The sticky error of INT (rules R73, R131) in a command played: every command raises the same code again and changes
nothing of INT. An End that DEC_ADVANCE yielded stays counted in `dec.fp` (rules R113, R130), which is the model's
choice of log entry 18. -/
def Obligations.FaultedInterpreterRaisesTheSameCodeAgain : Prop :=
  ∀ (i : Instr) (s : State) (b : Interp) (c : FaultCode), s.ints[s.curBuf]? = some b → b.err = some c →
    exec i s = .next { s with
      decs := s.decs.modify s.cur fun d => { d with fp := d.fp + if i = .endFrame then 1 else 0 }
      result := .fault c }

/-- Raster order (rules R13, R44, R76): the raster indices name every pixel of a frame once, and a Draw continues across
row boundaries: the pixel of column `x` and row `y` is painted when `y * W + x` is one of the next `count` indices. -/
def Obligations.DrawFollowsRasterOrderAcrossRows : Prop :=
  (∀ W H x y x' y' : Nat, x < W → x' < W → y < H →
    rasterIndex W x y < W * H ∧ (rasterIndex W x y = rasterIndex W x' y' → x = x' ∧ y = y')) ∧
  (∀ W H p : Nat, p < W * H → ∃ x y, x < W ∧ y < H ∧ rasterIndex W x y = p) ∧
  (∀ (b b' : Interp) (n : Nat) (i : Intensity) (x y : Nat), b.draw n i = .ok b' →
    b'.pixelAt x y =
      if b.offset ≤ y * b.W.toNat + x ∧ y * b.W.toNat + x < b.offset + n then some i else b.pixelAt x y)

/-- INT_RESET (rule R72) never faults: the buffer has the dimensions given, no element has a value, and the offset, the
frame count and the error are as at reset. (The FRAME_OUT events already made stay: log entry 10. A buffer that does
not exist yet is added after those that do: log entry 5.) -/
def Obligations.IntResetPreparesAnEmptyBuffer : Prop :=
  ∀ (s : State) (rest : List Op) (k : Nat) (W H : BitVec 16), s.script = .intReset k W H :: rest →
    ∃ (t : State) (j : Nat) (b : Interp), step s = .next t ∧ t.result = .buffer j ∧ t.ints[j]? = some b ∧
      b.W = W ∧ b.H = H ∧ b.npix = W.toNat * H.toNat ∧ (∀ p, b.buf.read p = none) ∧ b.offset = 0 ∧ b.frames = 0 ∧
      b.err = none ∧ (k < s.ints.length → j = k) ∧ (s.ints.length ≤ k → j = s.ints.length) ∧
      (∀ l, l ≠ j → t.ints[l]? = s.ints[l]?) ∧ t.enc = s.enc ∧ t.decs = s.decs

/-- Rule R79: the commands of a frame, encoded against the frame a buffer shows (or against nothing, for a buffer with no
element outside its frame), turn the buffer into one that shows the new frame, and record it. -/
def Obligations.FrameCommandsRedrawTheFrame : Prop :=
  ∀ (validate : Bool) (b : Interp) (prev : Option (List Intensity)) (cur : List Intensity),
    b.err = none → b.offset = 0 → b.npix = cur.length → b.buf.within b.npix = true →
    (∀ old, prev = some old → old.length = cur.length ∧ Shows b.buf old) →
    ∃ m : Memory, Shows m cur ∧
      Interp.applyAll validate b (frameCommands prev cur) = .ok { b with
        buf := m, frames := b.frames + 1, out := b.out ++ [⟨b.frames, b.npix, m⟩] }

/-- "`decode(encode(frames))` reproduces each frame's pixel intensities exactly as the quantized (2-bit) version of the
input", and the tail frame is frame 0 again (rules R79, R108 item 6): the commands of an encoded sequence, applied to
a fresh buffer of its dimensions, record one frame event for each of the N + 1 frames, each showing its levels. -/
def Obligations.PlaybackShowsTheQuantizedFrames : Prop :=
  ∀ (validate : Bool) (W H : BitVec 16) (F : List RawFrame), F ≠ [] →
    (∀ f ∈ F, f.wf = true ∧ f.w = W.toNat ∧ f.h = H.toNat) →
    ∃ b : Interp, Interp.applyAll validate (Interp.reset W H []) (streamCommands F) = .ok b ∧
      b.err = none ∧ b.frames = F.length + 1 ∧ b.out.length = F.length + 1 ∧
      ∀ (k : Nat) (f : RawFrame), (withTail F)[k]? = some f →
        ∃ e : FrameOut, b.out[k]? = some e ∧ e.k = k ∧ Shows e.cells f.levels

/-! ### The machine's step: 20_memory.md, 70_reset_and_hazards.md -/

/-- A STEP RUNS THE DECODED COMMAND (rules R111 to R113, R147 step 4): where no operation waits and the bytes at the
cursor decode to `i`, the step is exec of `i` after the cursor has moved past the word. -/
def Obligations.StepRunsTheDecodedCommand : Prop :=
  ∀ (s : State) (d : Dec) (i : Instr) (rest : Bytes), s.script = [] → s.decs[s.cur]? = some d → d.err = none →
    decode (d.P.drop d.cursor) = .ok (i, rest) →
    step s = exec i { s with decs := s.decs.set s.cur { d with cursor := d.cursor + 2, win := [] } }

/-- A play iteration is `c <- DEC_ADVANCE(); INT_APPLY(c)` (rule R147 step 4), restart and loop-skip included; where
DEC_ADVANCE hands back a fault in place of a command (rule R130), the step ends there, with no INT_APPLY. -/
def Obligations.PlayIsAdvanceThenApply : Prop :=
  ∀ s t : State, s.script = [] → runOp (.decAdvance s.cur) s = .next t →
    (∀ c : Instr, t.result = .command c → step s = runOp (.intApply s.curBuf c) t) ∧
    (∀ c : FaultCode, t.result = .fault c → step s = .next t)

/-- Before the first reset operations (rule R143): ENC is in phase IDLE, there is no DEC instance and no pixel buffer,
and a play iteration is refused. -/
def Obligations.ResetHasNoInstances : Prop :=
  State.reset.enc.phase = .idle ∧ State.reset.decs = [] ∧ State.reset.ints = [] ∧
    State.reset.validateFrameLen = true ∧ step State.reset = .refused .noDecoder

/-- Rule R143: DEC_ADVANCE on an instance that was never constructed and INT_APPLY before INT_RESET are refused, as is
a play iteration that would need either; and an ENC operation other than ENC_BEGIN in phase IDLE raises E_SEQUENCE. -/
def Obligations.UseBeforeConstructionIsRefused : Prop :=
  ∀ (s : State) (rest : List Op),
    (∀ k, s.decs.length ≤ k → s.script = .decAdvance k :: rest → step s = .refused .noDecoder) ∧
    (∀ k c, s.ints.length ≤ k → s.script = .intApply k c :: rest → step s = .refused .noInterpreter) ∧
    (s.decs.length ≤ s.cur → s.script = [] → step s = .refused .noDecoder) ∧
    (∀ i, s.ints.length ≤ s.curBuf → exec i s = .refused .noInterpreter) ∧
    (∀ op, op = .encFinish ∨ op = .encFrameEnd ∨ (∃ x, op = .encPixel x) ∨ (∃ w h, op = .encFrameBegin w h) →
      s.script = op :: rest → s.enc.phase = .idle → s.enc.err = none →
      step s = .next { s with
        script := rest, enc := { s.enc with err := some .eSequence }, result := .fault .eSequence })

/-- The invariant of the machine holds right after reset. With no DEC instance and no pixel buffer there (rule R143), what
it says is of ENC's registers, whose values before the first ENC_BEGIN are the model's choice, log entry 6. -/
def Obligations.ResetMeetsTheInvariant : Prop := State.reset.Inv

/-- EVERY STEP KEEPS THE INVARIANT: from every state that meets it, a step that answers a next state gives one that
meets it. Among what it says: the cursor stays even and within the stream (rule R20), the offset stays within the
buffer and no index outside it is written (rules R38, R44), the run count fits its field and the emission state is
SKIP with intensity 0 while no run is open (rule R28, 93_implementation_defined.md I20), the length of
`enc.O` stays even (rule R99), each error register holds only codes of its unit (rules R23, R35, R40), F_NO_END is
never raised, F_EMPTY_STREAM only when L = 0 and F_ODD_TAIL only when L is odd (rule R123). -/
def Obligations.StepKeepsTheInvariant : Prop :=
  ∀ s t : State, s.Inv → step s = .next t → t.Inv

/-- From every state that meets the invariant, no step makes a read that has no value: an unwritten element of
`enc.prev` is never read (rule R29), and the cursor is never past the stream (rule R20). -/
def Obligations.GoodStatesStepSafely : Prop := ∀ s : State, s.Inv → StepSafe s

/-! ### Faults: 60_exceptions.md -/

/-- Rule R130: a fault is precise. An operation that hands a fault to its driver has written its unit's error register
and nothing else; the three forms are the three units. (That taking a fault is a next state is log entry 17; that the
formatter's unit is ENC, rules R83, R84 and R128.) -/
def Obligations.FaultsArePrecise : Prop :=
  ∀ (op : Op) (s t : State) (c : FaultCode), runOp op s = .next t → t.result = .fault c →
    (faultsInEnc op = true ∧ t = { s with enc := { s.enc with err := some c }, result := .fault c }) ∨
    (∃ k d, op = .decAdvance k ∧ s.decs[k]? = some d ∧
      t = { s with decs := s.decs.set k { d with err := some c }, result := .fault c }) ∨
    (∃ k i b, op = .intApply k i ∧ s.ints[k]? = some b ∧
      t = { s with ints := s.ints.set k { b with err := some c }, result := .fault c })

/-- Rule R131: once a unit's error register holds a code, every later operation on the unit except its reset raises it
again and changes nothing. (That FMT_SKIP and FMT_DRAW look at `enc.err` too is read from rules R131 and R133: log entry
9.) -/
def Obligations.FaultedUnitRaisesTheSameCodeAgain : Prop :=
  ∀ (s : State) (c : FaultCode),
    (s.enc.err = some c → ∀ op : Op, looksAtEncErr op = true → runOp op s = .next { s with result := .fault c }) ∧
    (∀ (k : Nat) (d : Dec), s.decs[k]? = some d → d.err = some c →
      runOp (.decAdvance k) s = .next { s with result := .fault c }) ∧
    (∀ (k : Nat) (b : Interp) (i : Instr), s.ints[k]? = some b → b.err = some c →
      runOp (.intApply k i) s = .next { s with result := .fault c })

/-- A fault never clears itself (rules R23, R35, R40, R131): over any step, an error register that holds a code keeps
it, but for ENC's at ENC_BEGIN and a pixel buffer's at its own INT_RESET. -/
def Obligations.OnlyResetOperationsClearAFault : Prop :=
  ∀ (s t : State) (c : FaultCode), step s = .next t →
    (s.enc.err = some c → (∀ W H fps rest, s.script ≠ .encBegin W H fps :: rest) → t.enc.err = some c) ∧
    (∀ (k : Nat) (d : Dec), s.decs[k]? = some d → d.err = some c → ∃ d', t.decs[k]? = some d' ∧ d'.err = some c) ∧
    (∀ (k : Nat) (b : Interp), s.ints[k]? = some b → b.err = some c →
      (∀ W H rest, s.script ≠ .intReset k W H :: rest) → ∃ b', t.ints[k]? = some b' ∧ b'.err = some c)

/-- Units share no mutable state (rule R54): DEC_ADVANCE on one instance leaves ENC, every pixel buffer and every other
instance as they are. It leaves the model's own fields too: the waiting operations (log entry 1), what is played (log
entry 5) and the parameter of rule R6 (log entry 7). -/
def Obligations.AdvanceTouchesOnlyItsInstance : Prop :=
  ∀ (s t : State) (k : Nat), runOp (.decAdvance k) s = .next t →
    t.enc = s.enc ∧ t.ints = s.ints ∧ t.decs.length = s.decs.length ∧ (∀ j, j ≠ k → t.decs[j]? = s.decs[j]?) ∧
      t.script = s.script ∧ t.cur = s.cur ∧ t.curBuf = s.curBuf ∧ t.validateFrameLen = s.validateFrameLen

/-! ### The decoder: 44_decoder.md -/

/-- DEC_CONSTRUCT (rules R109, R110): the step adds a fresh instance beside the others and leaves them (that it stands
after them, and that its position is the result, is the model's choice, log entry 5); whatever the filter
is, a fresh instance carries its arguments, stands at the start of the stream the filter makes of the blob, and has no
fault, or, where the filter rejects the blob, has an empty stream and F_FILTER in its error register, which the first
DEC_ADVANCE raises. -/
def Obligations.ConstructMakesAFreshInstance : Prop :=
  (∀ (s : State) (rest : List Op) (blob : Bytes) (W H : BitVec 16) (fc : Nat) (fps : Fps),
    s.script = .decConstruct blob W H fc fps :: rest →
    step s = .next { s with
      script := rest
      decs := s.decs ++ [Dec.construct Config.filter blob W H fc fps]
      result := .decoder s.decs.length }) ∧
  (∀ (flt : Filter) (blob : Bytes) (W H : BitVec 16) (fc : Nat) (fps : Fps) (d : Dec),
    d = Dec.construct flt blob W H fc fps →
    d.blob = blob ∧ d.W = W ∧ d.H = H ∧ d.frameCount = fc ∧ d.fps = fps ∧ d.cursor = 0 ∧ d.pass = 0 ∧ d.fp = 0 ∧
      d.win = [] ∧ d.scratch = .initial ∧
      (∀ P, flt.decompress blob = some P → d.P = P ∧ d.L = P.length ∧ d.err = none) ∧
      (flt.decompress blob = none →
        d.P = [] ∧ d.L = 0 ∧ d.err = some .fFilter ∧ d.advance = .error (.raised .fFilter)))

/-- READING (rules R111 to R113): where a word is left, DEC_ADVANCE yields its command, moves the cursor by 2, and
counts an End; nothing else of the instance changes. -/
def Obligations.AdvanceReadsTheNextWord : Prop :=
  ∀ (d : Dec) (b0 b1 : Byte), d.err = none → d.P[d.cursor]? = some b0 → d.P[d.cursor + 1]? = some b1 →
    d.advance = .ok (parse (parseBytes b0 b1), { d with
      cursor := d.cursor + 2
      win := []
      fp := d.fp + if parse (parseBytes b0 b1) = .endFrame then 1 else 0 })

/-- EXHAUSTED without a loop-skip (rules R114 to R118): with at most one End seen in the pass, the next command is the
first of the stream, in a new pass. -/
def Obligations.ShortPassRestartsAtFrameZero : Prop :=
  ∀ (d : Dec) (b0 b1 : Byte) (rest : Bytes), d.err = none → d.cursor = d.L → d.fp ≤ 1 → d.P = b0 :: b1 :: rest →
    d.advance = .ok (parse (parseBytes b0 b1), { d with
      cursor := 2
      pass := d.pass + 1
      win := []
      fp := if parse (parseBytes b0 b1) = .endFrame then 1 else 0
      scratch := .initial })

/-- EXHAUSTED with the loop-skip (rules R114 to R118): with more than one End seen in the pass, every word up to and with
the first End of the stream is discarded, and the next command is the one after it. -/
def Obligations.LongPassRestartsAtFrameOne : Prop :=
  ∀ (d : Dec) (frame0 : List Word) (b0 b1 : Byte) (rest : Bytes), d.err = none → d.cursor = d.L → 1 < d.fp →
    (∀ w ∈ frame0, w ≠ 0) → d.P = frame0.flatMap serialize ++ serialize 0 ++ b0 :: b1 :: rest →
    d.advance = .ok (parse (parseBytes b0 b1), { d with
      cursor := 2 * frame0.length + 4
      pass := d.pass + 1
      win := []
      fp := if parse (parseBytes b0 b1) = .endFrame then 1 else 0
      scratch := .initial })

/-- The faults of DEC_ADVANCE at the end of a stream (rules R111, R118, R123): one stray byte raises F_ODD_TAIL, an
empty stream F_EMPTY_STREAM. -/
def Obligations.StrayByteAndEmptyStreamFault : Prop :=
  ∀ d : Dec, d.err = none →
    (d.cursor + 1 = d.L → d.advance = .error (.raised .fOddTail)) ∧
    (d.L = 0 → d.cursor = 0 → d.fp = 0 → d.advance = .error (.raised .fEmptyStream))

/-- Rule R122: a decoder whose stream has an even length of at least 2 never faults, however often it is advanced. -/
def Obligations.EvenStreamNeverFaults : Prop :=
  ∀ (flt : Filter) (blob P : Bytes) (W H : BitVec 16) (fc : Nat) (fps : Fps),
    flt.decompress blob = some P → P.length % 2 = 0 → 2 ≤ P.length →
    ∀ n, ∃ cs d, Dec.advances n (Dec.construct flt blob W H fc fps) = .ok (cs, d) ∧ cs.length = n ∧ d.err = none

/-- Rule R120, for any stream whose frames after frame 0 are two or more: the first pass plays the whole stream, and
every later pass plays it from the command after its first End. -/
def Obligations.LaterPassesLeaveOutFrameZero : Prop :=
  ∀ (d : Dec) (frame0 later : List Instr), (∀ c ∈ frame0 ++ later, c.wf = true) → .endFrame ∉ frame0 →
    2 ≤ later.count .endFrame → d.err = none → d.cursor = 0 → d.fp = 0 →
    d.P = encodeStream (frame0 ++ .endFrame :: later) →
    ∀ k, ∃ d', Dec.advances (frame0.length + 1 + later.length + k * later.length) d =
        .ok (frame0 ++ .endFrame :: later ++ (List.replicate k later).flatten, d') ∧
      d'.cursor = d'.L ∧ d'.pass = d.pass + k ∧
      d'.fp = later.count .endFrame + if k = 0 then 1 else 0

/-- Rule R121, for any stream of two frames: the passes alternate between the whole stream and the stream without
frame 0. -/
def Obligations.TwoFrameStreamAlternates : Prop :=
  ∀ (d : Dec) (frame0 later : List Instr), (∀ c ∈ frame0 ++ later, c.wf = true) → .endFrame ∉ frame0 →
    later.count .endFrame = 1 → d.err = none → d.cursor = 0 → d.fp = 0 →
    d.P = encodeStream (frame0 ++ .endFrame :: later) →
    ∀ k, ∃ d', Dec.advances (k * (frame0.length + 1 + later.length + later.length)) d =
        .ok ((List.replicate k (frame0 ++ .endFrame :: later ++ later)).flatten, d') ∧
      (0 < k → d'.cursor = d'.L ∧ d'.fp = 1 ∧ d'.pass + 1 = d.pass + 2 * k)

/-- The stream and the configuration of a DEC instance never change (rules R19, R24, R51, R58), whatever operation a step
runs, nor does the machine's parameter VALIDATE_FRAME_LEN (00_scope.md rule R6); that the parameter is a field which no
operation writes is the model's choice, log entry 7. -/
def Obligations.StreamAndConfigurationNeverChange : Prop :=
  ∀ s t : State, step s = .next t →
    t.validateFrameLen = s.validateFrameLen ∧
    ∀ (k : Nat) (d : Dec), s.decs[k]? = some d → ∃ d', t.decs[k]? = some d' ∧ d'.P = d.P ∧ d'.blob = d.blob ∧
      d'.W = d.W ∧ d'.H = d.H ∧ d'.frameCount = d.frameCount ∧ d'.fps = d.fps

/-! ### The encoder: 43_encoder.md -/

/-- ENC_BEGIN (rules R91, R133), in every phase and with any sticky error: E_ZERO_DIM before E_DIM_RANGE, each with
everything but the error register kept; else a new build from the reset values. -/
def Obligations.EncBeginStartsANewBuild : Prop :=
  ∀ (s : State) (rest : List Op) (W H : Nat) (fps : Fps), s.script = .encBegin W H fps :: rest →
    step s = .next
      (if W = 0 ∨ H = 0 then
        { s with script := rest, enc := { s.enc with err := some .eZeroDim }, result := .fault .eZeroDim }
       else if 65535 < W ∨ 65535 < H then
        { s with script := rest, enc := { s.enc with err := some .eDimRange }, result := .fault .eDimRange }
       else
        { s with
          script := rest
          enc := { W := BitVec.ofNat 16 W, H := BitVec.ofNat 16 H, fps := fps, kind := .skip, inten := 0, count := 0,
                   prev := [], hasPrev := false, pix := 0, phase := .between, frames := 0, O := [], err := none }
          result := .done })

/-- ENC_FRAME_BEGIN (rule R92), in phase BETWEEN with no error set; no run is open after it, so the emission state is
SKIP with intensity 0 (93_implementation_defined.md I20). -/
def Obligations.EncFrameBeginOpensTheNextFrame : Prop :=
  ∀ (s : State) (w h : Nat), s.enc.err = none → s.enc.phase = .between →
    runOp (.encFrameBegin w h) s = .next
      (if w = s.enc.W.toNat ∧ h = s.enc.H.toNat then
        { s with enc := { s.enc with pix := 0, kind := .skip, inten := 0, count := 0, phase := .inFrame }, result := .done }
       else { s with enc := { s.enc with err := some .eDimMismatch }, result := .fault .eDimMismatch })

/-- ENC_PIXEL (rules R93 to R97), in a frame that has a pixel left: the sample's level replaces the previous frame's at
this raster index and no other; the run goes on, or it is emitted and a new one begins. -/
def Obligations.EncPixelExtendsOrEmitsTheRun : Prop :=
  ∀ (s : State) (x : Byte), s.enc.err = none → s.enc.phase = .inFrame → s.enc.pix ≠ s.enc.npix →
    s.enc.count ≤ s.enc.kind.max →
    (s.enc.hasPrev = true → (s.enc.prev.read s.enc.pix).isSome = true) →
    ∃ e : Enc, runOp (.encPixel x) s = .next { s with enc := e, result := .done } ∧
      e = { s.enc with prev := e.prev, kind := e.kind, inten := e.inten, count := e.count, O := e.O,
                       pix := s.enc.pix + 1 } ∧
      (∀ p, e.prev.read p = if p = s.enc.pix then some (quant x) else s.enc.prev.read p) ∧
      e.key = (if s.enc.hasPrev = true ∧ s.enc.prev.read s.enc.pix = some (quant x) then .skip else .draw (quant x)) ∧
      (if 0 < s.enc.count ∧ e.key = s.enc.key ∧ s.enc.count < e.key.kind.max then
        e.count = s.enc.count + 1 ∧ e.O = s.enc.O
       else
        e.count = 1 ∧
          e.O = s.enc.O ++ if 0 < s.enc.count then encodeBytes (s.enc.key.command s.enc.count) else [])

/-- ENC_FRAME_END (rule R101), in a frame that is whole: the open run and an End are emitted; no run is open after it, so
the emission state is SKIP with intensity 0 (93_implementation_defined.md I20). -/
def Obligations.EncFrameEndEmitsTheRunAndAnEnd : Prop :=
  ∀ s : State, s.enc.err = none → s.enc.phase = .inFrame → s.enc.pix = s.enc.npix →
    s.enc.count ≤ s.enc.kind.max →
    runOp .encFrameEnd s = .next { s with
      enc := { s.enc with
        O := s.enc.O ++ (if 0 < s.enc.count then encodeBytes (s.enc.key.command s.enc.count) else []) ++ [0, 0]
        kind := .skip
        inten := 0
        count := 0
        hasPrev := true
        frames := s.enc.frames + 1
        phase := .between }
      result := .done }

/-- More or fewer than NPIX samples (rules R93, R101, R128) raise E_PIXEL_COUNT: one sample too many, or a frame ended
short; nothing else changes. -/
def Obligations.WrongSampleCountFaults : Prop :=
  ∀ s : State, s.enc.err = none → s.enc.phase = .inFrame →
    (s.enc.pix = s.enc.npix → ∀ x, runOp (.encPixel x) s =
      .next { s with enc := { s.enc with err := some .ePixelCount }, result := .fault .ePixelCount }) ∧
    (s.enc.pix ≠ s.enc.npix → runOp .encFrameEnd s =
      .next { s with enc := { s.enc with err := some .ePixelCount }, result := .fault .ePixelCount })

/-- Rule R90's table: with no error set, an operation issued in a phase that does not accept it raises E_SEQUENCE. -/
def Obligations.OutOfPhaseOperationFaults : Prop :=
  ∀ (s : State) (op : Op), s.enc.err = none →
    ((op = .encFinish ∨ ∃ w h, op = .encFrameBegin w h) ∧ s.enc.phase ≠ .between ∨
      (op = .encFrameEnd ∨ ∃ x, op = .encPixel x) ∧ s.enc.phase ≠ .inFrame) →
    runOp op s = .next { s with enc := { s.enc with err := some .eSequence }, result := .fault .eSequence }

/-- ENC_FINISH (rule R103): the filtered stream with its metadata, or E_NO_FRAMES with fewer than two frames. -/
def Obligations.EncFinishReturnsTheAsset : Prop :=
  ∀ s : State, s.enc.err = none → s.enc.phase = .between →
    runOp .encFinish s = .next
      (if s.enc.frames < 2 then { s with enc := { s.enc with err := some .eNoFrames }, result := .fault .eNoFrames }
       else
        { s with
          enc := { s.enc with phase := .done }
          result := .asset (Config.filter.compress s.enc.O) s.enc.W s.enc.H (s.enc.frames - 1) s.enc.fps })

/-- `enc.O` is append-only (rules R34, R99): over any step but ENC_BEGIN it keeps what it has. -/
def Obligations.EncoderOutputIsAppendOnly : Prop :=
  ∀ s t : State, step s = .next t → (∀ W H fps rest, s.script ≠ .encBegin W H fps :: rest) →
    ∃ more : Bytes, t.enc.O = s.enc.O ++ more

/-- Long runs are split (rules R71, R100): a maximal run of `n` pixels of one key, among the pixels of a frame, is emitted
as full commands and one remainder, whose counts sum to `n`, between what the pixels before it and after it give. -/
def Obligations.LongRunsAreSplit : Prop :=
  ∀ (key : RunKey) (n : Nat), 1 ≤ n →
    (∀ before after : List RunKey, before.getLast? ≠ some key → after.head? ≠ some key →
      emitRuns .skip 0 (before ++ List.replicate n key ++ after) =
          emitRuns .skip 0 before ++ key.expand n ++ emitRuns .skip 0 after ∧
      ∀ (prev : Option (List Intensity)) (cur : List Intensity),
        frameKeys prev cur = before ++ List.replicate n key ++ after →
        frameCommands prev cur =
          emitRuns .skip 0 before ++ key.expand n ++ emitRuns .skip 0 after ++ [.endFrame]) ∧
    pixelsOfAll (key.expand n) = n ∧
    ∀ c ∈ key.expand n, c.wf = true ∧ 1 ≤ pixelsOf c ∧ pixelsOf c ≤ key.kind.max

/-- What every encoded frame is (rule R108 items 1 to 4): Draws and Skips of nonzero count within their fields, then one
End; the counts sum to the frame's pixels; with no previous frame there is no Skip. -/
def Obligations.EncodedFrameIsWellFormed : Prop :=
  ∀ (prev : Option (List Intensity)) (cur : List Intensity), (∀ old, prev = some old → old.length = cur.length) →
    ∃ body : List Instr, frameCommands prev cur = body ++ [.endFrame] ∧ pixelsOfAll body = cur.length ∧
      ∀ c ∈ body, (∃ n : BitVec 15, c = .skip n ∧ 1 ≤ n.toNat ∧ prev ≠ none) ∨
        (∃ (n : BitVec 13) (i : Intensity), c = .draw n i ∧ 1 ≤ n.toNat)

/-- What every encoded stream is (rule R108 item 5): N + 1 Ends, the last word an End, an even length of at least 4. -/
def Obligations.EncodedStreamEndsEveryFrame : Prop :=
  ∀ F : List RawFrame, F ≠ [] →
    (streamCommands F).count .endFrame = F.length + 1 ∧ (streamCommands F).getLast? = some .endFrame ∧
    (physicalStream F).length = 2 * (streamCommands F).length ∧ 4 ≤ (physicalStream F).length

/-- Rule R106: the operations a host issues for a whole build of frames of the declared dimensions run without a fault,
and end with ENCODE's stream in `enc.O` and ENCODE's asset as the result. -/
def Obligations.StreamingBuildGivesEncodesAsset : Prop :=
  ∀ (s : State) (W H : Nat) (fps : Fps) (F : List RawFrame), F ≠ [] →
    (∀ f ∈ F, f.wf = true ∧ f.w = W ∧ f.h = H) → 1 ≤ W → W ≤ 65535 → 1 ≤ H → H ≤ 65535 →
    s.script = buildOps W H fps F →
    ∃ t : State, Host.Core.run core (buildOps W H fps F).length s = .next t ∧ t.script = [] ∧
      t.enc.O = physicalStream F ∧ t.enc.err = none ∧ t.enc.phase = .done ∧
      encodeAsset Config.filter W H fps F = .ok t.result

/-- Rule R106, the other half: where ENCODE fails with a code, the same build ends with that code in `enc.err` and as
its result, and there is no asset (rule R104). -/
def Obligations.StreamingBuildFailsWithEncodesCode : Prop :=
  ∀ (s : State) (W H : Nat) (fps : Fps) (F : List RawFrame) (c : FaultCode), (∀ f ∈ F, f.wf = true) →
    encodeAsset Config.filter W H fps F = .error c → s.script = buildOps W H fps F →
    ∃ t : State, Host.Core.run core (buildOps W H fps F).length s = .next t ∧ t.enc.err = some c ∧
      t.result = .fault c

/-! ### Driver operations as steps, and an asset played -/

/-- The oldest operation the drivers have issued is the step (rules R50, R53), and it is taken off the waiting ones. With
this, what a statement says of `runOp` is said of the machine. (Where the waiting operations stand is the model's
choice, log entry 1.) -/
def Obligations.IssuedOperationIsTheStep : Prop :=
  ∀ (s : State) (op : Op) (rest : List Op), s.script = op :: rest → step s = runOp op { s with script := rest }

/-- DEC_ADVANCE as an operation of the machine (rules R112, R130): what it yields is its result and the instance is
replaced by the advanced one; what it raises goes to the instance's error register, with everything else rolled
back. With this, the statements about `Dec.advance` (reading, restart, loop-skip, faults) are said of the machine. An
advance that halts, which is a read past the stream that has no value, ends in the model's own fault (log entry 12);
an instance as its rules keep it never does. -/
def Obligations.AdvanceReplacesItsInstance : Prop :=
  ∀ (s : State) (k : Nat) (d : Dec), s.decs[k]? = some d →
    (∀ (c : Instr) (d' : Dec), d.advance = .ok (c, d') →
      runOp (.decAdvance k) s = .next { s with decs := s.decs.set k d', result := .command c }) ∧
    (∀ c : FaultCode, d.advance = .error (.raised c) →
      runOp (.decAdvance k) s = .next { s with
        decs := s.decs.set k { d with err := some c }, result := .fault c }) ∧
    (∀ f : Fault, d.advance = .error (.halted f) → runOp (.decAdvance k) s = .fault f) ∧
    (d.Ok → ∃ t : State, runOp (.decAdvance k) s = .next t)

/-- Rule R108 item 7: two adjacent commands of one key within a frame occur only where the first has the maximum
count. -/
def Obligations.OnlyAFullCommandIsRepeated : Prop :=
  ∀ (prev : Option (List Intensity)) (cur : List Intensity) (before after : List Instr) (c c' : Instr),
    frameCommands prev cur = before ++ c :: c' :: after →
    (∀ n n' : BitVec 15, c = .skip n → c' = .skip n' → n.toNat = 32767) ∧
    (∀ (n n' : BitVec 13) (i : Intensity), c = .draw n i → c' = .draw n' i → n.toNat = 8191)

/-- The step that carries rule R122: a DEC instance as its rules keep it, with no error and a stream of even length of at
least 2, is advanced to such an instance of the same stream, and a command is yielded. -/
def Obligations.GoodEvenDecoderAdvances : Prop :=
  ∀ d : Dec, d.Ok → d.err = none → d.L % 2 = 0 → 2 ≤ d.L →
    ∃ (c : Instr) (d' : Dec), d.advance = .ok (c, d') ∧ c.wf = true ∧ d'.Ok ∧ d'.err = none ∧ d'.P = d.P

/-- Playing an asset (rules R79, R108 item 6, R120, R147 steps 2 to 4): the machine plays a fresh DEC instance over
ENCODE's blob into a fresh buffer. In as many steps as the stream has commands, the commands DEC yields from the
physical stream record N + 1 frame events, each showing its frame's quantized levels, the tail frame 0's. -/
def Obligations.PlayedAssetShowsTheQuantizedFrames : Prop :=
  ∀ (s : State) (W H : BitVec 16) (fc : Nat) (fps : Fps) (blob : Bytes) (F : List RawFrame), (∀ f ∈ F, f.wf = true) →
    encodeAsset Config.filter W.toNat H.toNat fps F = .ok (.asset blob W H fc fps) →
    s.script = [] → s.decs[s.cur]? = some (Dec.construct Config.filter blob W H fc fps) →
    s.ints[s.curBuf]? = some (Interp.reset W H []) →
    ∃ (t : State) (d : Dec) (b : Interp), Host.Core.run core (streamCommands F).length s = .next t ∧
      t.decs[s.cur]? = some d ∧ d.cursor = d.L ∧ d.fp = F.length + 1 ∧ d.err = none ∧
      t.ints[s.curBuf]? = some b ∧ b.err = none ∧ b.frames = F.length + 1 ∧ b.out.length = F.length + 1 ∧
      ∀ (k : Nat) (f : RawFrame), (withTail F)[k]? = some f →
        ∃ e : FrameOut, b.out[k]? = some e ∧ e.k = k ∧ Shows e.cells f.levels

/-- The endless loop (rules R120, R121, R122): the same machine, played for any number of steps, never faults (neither the
DEC instance nor the interpreter has an error), goes on recording frames (at least one in as many steps as the stream
has commands), and the frames it shows are 0, 1, ..., N-1, the tail (which is frame 0), 1, ..., N-1, the tail, and so
on. -/
def Obligations.PlayedAssetLoopsSeamlessly : Prop :=
  ∀ (s : State) (W H : BitVec 16) (fc : Nat) (fps : Fps) (blob : Bytes) (F : List RawFrame), (∀ f ∈ F, f.wf = true) →
    encodeAsset Config.filter W.toNat H.toNat fps F = .ok (.asset blob W H fc fps) →
    s.script = [] → s.decs[s.cur]? = some (Dec.construct Config.filter blob W H fc fps) →
    s.ints[s.curBuf]? = some (Interp.reset W H []) →
    ∀ n : Nat, ∃ (t : State) (d : Dec) (b : Interp), Host.Core.run core n s = .next t ∧
      t.decs[s.cur]? = some d ∧ d.err = none ∧ t.ints[s.curBuf]? = some b ∧ b.err = none ∧
      b.out.length = b.frames ∧ (∀ m : Nat, m * (streamCommands F).length ≤ n → m ≤ b.frames) ∧
      ∀ (k : Nat) (e : FrameOut), b.out[k]? = some e →
        e.k = k ∧ ∃ f : RawFrame, F[k % F.length]? = some f ∧ Shows e.cells f.levels

/-- The operations that read and write no register of a unit answer their value and change nothing else: QUANT (rule
R80), FMT_END, FMT_SERIALIZE, PARSE_BYTES and PARSE (rules R85 to R88), whatever state any unit is in. The driver's
choice of what it plays, an operation of the model's own (log entry 5), changes that choice only. (That the value
stands in `result` is log entry 11.) -/
def Obligations.PureOperationsWriteOnlyTheResult : Prop :=
  ∀ s : State,
    (∀ x : Byte, runOp (.quant x) s = .next { s with result := .level (BitVec.ofNat 2 (x.toNat / 64)) }) ∧
    runOp .fmtEnd s = .next { s with result := .word 0x0000 } ∧
    (∀ w : Word, runOp (.fmtSerialize w) s =
      .next { s with result := .bytes [BitVec.ofNat 8 (w.toNat % 256), BitVec.ofNat 8 (w.toNat / 256)] }) ∧
    (∀ b0 b1 : Byte, runOp (.parseBytes b0 b1) s =
      .next { s with result := .word (BitVec.ofNat 16 (b0.toNat + 256 * b1.toNat)) }) ∧
    (∀ w : Word, runOp (.parse w) s = .next { s with result := .command (parse w) }) ∧
    (∀ d b : Nat, runOp (.drive d b) s = .next { s with cur := d, curBuf := b, result := .done })
end

