-- ==== Sys2Proof/Laws/Memory.lean ====
section
/-!
SUPPORT. Laws/Memory.lean: reading after writing, and the canonical form, for every operation of a pixel array.
-/

namespace Sys2Proof.Machine

@[simp] theorem Memory.read_nil (p : Nat) : Memory.read [] p = none := rfl

@[simp] theorem Memory.wf_nil : Memory.wf [] = true := rfl

@[simp] theorem Memory.within_nil (n : Nat) : Memory.within n [] = true := rfl

/-- The canonical form, one cell at a time: every later index lies above the first. -/
theorem Memory.wf_cons {a : Nat} {v : Intensity} {m : Memory} :
    Memory.wf ((a, v) :: m) = true ↔ (∀ cell ∈ m, a < cell.1) ∧ m.wf = true := by
  induction m generalizing a v with
  | nil => simp [Memory.wf]
  | cons cell rest ih =>
    obtain ⟨b, u⟩ := cell
    constructor
    · intro h
      simp only [Memory.wf, Bool.and_eq_true, decide_eq_true_eq] at h
      refine ⟨?_, h.2⟩
      intro cell hc
      rcases List.mem_cons.mp hc with rfl | hc
      · exact h.1
      · exact Nat.lt_trans h.1 ((ih.mp h.2).1 cell hc)
    · intro h
      simp only [Memory.wf, Bool.and_eq_true, decide_eq_true_eq]
      exact ⟨h.1 (b, u) (by simp), h.2⟩

/-- An index below every listed index has no value. -/
theorem Memory.read_below {m : Memory} {p : Nat} (h : ∀ cell ∈ m, p < cell.1) : m.read p = none := by
  induction m with
  | nil => rfl
  | cons cell rest ih =>
    obtain ⟨a, v⟩ := cell
    have h1 : p < a := h (a, v) (by simp)
    simp only [Memory.read, Nat.ne_of_lt h1, if_false]
    exact ih fun cell hc => h cell (by simp [hc])

/-- A read after a write to the same element gives the value written. -/
@[simp] theorem Memory.read_write_same (m : Memory) (p : Nat) (v : Intensity) : (m.write p v).read p = some v := by
  induction m with
  | nil => simp [Memory.write, Memory.read]
  | cons cell rest ih =>
    obtain ⟨a, u⟩ := cell
    simp only [Memory.write]
    split
    · simp [Memory.read]
    · split
      · next h => simp [Memory.read, h]
      · next h => simp [Memory.read, h, ih]

/-- A write leaves every other element alone. -/
theorem Memory.read_write_other {m : Memory} {p q : Nat} (v : Intensity) (h : q ≠ p) :
    (m.write p v).read q = m.read q := by
  induction m with
  | nil => simp [Memory.write, Memory.read, h]
  | cons cell rest ih =>
    obtain ⟨a, u⟩ := cell
    simp only [Memory.write]
    split
    · simp [Memory.read, h]
    · split
      · next ha =>
        subst ha
        simp [Memory.read, h]
      · simp only [Memory.read, ih]

/-- The indices listed after a write are the old ones and the written one. -/
theorem Memory.mem_write {m : Memory} {p : Nat} {v : Intensity} {cell : Nat × Intensity}
    (h : cell ∈ m.write p v) : cell.1 = p ∨ cell ∈ m := by
  induction m with
  | nil =>
    simp only [Memory.write, List.mem_singleton] at h
    simp [h]
  | cons c rest ih =>
    obtain ⟨a, u⟩ := c
    simp only [Memory.write] at h
    split at h
    · rcases List.mem_cons.mp h with rfl | h
      · simp
      · exact .inr h
    · split at h
      · next ha =>
        rcases List.mem_cons.mp h with rfl | h
        · exact .inl ha.symm
        · exact .inr (by simp [h])
      · rcases List.mem_cons.mp h with rfl | h
        · exact .inr (by simp)
        · rcases ih h with h | h
          · exact .inl h
          · exact .inr (by simp [h])

/-- A write keeps the canonical form. -/
theorem Memory.write_wf {m : Memory} (p : Nat) (v : Intensity) (h : m.wf = true) : (m.write p v).wf = true := by
  induction m with
  | nil => rfl
  | cons cell rest ih =>
    obtain ⟨a, u⟩ := cell
    have hc := Memory.wf_cons.mp h
    simp only [Memory.write]
    split
    · next hp =>
      refine Memory.wf_cons.mpr ⟨?_, h⟩
      intro cell hcell
      rcases List.mem_cons.mp hcell with rfl | hcell
      · exact hp
      · exact Nat.lt_trans hp (hc.1 cell hcell)
    · split
      · exact Memory.wf_cons.mpr ⟨hc.1, hc.2⟩
      · next hp hne =>
        refine Memory.wf_cons.mpr ⟨?_, ih hc.2⟩
        intro cell hcell
        rcases Memory.mem_write hcell with he | he
        · omega
        · exact hc.1 cell he

/-- A write inside the array keeps the array's bounds. -/
theorem Memory.write_within {m : Memory} {n p : Nat} (v : Intensity) (h : m.within n = true) (hp : p < n) :
    (m.write p v).within n = true := by
  simp only [Memory.within, List.all_eq_true, decide_eq_true_eq] at h ⊢
  intro cell hcell
  rcases Memory.mem_write hcell with he | he
  · omega
  · exact h cell he

/-- A fill keeps the canonical form. -/
theorem Memory.fill_wf (n : Nat) {m : Memory} (p : Nat) (v : Intensity) (h : m.wf = true) :
    (m.fill p n v).wf = true := by
  induction n generalizing m p with
  | zero => exact h
  | succ n ih => exact ih (p + 1) (Memory.write_wf p v h)

/-- A fill inside the array keeps the array's bounds. -/
theorem Memory.fill_within (n : Nat) {m : Memory} {p size : Nat} (v : Intensity) (h : m.within size = true)
    (hp : p + n ≤ size) : (m.fill p n v).within size = true := by
  induction n generalizing m p with
  | zero => exact h
  | succ n ih => exact ih (Memory.write_within v h (by omega)) (by omega)

/-- What a fill writes and what it leaves alone: everything there is to know of one. -/
theorem Memory.read_fill (n : Nat) (m : Memory) (p q : Nat) (v : Intensity) :
    (m.fill p n v).read q = if p ≤ q ∧ q < p + n then some v else m.read q := by
  induction n generalizing m p with
  | zero =>
    have h : ¬ (p ≤ q ∧ q < p + 0) := by omega
    simp only [Memory.fill, h, if_false]
  | succ n ih =>
    simp only [Memory.fill, ih]
    by_cases h1 : p + 1 ≤ q ∧ q < p + 1 + n
    · have h2 : p ≤ q ∧ q < p + (n + 1) := by omega
      simp [h1, h2]
    · by_cases h3 : q = p
      · subst h3
        simp
      · have h2 : ¬ (p ≤ q ∧ q < p + (n + 1)) := by omega
        rw [if_neg h1, if_neg h2, Memory.read_write_other v h3]

/-- An element outside the bounds has no value. -/
theorem Memory.read_outside {m : Memory} {n p : Nat} (h : m.within n = true) (hp : n ≤ p) : m.read p = none := by
  induction m with
  | nil => rfl
  | cons cell rest ih =>
    obtain ⟨a, v⟩ := cell
    simp only [Memory.within, List.all_cons, Bool.and_eq_true, decide_eq_true_eq] at h
    have hne : p ≠ a := by omega
    simp only [Memory.read, hne, if_false]
    exact ih h.2

/-- Canonical arrays with the same elements are the same data. -/
theorem Memory.ext_of_wf {m m' : Memory} (h : m.wf = true) (h' : m'.wf = true) (hr : ∀ p, m.read p = m'.read p) :
    m = m' := by
  induction m generalizing m' with
  | nil =>
    cases m' with
    | nil => rfl
    | cons cell rest =>
      obtain ⟨a, v⟩ := cell
      have := hr a
      simp [Memory.read] at this
  | cons cell rest ih =>
    obtain ⟨a, v⟩ := cell
    have hc := Memory.wf_cons.mp h
    cases m' with
    | nil =>
      have := hr a
      simp [Memory.read] at this
    | cons cell' rest' =>
      obtain ⟨b, u⟩ := cell'
      have hc' := Memory.wf_cons.mp h'
      have hab : a = b := by
        rcases Nat.lt_trichotomy a b with hlt | heq | hgt
        · have h1 : Memory.read ((b, u) :: rest') a = none := Memory.read_below (by
            intro cell hcell
            rcases List.mem_cons.mp hcell with rfl | hcell
            · exact hlt
            · exact Nat.lt_trans hlt (hc'.1 cell hcell))
          have h2 := hr a
          rw [h1] at h2
          simp [Memory.read] at h2
        · exact heq
        · have h1 : Memory.read ((a, v) :: rest) b = none := Memory.read_below (by
            intro cell hcell
            rcases List.mem_cons.mp hcell with rfl | hcell
            · exact hgt
            · exact Nat.lt_trans hgt (hc.1 cell hcell))
          have h2 := hr b
          rw [h1] at h2
          simp [Memory.read] at h2
      subst hab
      have hv : v = u := by
        have := hr a
        simpa [Memory.read] using this
      subst hv
      congr 1
      refine ih hc.2 hc'.2 fun p => ?_
      by_cases hp : p = a
      · subst hp
        rw [Memory.read_below hc.1, Memory.read_below hc'.1]
      · have := hr p
        simpa [Memory.read, hp] using this

end Sys2Proof.Machine
end

