-- ==== Sys2Proof/Laws/State.lean ====
section
/-!
SUPPORT. Laws/State.lean: one lemma per field per update of the machine's state.
-/

namespace Sys2Proof.Machine

section putEnc
variable (s : State) (e : Enc)
@[simp] theorem State.putEnc_script : (s.putEnc e).script = s.script := rfl
@[simp] theorem State.putEnc_enc : (s.putEnc e).enc = e := rfl
@[simp] theorem State.putEnc_decs : (s.putEnc e).decs = s.decs := rfl
@[simp] theorem State.putEnc_ints : (s.putEnc e).ints = s.ints := rfl
@[simp] theorem State.putEnc_cur : (s.putEnc e).cur = s.cur := rfl
@[simp] theorem State.putEnc_curBuf : (s.putEnc e).curBuf = s.curBuf := rfl
@[simp] theorem State.putEnc_validate : (s.putEnc e).validateFrameLen = s.validateFrameLen := rfl
@[simp] theorem State.putEnc_result : (s.putEnc e).result = s.result := rfl
end putEnc

section putDec
variable (s : State) (k : Nat) (d : Dec)
@[simp] theorem State.putDec_script : (s.putDec k d).script = s.script := rfl
@[simp] theorem State.putDec_enc : (s.putDec k d).enc = s.enc := rfl
@[simp] theorem State.putDec_decs : (s.putDec k d).decs = s.decs.set k d := rfl
@[simp] theorem State.putDec_ints : (s.putDec k d).ints = s.ints := rfl
@[simp] theorem State.putDec_cur : (s.putDec k d).cur = s.cur := rfl
@[simp] theorem State.putDec_curBuf : (s.putDec k d).curBuf = s.curBuf := rfl
@[simp] theorem State.putDec_validate : (s.putDec k d).validateFrameLen = s.validateFrameLen := rfl
@[simp] theorem State.putDec_result : (s.putDec k d).result = s.result := rfl
end putDec

section putInt
variable (s : State) (k : Nat) (b : Interp)
@[simp] theorem State.putInt_script : (s.putInt k b).script = s.script := rfl
@[simp] theorem State.putInt_enc : (s.putInt k b).enc = s.enc := rfl
@[simp] theorem State.putInt_decs : (s.putInt k b).decs = s.decs := rfl
@[simp] theorem State.putInt_ints : (s.putInt k b).ints = s.ints.set k b := rfl
@[simp] theorem State.putInt_cur : (s.putInt k b).cur = s.cur := rfl
@[simp] theorem State.putInt_curBuf : (s.putInt k b).curBuf = s.curBuf := rfl
@[simp] theorem State.putInt_validate : (s.putInt k b).validateFrameLen = s.validateFrameLen := rfl
@[simp] theorem State.putInt_result : (s.putInt k b).result = s.result := rfl
end putInt

section answer
variable (s : State) (r : Result)
@[simp] theorem State.answer_script : (s.answer r).script = s.script := rfl
@[simp] theorem State.answer_enc : (s.answer r).enc = s.enc := rfl
@[simp] theorem State.answer_decs : (s.answer r).decs = s.decs := rfl
@[simp] theorem State.answer_ints : (s.answer r).ints = s.ints := rfl
@[simp] theorem State.answer_cur : (s.answer r).cur = s.cur := rfl
@[simp] theorem State.answer_curBuf : (s.answer r).curBuf = s.curBuf := rfl
@[simp] theorem State.answer_validate : (s.answer r).validateFrameLen = s.validateFrameLen := rfl
@[simp] theorem State.answer_result : (s.answer r).result = r := rfl
end answer

section takeOp
variable (s : State) (rest : List Op)
@[simp] theorem State.takeOp_script : (s.takeOp rest).script = rest := rfl
@[simp] theorem State.takeOp_enc : (s.takeOp rest).enc = s.enc := rfl
@[simp] theorem State.takeOp_decs : (s.takeOp rest).decs = s.decs := rfl
@[simp] theorem State.takeOp_ints : (s.takeOp rest).ints = s.ints := rfl
@[simp] theorem State.takeOp_cur : (s.takeOp rest).cur = s.cur := rfl
@[simp] theorem State.takeOp_curBuf : (s.takeOp rest).curBuf = s.curBuf := rfl
@[simp] theorem State.takeOp_validate : (s.takeOp rest).validateFrameLen = s.validateFrameLen := rfl
@[simp] theorem State.takeOp_result : (s.takeOp rest).result = s.result := rfl
end takeOp

section withErr
variable (e : Enc) (d : Dec) (b : Interp) (c : FaultCode)
@[simp] theorem Enc.withErr_err : (e.withErr c).err = some c := rfl
@[simp] theorem Enc.withErr_key : (e.withErr c).key = e.key := rfl
@[simp] theorem Enc.withErr_npix : (e.withErr c).npix = e.npix := rfl
@[simp] theorem Enc.withErr_prev : (e.withErr c).prev = e.prev := rfl
@[simp] theorem Enc.withErr_O : (e.withErr c).O = e.O := rfl
@[simp] theorem Enc.withErr_pix : (e.withErr c).pix = e.pix := rfl
@[simp] theorem Enc.withErr_phase : (e.withErr c).phase = e.phase := rfl
@[simp] theorem Enc.withErr_frames : (e.withErr c).frames = e.frames := rfl
@[simp] theorem Dec.withErr_err : (d.withErr c).err = some c := rfl
@[simp] theorem Dec.withErr_P : (d.withErr c).P = d.P := rfl
@[simp] theorem Dec.withErr_cursor : (d.withErr c).cursor = d.cursor := rfl
@[simp] theorem Dec.withErr_pass : (d.withErr c).pass = d.pass := rfl
@[simp] theorem Dec.withErr_fp : (d.withErr c).fp = d.fp := rfl
@[simp] theorem Interp.withErr_err : (b.withErr c).err = some c := rfl
@[simp] theorem Interp.withErr_buf : (b.withErr c).buf = b.buf := rfl
@[simp] theorem Interp.withErr_offset : (b.withErr c).offset = b.offset := rfl
@[simp] theorem Interp.withErr_frames : (b.withErr c).frames = b.frames := rfl
@[simp] theorem Interp.withErr_npix : (b.withErr c).npix = b.npix := rfl
@[simp] theorem Interp.withErr_out : (b.withErr c).out = b.out := rfl
end withErr

section recordFault
variable (s : State) (u : UnitId) (c : FaultCode)
@[simp] theorem State.recordFault_script : (s.recordFault u c).script = s.script := by
  unfold State.recordFault; split <;> first | rfl | (split <;> rfl)
@[simp] theorem State.recordFault_cur : (s.recordFault u c).cur = s.cur := by
  unfold State.recordFault; split <;> first | rfl | (split <;> rfl)
@[simp] theorem State.recordFault_curBuf : (s.recordFault u c).curBuf = s.curBuf := by
  unfold State.recordFault; split <;> first | rfl | (split <;> rfl)
@[simp] theorem State.recordFault_validate : (s.recordFault u c).validateFrameLen = s.validateFrameLen := by
  unfold State.recordFault; split <;> first | rfl | (split <;> rfl)
@[simp] theorem State.recordFault_result : (s.recordFault u c).result = s.result := by
  unfold State.recordFault; split <;> first | rfl | (split <;> rfl)
@[simp] theorem State.recordFault_enc : (s.recordFault .enc c).enc = s.enc.withErr c := rfl
@[simp] theorem State.recordFault_enc_decs : (s.recordFault .enc c).decs = s.decs := rfl
@[simp] theorem State.recordFault_enc_ints : (s.recordFault .enc c).ints = s.ints := rfl
@[simp] theorem State.recordFault_dec_enc (d : Nat) : (s.recordFault (.dec d) c).enc = s.enc := by
  simp only [State.recordFault]; split <;> rfl
@[simp] theorem State.recordFault_dec_ints (d : Nat) : (s.recordFault (.dec d) c).ints = s.ints := by
  simp only [State.recordFault]; split <;> rfl
@[simp] theorem State.recordFault_int_enc (b : Nat) : (s.recordFault (.int b) c).enc = s.enc := by
  simp only [State.recordFault]; split <;> rfl
@[simp] theorem State.recordFault_int_decs (b : Nat) : (s.recordFault (.int b) c).decs = s.decs := by
  simp only [State.recordFault]; split <;> rfl
theorem State.recordFault_dec_decs {d : Nat} {x : Dec} (h : s.decs[d]? = some x) :
    (s.recordFault (.dec d) c).decs = s.decs.set d (x.withErr c) := by
  simp [State.recordFault, h]
theorem State.recordFault_int_ints {b : Nat} {x : Interp} (h : s.ints[b]? = some x) :
    (s.recordFault (.int b) c).ints = s.ints.set b (x.withErr c) := by
  simp [State.recordFault, h]
end recordFault

end Sys2Proof.Machine
end

