-- ==== Sys2Proof/Laws/Ops.lean ====
section
/-!
SUPPORT. Laws/Ops.lean: for each shared operation of Machine/Ops.lean and Machine/Interpreter.lean, one lemma that
says everything it can do.
-/

namespace Sys2Proof.Machine

/-- The sticky check: a body that answers ran with no error set. -/
theorem sticky_eq_ok {α : Type} {err : Option FaultCode} {body : Except Stop α} {x : α} :
    sticky err body = .ok x ↔ err = none ∧ body = .ok x := by
  cases err <;> simp [sticky]

/-- The sticky check: what is raised is the sticky code, or what the body raised with no error set. -/
theorem sticky_eq_error {α : Type} {err : Option FaultCode} {body : Except Stop α} {x : Stop} :
    sticky err body = .error x ↔ (∃ c, err = some c ∧ x = .raised c) ∨ (err = none ∧ body = .error x) := by
  cases err with
  | none => simp [sticky]
  | some c => simp [sticky, eq_comm]

@[simp] theorem sticky_none {α : Type} (body : Except Stop α) : sticky none body = body := rfl

@[simp] theorem sticky_some {α : Type} (c : FaultCode) (body : Except Stop α) :
    sticky (some c) body = .error (.raised c) := rfl

/-- How an operation can end in a next state: with its own, or with a fault taken. -/
theorem State.finish_eq_next {s t : State} {u : UnitId} {r : Except Stop State} :
    s.finish u r = .next t ↔ r = .ok t ∨ ∃ c, r = .error (.raised c) ∧ t = s.takeFault u c := by
  rcases r with x | x
  · cases x <;> simp [State.finish, eq_comm]
  · simp [State.finish]

/-- An operation faults only where it made a read that has no value. -/
theorem State.finish_eq_fault {s : State} {u : UnitId} {r : Except Stop State} {f : Fault} :
    s.finish u r = .fault f ↔ r = .error (.halted f) := by
  rcases r with x | x
  · cases x <;> simp [State.finish]
  · simp [State.finish]

/-- Ending an operation is never a refusal. -/
theorem State.finish_ne_refused (s : State) (u : UnitId) (r : Except Stop State) (q : Refusal) :
    s.finish u r ≠ .refused q := by
  rcases r with x | x
  · cases x <;> simp [State.finish]
  · simp [State.finish]

@[simp] theorem State.finish_ok (s t : State) (u : UnitId) : s.finish u (.ok t) = .next t := rfl

@[simp] theorem State.finish_raised (s : State) (u : UnitId) (c : FaultCode) :
    s.finish u (.error (.raised c)) = .next (s.takeFault u c) := rfl

@[simp] theorem State.finish_halted (s : State) (u : UnitId) (f : Fault) :
    s.finish u (.error (.halted f)) = .fault f := rfl

/-- Taking a fault of ENC, whole. -/
theorem State.takeFault_enc (s : State) (c : FaultCode) :
    s.takeFault .enc c = (s.putEnc (s.enc.withErr c)).answer (.fault c) := rfl

/-- Taking a fault of a DEC instance, whole. -/
theorem State.takeFault_dec {s : State} {d : Nat} {x : Dec} (h : s.decs[d]? = some x) (c : FaultCode) :
    s.takeFault (.dec d) c = (s.putDec d (x.withErr c)).answer (.fault c) := by
  simp [State.takeFault, State.recordFault, h]

/-- Taking a fault of an interpreter, whole. -/
theorem State.takeFault_int {s : State} {b : Nat} {x : Interp} (h : s.ints[b]? = some x) (c : FaultCode) :
    s.takeFault (.int b) c = (s.putInt b (x.withErr c)).answer (.fault c) := by
  simp [State.takeFault, State.recordFault, h]

/-- An operation of an interpreter that answers a next state: the buffer exists, and either the operation ran with no
error set, or the sticky or the new fault was taken. -/
theorem State.onInt_eq_next {s t : State} {b : Nat} {f : Interp → Except Stop Interp} :
    s.onInt b f = .next t ↔
      ∃ x, s.ints[b]? = some x ∧
        ((x.err = none ∧ ∃ x', f x = .ok x' ∧ t = (s.putInt b x').answer .done) ∨
          ∃ c, (x.err = some c ∨ (x.err = none ∧ f x = .error (.raised c))) ∧ t = s.takeFault (.int b) c) := by
  unfold State.onInt
  cases hx : s.ints[b]? with
  | none => simp
  | some x =>
    simp only [Option.some.injEq, exists_eq_left']
    cases he : x.err with
    | some c =>
      simp only [sticky_some, Except.map, State.finish_raised, Host.Outcome.next.injEq]
      constructor
      · rintro rfl
        exact .inr ⟨c, .inl rfl, rfl⟩
      · rintro (⟨h, -⟩ | ⟨c', h | ⟨h, -⟩, rfl⟩)
        · simp at h
        · simp only [Option.some.injEq] at h
          rw [h]
        · simp at h
    | none =>
      simp only [sticky_none]
      cases hf : f x with
      | ok x' =>
        simp only [Except.map, State.finish_ok, Host.Outcome.next.injEq]
        constructor
        · rintro rfl
          exact .inl ⟨trivial, x', rfl, rfl⟩
        · rintro (⟨-, y, h, rfl⟩ | ⟨c, h | ⟨-, h⟩, -⟩)
          · simp only [Except.ok.injEq] at h
            rw [h]
          · simp at h
          · simp at h
      | error y =>
        cases y with
        | raised c =>
          simp only [Except.map, State.finish_raised, Host.Outcome.next.injEq]
          constructor
          · rintro rfl
            exact .inr ⟨c, .inr ⟨trivial, rfl⟩, rfl⟩
          · rintro (⟨-, y, h, -⟩ | ⟨c', h | ⟨-, h⟩, rfl⟩)
            · simp at h
            · simp at h
            · simp only [Except.error.injEq, Stop.raised.injEq] at h
              rw [h]
        | halted g =>
          simp [Except.map, State.finish]

end Sys2Proof.Machine
end

