-- ==== Sys2Proof/Laws/Units.lean ====
section
/-!
SUPPORT. Laws/Units.lean: one inversion lemma per operation of the units: if it answers, then this is what it did.
-/

namespace Sys2Proof.Machine

/-- A whole word at an even place of a list of bytes: both bytes are there. -/
theorem bytes_at {P : Bytes} {k : Nat} (h : k + 1 < P.length) :
    P[k]? = some P[k] ∧ P[k + 1]? = some P[k + 1] :=
  ⟨List.getElem?_eq_getElem (by omega), List.getElem?_eq_getElem h⟩

/-- READ_WORD, whole: EOF at L; F_ODD_TAIL at one stray byte; a word where two bytes are left; no value above L. -/
theorem Dec.readWord_cases (d : Dec) :
    (d.cursor = d.L ∧ d.readWord = .ok none) ∨
    (d.cursor + 1 = d.L ∧ d.readWord = .error (.raised .fOddTail)) ∨
    (∃ h : d.cursor + 1 < d.P.length, d.readWord =
      .ok (some (parseBytes d.P[d.cursor] d.P[d.cursor + 1], { d with cursor := d.cursor + 2, win := [] }))) ∨
    (d.L < d.cursor ∧ d.readWord = .error (.halted .streamBounds)) := by
  unfold Dec.readWord Dec.exhausted Dec.L
  by_cases h1 : d.cursor = d.P.length
  · exact .inl ⟨h1, by simp [h1]⟩
  · by_cases h2 : d.cursor + 1 = d.P.length
    · exact .inr (.inl ⟨h2, by simp [h1, h2]⟩)
    · by_cases h3 : d.cursor + 1 < d.P.length
      · refine .inr (.inr (.inl ⟨h3, ?_⟩))
        obtain ⟨e0, e1⟩ := bytes_at h3
        rw [if_neg (by simpa using h1), if_neg h2, e0, e1]
      · refine .inr (.inr (.inr ⟨by omega, ?_⟩))
        have e0 : d.P[d.cursor]? = none := List.getElem?_eq_none (by omega)
        rw [if_neg (by simpa using h1), if_neg h2, e0]

/-- READ_WORD at a place where a word is left. -/
theorem Dec.readWord_word {d : Dec} (h : d.cursor + 1 < d.P.length) : d.readWord =
    .ok (some (parseBytes d.P[d.cursor] d.P[d.cursor + 1], { d with cursor := d.cursor + 2, win := [] })) := by
  rcases d.readWord_cases with ⟨h1, -⟩ | ⟨h1, -⟩ | ⟨_, e⟩ | ⟨h1, -⟩
  · simp only [Dec.L] at h1; omega
  · simp only [Dec.L] at h1; omega
  · exact e
  · simp only [Dec.L] at h1; omega

/-- The DEC effect of yielding a command changes `dec.fp` at most. -/
theorem Dec.yield_eq (d : Dec) (c : Instr) : d.yield c = { d with fp := d.fp + if endSeen c then 1 else 0 } := by
  unfold Dec.yield
  split <;> rfl

@[simp] theorem Dec.yield_skip (d : Dec) (n : BitVec 15) : d.yield (.skip n) = d := rfl

@[simp] theorem Dec.yield_draw (d : Dec) (n : BitVec 13) (i : Intensity) : d.yield (.draw n i) = d := rfl

@[simp] theorem Dec.yield_end (d : Dec) : d.yield .endFrame = { d with fp := d.fp + 1 } := rfl

/-- FMT_SKIP answers exactly the counts of a Skip. -/
theorem fmtSkip_eq_ok {c : Nat} {w : Word} :
    fmtSkip c = .ok w ↔ 0 < c ∧ c ≤ Config.skipMax ∧ w = encode (.skip (BitVec.ofNat 15 c)) := by
  unfold fmtSkip
  split
  · simp; omega
  · split
    · simp; omega
    · next h0 h1 =>
      simp only [Except.ok.injEq]
      constructor
      · rintro rfl
        exact ⟨by omega, by omega, rfl⟩
      · rintro ⟨-, -, rfl⟩
        rfl

/-- FMT_DRAW answers exactly the counts of a Draw the encoder can emit. -/
theorem fmtDraw_eq_ok {c : Nat} {i : Intensity} {w : Word} :
    fmtDraw c i = .ok w ↔ 0 < c ∧ c ≤ Config.drawMax ∧ w = encode (.draw (BitVec.ofNat 13 c) i) := by
  unfold fmtDraw
  split
  · simp; omega
  · split
    · simp; omega
    · next h0 h1 =>
      simp only [Except.ok.injEq]
      constructor
      · rintro rfl
        exact ⟨by omega, by omega, rfl⟩
      · rintro ⟨-, -, rfl⟩
        rfl

/-- An ENC operation that answers ran with no error set, in the phase that accepts it. -/
theorem Enc.inPhase_eq_ok {α : Type} {e : Enc} {ph : Phase} {body : Except Stop α} {x : α} :
    e.inPhase ph body = .ok x ↔ e.err = none ∧ e.phase = ph ∧ body = .ok x := by
  unfold Enc.inPhase
  rw [sticky_eq_ok]
  split <;> simp_all

/-- FLUSH answers the encoder with two bytes more and nothing else changed. -/
theorem Enc.flushOpen_eq_ok {e e' : Enc} (h : e.flushOpen = .ok e') :
    (e.count = 0 ∧ e' = e) ∨ (0 < e.count ∧ ∃ w, e' = e.emit w) := by
  unfold Enc.flushOpen at h
  split at h
  · next hc =>
    refine .inr ⟨hc, ?_⟩
    unfold Enc.flush at h
    split at h
    · exact ⟨_, by simpa using h.symm⟩
    · simp at h
  · next hc => exact .inl ⟨by omega, by simpa using h.symm⟩

/-- An encoder whose open run fits its field never has a fault from FLUSH. -/
theorem Enc.flushOpen_ok {e : Enc} (h : e.count ≤ e.kind.max) : ∃ e', e.flushOpen = .ok e' := by
  unfold Enc.flushOpen
  split
  · next hc =>
    unfold Enc.flush
    cases hk : e.kind with
    | skip =>
      rw [hk] at h
      have : fmtSkip e.count = .ok (encode (.skip (BitVec.ofNat 15 e.count))) := fmtSkip_eq_ok.mpr ⟨hc, h, rfl⟩
      simp [this]
    | draw =>
      rw [hk] at h
      have : fmtDraw e.count e.inten = .ok (encode (.draw (BitVec.ofNat 13 e.count) e.inten)) :=
        fmtDraw_eq_ok.mpr ⟨hc, h, rfl⟩
      simp [this]
  · exact ⟨e, rfl⟩

/-- The bounds check of a Draw that answers held, and this is what it wrote. -/
theorem Interp.draw_eq_ok {b b' : Interp} {n : Nat} {i : Intensity} :
    b.draw n i = .ok b' ↔
      b.offset + n ≤ b.npix ∧ b' = { b with buf := b.buf.fill b.offset n i, offset := b.offset + n } := by
  unfold Interp.draw Interp.fits
  by_cases h : b.offset + n ≤ b.npix
  · simp only [h, decide_true, if_true, Except.ok.injEq, true_and]
    exact eq_comm
  · simp only [h, decide_false, Bool.false_eq_true, if_false, false_and, reduceCtorEq]

/-- The bounds check of a Skip that answers held, and it moved the offset only. -/
theorem Interp.skip_eq_ok {b b' : Interp} {n : Nat} :
    b.skip n = .ok b' ↔ b.offset + n ≤ b.npix ∧ b' = { b with offset := b.offset + n } := by
  unfold Interp.skip Interp.fits
  by_cases h : b.offset + n ≤ b.npix
  · simp only [h, decide_true, if_true, Except.ok.injEq, true_and]
    exact eq_comm
  · simp only [h, decide_false, Bool.false_eq_true, if_false, false_and, reduceCtorEq]

/-- The frame-length check of an End that answers passed, and this is what it recorded. -/
theorem Interp.endFrame_eq_ok {b b' : Interp} {validate : Bool} :
    b.endFrame validate = .ok b' ↔
      (validate = true → b.offset = b.npix) ∧
        b' = { b with out := b.out ++ [b.frameOut], frames := b.frames + 1, offset := 0 } := by
  have hiff : b.frameWhole validate = true ↔ (validate = true → b.offset = b.npix) := by
    cases validate <;> simp [Interp.frameWhole]
  unfold Interp.endFrame
  split
  · next h =>
    rw [Except.ok.injEq]
    constructor
    · rintro rfl
      exact ⟨hiff.mp h, rfl⟩
    · rintro ⟨-, rfl⟩
      rfl
  · next h =>
    constructor
    · intro h'
      cases h'
    · rintro ⟨h', -⟩
      exact absurd (hiff.mpr h') h

/-- Yielding a Draw or a Skip writes no register (40_commands.md rules R76, R77). -/
theorem State.yieldCommand_of_ne_end (s : State) {c : Instr} (hc : c ≠ .endFrame) : s.yieldCommand c = s := by
  unfold State.yieldCommand
  split
  next d hd =>
    have hy : d.yield c = d := by simp [Dec.yield, endSeen, hc]
    obtain ⟨hlt, rfl⟩ := List.getElem?_eq_some_iff.mp hd
    rw [hy, State.putDec, List.set_getElem_self]
  next => rfl

/-- Yielding an End counts it in the played instance, where there is one (44_decoder.md rule R113; log entry 18). -/
theorem State.yieldCommand_end (s : State) :
    s.yieldCommand .endFrame = { s with decs := s.decs.modify s.cur fun d => { d with fp := d.fp + 1 } } := by
  unfold State.yieldCommand
  split
  next d hd =>
    obtain ⟨hlt, rfl⟩ := List.getElem?_eq_some_iff.mp hd
    rw [Dec.yield_end, State.putDec]
    congr 1
    rw [List.modify_eq_set_getElem?, hd]
    rfl
  next hd => rw [List.modify_eq_self (List.getElem?_eq_none_iff.mp hd)]

end Sys2Proof.Machine
end

