-- ==== Sys2Proof/Laws/Decoder.lean ====
section
/-!
SUPPORT. Laws/Decoder.lean: counting the Ends of a stream, and everything LOOP_SKIP can do.
-/

namespace Sys2Proof.Machine

/-- A lossless filter gives the bytes back (00_scope.md rule R6). -/
@[simp] theorem Filter_decompress_compress (F : Filter) (b : Bytes) : F.decompress (F.compress b) = some b := by
  cases F with
  | identity => rfl
  | pair c d h => exact h b

/-- The instance that Fetch.lean places for a stream is the one DEC_CONSTRUCT makes of its blob. -/
theorem Dec.ofStream_eq_construct (bytes : Bytes) (W H : BitVec 16) :
    Dec.ofStream bytes W H = Dec.construct Config.filter (Config.filter.compress bytes) W H 1 ⟨0⟩ := by
  simp [Dec.ofStream, Dec.construct]

/-- Two bytes more of a stream are its next word more. -/
theorem take_add_word {P : Bytes} {k : Nat} (h : k + 1 < P.length) :
    P.take (k + 2) = P.take k ++ [P[k], P[k + 1]] := by
  apply List.ext_getElem?
  intro j
  simp only [List.getElem?_take, List.getElem?_append, List.length_take]
  by_cases h1 : j < k
  · simp [h1, show j < k + 2 by omega, show k ≤ P.length by omega]
  · by_cases h2 : j = k
    · subst h2
      simp [show j ≤ P.length by omega, List.getElem?_eq_getElem (show j < P.length by omega)]
    · by_cases h3 : j = k + 1
      · subst h3
        simp [show k ≤ P.length by omega, List.getElem?_eq_getElem h]
      · rw [if_neg (by omega), if_neg (by omega), List.getElem?_eq_none]
        simp
        omega

/-- The Ends of whole words and of what follows them add up. -/
theorem endsIn_append {A : Bytes} (B : Bytes) (h : A.length % 2 = 0) : endsIn (A ++ B) = endsIn A + endsIn B := by
  induction A using endsIn.induct with
  | case1 b0 b1 rest ih =>
    simp only [List.cons_append, endsIn]
    rw [ih (by simp at h; omega)]
    omega
  | case2 A hA =>
    match A, hA with
    | [], _ => simp [endsIn]
    | [a], _ => simp at h
    | a :: b :: c, hA => exact absurd rfl (hA a b c)

/-- LOOP_SKIP from an even cursor within the stream, with as many rounds as there are bytes left and one more: it stops
after the first End that is left, or, where none is, at the stray byte or at the end of the stream. The rounds do not
run out. -/
theorem Dec.loopSkip_cases (fuel : Nat) (d : Dec) (hE : d.cursor % 2 = 0) (hI : d.cursor ≤ d.L)
    (hF : d.L - d.cursor < fuel) :
    (∃ k, d.cursor < k ∧ k ≤ d.L ∧ k % 2 = 0 ∧ endsIn (d.P.drop d.cursor) = 1 + endsIn (d.P.drop k) ∧
      Dec.loopSkip fuel d = .ok { d with cursor := k, win := [] }) ∨
    (endsIn (d.P.drop d.cursor) = 0 ∧ d.L % 2 = 1 ∧ Dec.loopSkip fuel d = .error (.raised .fOddTail)) ∨
    (endsIn (d.P.drop d.cursor) = 0 ∧ d.L % 2 = 0 ∧ Dec.loopSkip fuel d = .error (.raised .fNoEnd)) := by
  induction fuel generalizing d with
  | zero => omega
  | succ n ih =>
    unfold Dec.loopSkip
    rcases d.readWord_cases with ⟨h1, e⟩ | ⟨h1, e⟩ | ⟨h1, e⟩ | ⟨h1, e⟩
    · refine .inr (.inr ⟨?_, by omega, by rw [e]⟩)
      simp only [Dec.L] at h1
      rw [h1, List.drop_length]
      rfl
    · refine .inr (.inl ⟨?_, by omega, by rw [e]⟩)
      simp only [Dec.L] at h1
      have hlen : (d.P.drop d.cursor).length = 1 := by
        simp
        omega
      match hh : d.P.drop d.cursor, hlen with
      | [a], _ => rfl
    · rw [e]
      have hd : d.P.drop d.cursor = d.P[d.cursor] :: d.P[d.cursor + 1] :: d.P.drop (d.cursor + 2) := by
        rw [List.drop_eq_getElem_cons (by omega), List.drop_eq_getElem_cons h1]
      simp only []
      split
      · next he =>
        refine .inl ⟨d.cursor + 2, by omega, by simp only [Dec.L]; omega, by omega, ?_, rfl⟩
        rw [hd]
        simp [endsIn, he]
      · next he =>
        have hskip : endsIn (d.P.drop d.cursor) = endsIn (d.P.drop (d.cursor + 2)) := by
          rw [hd]
          simp [endsIn, he]
        rw [hskip]
        have hrec := ih { d with cursor := d.cursor + 2, win := [] } (by simp only []; omega)
          (by simp only [Dec.L]; omega) (by simp only [Dec.L] at *; omega)
        rcases hrec with ⟨k, k1, k2, k3, k4, k5⟩ | h | h
        · exact .inl ⟨k, by simp only [] at k1; omega, k2, k3, k4, k5⟩
        · exact .inr (.inl h)
        · exact .inr (.inr h)
    · simp only [Dec.L] at *
      omega

/-- A fresh instance is as its rules keep it (44_decoder.md rules R109, R110). -/
theorem Dec.ok_construct (blob : Bytes) (W H : BitVec 16) (frameCount : Nat) (fps : Fps) :
    (Dec.construct Config.filter blob W H frameCount fps).Ok where
  aligned := rfl
  inStream := Nat.zero_le _
  windowEmpty := rfl
  source := rfl
  rejected h := by
    have hb : Config.filter.decompress blob = none := h
    simp [Dec.construct, hb]
  counted := Nat.zero_le _
  errCause c h := by
    cases hb : Config.filter.decompress blob with
    | none => simp [Dec.construct, hb] at h; exact .inl ⟨h.symm, hb⟩
    | some P => simp [Dec.construct, hb] at h

end Sys2Proof.Machine
end

