-- ==== Sys2Proof/Laws/Encoder.lean ====
section
/-!
SUPPORT. Laws/Encoder.lean: everything FLUSH, ACCUMULATE and CLASSIFY do, for an encoder whose open run fits its
field.
-/

namespace Sys2Proof.Machine

@[simp] theorem RunKey.skip_kind_max : RunKey.skip.kind.max = 32767 := rfl

@[simp] theorem RunKey.draw_kind_max (q : Intensity) : (RunKey.draw q).kind.max = 8191 := rfl

/-- The kind of the open run is the kind of its key. -/
@[simp] theorem Enc.key_kind (e : Enc) : e.key.kind = e.kind := by
  unfold Enc.key
  cases e.kind <;> rfl

/-- A run just opened has the key it was opened with, and one pixel. -/
@[simp] theorem Enc.openRun_key (e : Enc) (k : RunKey) : (e.openRun k).key = k := by
  cases k <;> rfl

@[simp] theorem Enc.openRun_count (e : Enc) (k : RunKey) : (e.openRun k).count = 1 := by
  cases k <;> rfl

@[simp] theorem Enc.closeRun_count (e : Enc) : e.closeRun.count = 0 := rfl

@[simp] theorem Enc.closeRun_kind (e : Enc) : e.closeRun.kind = .skip := rfl

@[simp] theorem Enc.closeRun_inten (e : Enc) : e.closeRun.inten = 0 := rfl

/-- Closing the run changes the emission state only, to the one of no open run. -/
theorem Enc.closeRun_eq (e : Enc) : e.closeRun = { e with kind := .skip, inten := 0, count := 0 } := rfl

/-- After a run is opened one is open. -/
theorem Enc.openRun_count_ne_zero (e : Enc) (k : RunKey) : (e.openRun k).count ≠ 0 := by
  cases k <;> simp [Enc.openRun]

/-- Opening a run changes the emission state only. -/
theorem Enc.openRun_eq (e : Enc) (k : RunKey) :
    e.openRun k = { e with kind := (e.openRun k).kind, inten := (e.openRun k).inten, count := 1 } := by
  cases k <;> rfl

/-- FLUSH of an open run that fits its field: the bytes of its command appended, nothing else. -/
theorem Enc.flushOpen_eq {e : Enc} (h : e.count ≤ e.kind.max) :
    e.flushOpen = .ok { e with
      O := e.O ++ if 0 < e.count then encodeBytes (e.key.command e.count) else [] } := by
  unfold Enc.flushOpen
  split
  · next hc =>
    unfold Enc.flush Enc.key
    cases hk : e.kind with
    | skip =>
      rw [hk] at h
      have hw : fmtSkip e.count = .ok (encode (.skip (BitVec.ofNat 15 e.count))) := fmtSkip_eq_ok.mpr ⟨hc, h, rfl⟩
      simp [hw, Enc.emit, encodeBytes, RunKey.command, hk]
    | draw =>
      rw [hk] at h
      have hw : fmtDraw e.count e.inten = .ok (encode (.draw (BitVec.ofNat 13 e.count) e.inten)) :=
        fmtDraw_eq_ok.mpr ⟨hc, h, rfl⟩
      simp [hw, Enc.emit, encodeBytes, RunKey.command, hk]
  · simp

/-- ACCUMULATE on an open run that fits its field: the run goes on, or it is emitted and a new one begins. -/
theorem Enc.accumulate_eq {e : Enc} (k : RunKey) (h : e.count ≤ e.kind.max) :
    e.accumulate k = .ok (if 0 < e.count ∧ k = e.key ∧ e.count < k.kind.max then { e with count := e.count + 1 }
      else Enc.openRun { e with
        O := e.O ++ if 0 < e.count then encodeBytes (e.key.command e.count) else [] } k) := by
  unfold Enc.accumulate
  split
  · rfl
  · rw [Enc.flushOpen_eq h]

/-- CLASSIFY where the element it reads has a value, or none is read. -/
theorem Enc.classify_eq {e : Enc} (q : Intensity) {p : Nat} (h : e.hasPrev = true → (e.prev.read p).isSome = true) :
    e.classify q p = .ok (if e.hasPrev = true ∧ e.prev.read p = some q then .skip else .draw q) := by
  unfold Enc.classify
  cases hp : e.hasPrev with
  | false => simp
  | true =>
    cases hr : e.prev.read p with
    | none => simp [hr] at h; exact absurd hp (by simp [h])
    | some old =>
      by_cases ho : q = old
      · simp [ho]
      · simp [ho, eq_comm]

/-- Pixels of the open run's key extend it while it fits its field (43_encoder.md rules R97, R105). -/
theorem emitRuns_extend (key : RunKey) (rest : List RunKey) (m c : Nat) (hc : 0 < c) (hm : c + m ≤ key.kind.max) :
    emitRuns key c (List.replicate m key ++ rest) = emitRuns key (c + m) rest := by
  induction m generalizing c with
  | zero => rfl
  | succ m ih =>
    have hlt : c < key.kind.max := by omega
    rw [List.replicate_succ, List.cons_append, emitRuns, if_pos ⟨hc, rfl, hlt⟩, ih (c + 1) (by omega) (by omega)]
    congr 1
    omega

end Sys2Proof.Machine
end

