-- ==== Sys2Proof/Laws/PerInstr.lean ====
section
/-!
SUPPORT. Laws/PerInstr.lean: what is said of every instruction as syntax, one lemma per constructor.
-/

namespace Sys2Proof.Laws

/-- Bit 0 of an instruction's word is the discriminator: 1 for Draw, 0 for Skip and End (30_encoding.md rule R60). -/
def Discriminator.Statement (i : Instr) : Prop :=
  isDrawWord (encode i) = (match i with | .draw _ _ => true | _ => false)

theorem Discriminator.endFrame : Discriminator.Statement .endFrame := by
  simp [Discriminator.Statement, isDrawWord, encode]

theorem Discriminator.skip (count : BitVec 15) : Discriminator.Statement (.skip count) := by
  simp only [Discriminator.Statement, isDrawWord, encode]
  rw [BitVec.getLsbD_append]
  rfl

theorem Discriminator.draw (count : BitVec 13) (intensity : Intensity) :
    Discriminator.Statement (.draw count intensity) := by
  simp only [Discriminator.Statement, isDrawWord, encode]
  rw [BitVec.getLsbD_append]
  rfl

end Sys2Proof.Laws
end

