-- ==== Sys2Proof/Tests/Slice0.lean ====
section
/-!
SUPPORT. Tests/Slice0.lean: small tests on fixed values from 95_test_vectors.md, and for every statement with
hypotheses a state and operands that meet them.
-/

namespace Sys2Proof.Tests

open Sys2Proof.Machine

/-! ### WellFormed: the term each check refuses -/

theorem test_wf_refuses_skip_zero : Instr.wf (.skip 0) = false := by decide

theorem test_wf_refuses_apply_of_skip_zero : Op.wf (.intApply 0 (.skip 0)) = false := by decide

theorem test_wf_accepts_draw_zero : Instr.wf (.draw 0 2) = true := by decide

/-! ### Decoding words written out from the layouts (30_encoding.md rules R61 to R63; L2-PARSE) -/

theorem test_decode_end : decodeTableWord 16 0b0000000000000000 = some .endFrame := by decide

theorem test_decode_skip_low : decodeTableWord 16 0b0000000000000010 = some (.skip 1) := by decide

theorem test_decode_skip_high : decodeTableWord 16 0b1000000000000000 = some (.skip 16384) := by decide

theorem test_decode_draw : decodeTableWord 16 0b0000000000100111 = some (.draw 4 3) := by decide

theorem test_decode_draw_high : decodeTableWord 16 0b1000000000000001 = some (.draw 4096 0) := by decide

theorem test_decode_draw_mixed : decodeTableWord 16 0xABCD = some (.draw 5497 2) := by decide

theorem test_decode_byte_order : (decode [0x00, 0x27]).toOption = some (.skip 4992, []) := by decide

theorem test_decode_no_bytes : (match decode [] with | .error .noBytes => true | _ => false) = true := by decide

theorem test_decode_stray_byte : (match decode [0x27] with | .error .oneByte => true | _ => false) = true := by decide

theorem test_encode_draw : encodeBytes (.draw 8191 3) = [0xFF, 0xFF] := by decide

theorem test_encode_skip : encodeBytes (.skip 16383) = [0xFE, 0x7F] := by decide

/-! ### Small states -/

/-- A fresh DEC instance over a stream. -/
def dec (P : Bytes) : Dec := Dec.ofStream P 2 2

/-- A pixel buffer of 2 × 2. -/
def buffer (offset : Nat) (buf : Memory) : Interp :=
  { Interp.reset 2 2 [] with buf := buf, offset := offset }

/-- A machine that plays a stream into a buffer. -/
def playing (d : Dec) (b : Interp) : State := { State.reset with decs := [d], ints := [b] }

/-- A machine with one operation waiting. -/
def issued (op : Op) : State := { State.reset with script := [op] }

/-- An encoder in a build of 2 × 2. -/
def enc : Enc := { Enc.reset with W := 2, H := 2, phase := .between }

/-- What the buffer played into holds after a step. -/
def after (o : Host.Outcome State Fault Refusal) (f : Interp → Bool) : Bool :=
  match o with
  | .next t => t.ints.all f
  | _ => false

/-- What DEC_ADVANCE yields, with cursor, fp and pass after it. -/
def yields (d : Dec) : Option (Instr × Nat × Nat × Nat) :=
  match d.advance with
  | .ok (c, d') => some (c, d'.cursor, d'.fp, d'.pass)
  | .error _ => none

/-- The code an operation raises. -/
def raises {α : Type} (r : Except Stop α) : Option FaultCode :=
  match r with
  | .error (.raised c) => some c
  | _ => none

/-- The encoder after an operation. -/
def encAfter (r : Except Stop Enc) (f : Enc → Bool) : Bool :=
  match r with
  | .ok e => f e
  | .error _ => false

/-! ### The commands (40_commands.md; L2-CMD) -/

theorem test_draw_fills : after (exec (.draw 4 3) (playing (dec []) (buffer 0 [])))
    (fun b => b.buf == [(0, 3), (1, 3), (2, 3), (3, 3)] && b.offset == 4) = true := by decide

theorem test_draw_bound : after (exec (.draw 5 1) (playing (dec []) (buffer 0 [])))
    (fun b => b.buf == [] && b.offset == 0 && b.err == some .fIntBounds) = true := by decide

theorem test_skip_keeps : after (exec (.skip 2) (playing (dec []) (buffer 0 [(0, 3), (1, 3)])))
    (fun b => b.buf == [(0, 3), (1, 3)] && b.offset == 2 && b.err == none) = true := by decide

theorem test_skip_bound : after (exec (.skip 3) (playing (dec []) (buffer 2 [])))
    (fun b => b.offset == 2 && b.err == some .fIntBounds) = true := by decide

theorem test_end_records : after (exec .endFrame (playing (dec []) (buffer 4 [(0, 3)])))
    (fun b => b.offset == 0 && b.frames == 1 && b.out == [⟨0, 4, [(0, 3)]⟩]) = true := by decide

/-- CMD-10 and CMD-11: a short frame, with the check and without it. -/
theorem test_end_short : after (exec .endFrame (playing (dec []) (buffer 2 [(0, 3)])))
      (fun b => b.offset == 2 && b.frames == 0 && b.out == [] && b.err == some .fIntShortFrame) = true ∧
    after (exec .endFrame { playing (dec []) (buffer 2 [(0, 3)]) with validateFrameLen := false })
      (fun b => b.frames == 1 && b.out == [⟨0, 4, [(0, 3)]⟩]) = true := by decide

/-- A word of each row runs as the first instruction after reset. -/
theorem test_first_instruction_of_each_row :
    after (step (State.reset.withFetchWord 16 0x0027)) (fun b => b.offset == 4 && b.err == none) = true ∧
    after (step (State.reset.withFetchWord 16 0xFFFE)) (fun b => b.offset == 32767 && b.err == none) = true ∧
    after (step (State.reset.withFetchWord 16 0x0000)) (fun b => b.frames == 1 && b.err == none) = true := by decide

/-! ### The decoder (44_decoder.md; L2-DEC, P1) -/

/-- The stream of L1-1 without its last frame's words. -/
def twoFrames : Bytes := [0x27, 0x00, 0x00, 0x00, 0x21, 0x00, 0x00, 0x00]

theorem test_advance_reads : yields (dec twoFrames) = some (.draw 4 3, 2, 0, 0) := by decide

theorem test_advance_counts_end : yields { dec twoFrames with cursor := 2 } = some (.endFrame, 4, 1, 0) := by decide

theorem test_advance_skips_frame_zero :
    yields { dec twoFrames with cursor := 8, fp := 2 } = some (.draw 4 0, 6, 0, 1) := by decide

theorem test_advance_restarts_without_skip :
    yields { dec twoFrames with cursor := 8, fp := 1 } = some (.draw 4 3, 2, 0, 1) := by decide

theorem test_advance_only_end : yields { dec [0x00, 0x00] with cursor := 2, fp := 1 } = some (.endFrame, 2, 1, 1) := by
  decide

theorem test_advance_odd_tail : raises (dec [0x27]).advance = some .fOddTail := by decide

theorem test_advance_empty : raises (dec []).advance = some .fEmptyStream := by decide

/-- A filter that rejects the empty blob. -/
def markFilter : Filter :=
  .pair (fun b => 0 :: b) (fun b => match b with | [] => none | _ :: rest => some rest) (fun _ => rfl)

theorem test_advance_rejected_blob : raises (Dec.construct markFilter [] 2 2 1 ⟨0⟩).advance = some .fFilter := by decide

/-! ### The encoder (43_encoder.md; L1-1, the fault vectors EF) -/

theorem test_pixel_opens_run : encAfter ({ enc with phase := .inFrame }.pixel 255)
    (fun e => e.key == .draw 3 && e.count == 1 && e.prev == [(0, 3)] && e.pix == 1 && e.O == []) = true := by decide

theorem test_pixel_emits_on_change :
    encAfter ({ enc with phase := .inFrame, kind := .draw, count := 1, prev := [(0, 0)], pix := 1 }.pixel 64)
      (fun e => e.key == .draw 1 && e.count == 1 && e.O == [0x09, 0x00]) = true := by decide

theorem test_pixel_same_interval_skips :
    encAfter ({ enc with phase := .inFrame, hasPrev := true, prev := [(0, 0), (1, 1), (2, 1), (3, 2)] }.pixel 63)
      (fun e => e.key == .skip && e.count == 1) = true := by decide

theorem test_frame_end_emits :
    encAfter { enc with phase := .inFrame, kind := .draw, inten := 3, count := 4, pix := 4 }.frameEnd
      (fun e => e.O == [0x27, 0x00, 0x00, 0x00] && e.hasPrev && e.frames == 1 && e.phase == .between &&
        e.kind == .skip && e.inten == 0) = true := by decide

theorem test_begin_zero_before_range : raises (Enc.beginBuild 0 70000 ⟨0⟩) = some .eZeroDim := by decide

theorem test_begin_range : raises (Enc.beginBuild 70000 1 ⟨0⟩) = some .eDimRange := by decide

theorem test_frame_begin_mismatch : raises (enc.frameBegin 4 1) = some .eDimMismatch := by decide

theorem test_pixel_out_of_phase : raises (enc.pixel 0) = some .eSequence := by decide

theorem test_finish_one_frame : raises ({ enc with frames := 1 }.finish .identity) = some .eNoFrames := by decide

theorem test_formatter_limits : raises (fmtSkip 32768) = some .eFieldOverflow ∧ raises (fmtSkip 0) = some .eZeroRun ∧
    raises (fmtDraw 8192 0) = some .eFieldOverflow ∧ raises (fmtDraw 0 2) = some .eZeroRun := by decide

theorem test_quant_edges : [0, 63, 64, 127, 128, 191, 192, 255].map quant = [0, 0, 1, 1, 2, 2, 3, 3] := by decide

/-- ENC-7: two changed pixels with one new level share a Draw; an unchanged pixel of that level is a Skip. -/
theorem test_frame_commands : frameCommands (some [1, 2, 3, 0]) [3, 3, 3, 3] =
    [.draw 2 3, .skip 1, .draw 1 3, .endFrame] := by decide

theorem test_tail_of_one_frame : streamCommands [⟨1, 1, [255]⟩] = [.draw 1 3, .endFrame, .skip 1, .endFrame] := by decide

/-! ### Witnesses: for each statement with hypotheses, a state and operands that meet them -/

theorem witness_commands_well_formed : [Instr.endFrame, .skip 1, .skip 32767, .draw 0 0, .draw 8191 3].all Instr.wf = true := by
  decide

theorem witness_words_of_both_layouts : parse 0x0000 = .endFrame ∧ parse 0x0002 = .skip 1 ∧ parse 0xFFFE = .skip 32767 ∧
    parse 0x0001 = .draw 0 0 ∧ parse 0x0009 = .draw 1 0 ∧ parse 0xFFFF = .draw 8191 3 := by decide

theorem witness_formatter_issued :
    (issued (.fmtSkip 0)).enc.err = none ∧ (issued (.fmtSkip 32767)).script = [.fmtSkip 32767] ∧
    (issued (.fmtSkip 32768)).script = [.fmtSkip 32768] ∧ (issued (.fmtDraw 8191 3)).script = [.fmtDraw 8191 3] ∧
    (issued (.fmtDraw 8192 0)).script = [.fmtDraw 8192 0] ∧ (issued (.fmtDraw 0 0)).script = [.fmtDraw 0 0] := by decide

theorem witness_quantizer_edges : (63 : Byte).toNat ≤ (64 : Byte).toNat := by decide

/-- A Draw and a Skip that end exactly at the end of the buffer, and a Draw of no pixels at its end. -/
theorem witness_run_fits : (playing (dec []) (buffer 0 [])).ints[0]? = some (buffer 0 []) ∧ (buffer 0 []).err = none ∧
    (buffer 0 []).offset + (4 : BitVec 13).toNat ≤ (buffer 0 []).npix ∧
    (buffer 0 []).offset + (4 : BitVec 15).toNat ≤ (buffer 0 []).npix ∧
    (buffer 4 []).offset + (0 : BitVec 13).toNat ≤ (buffer 4 []).npix := by decide

theorem witness_run_does_not_fit : (buffer 4 []).err = none ∧
    (buffer 4 []).npix < (buffer 4 []).offset + (1 : BitVec 13).toNat ∧
    (buffer 4 []).npix < (buffer 4 []).offset + (1 : BitVec 15).toNat := by decide

theorem witness_whole_frame : (playing (dec []) (buffer 4 [])).validateFrameLen = true ∧
    (buffer 4 []).offset = (buffer 4 []).npix := by decide

theorem witness_short_frame : (playing (dec []) (buffer 3 [])).ints[0]? = some (buffer 3 []) ∧
    (buffer 3 []).err = none ∧ (playing (dec []) (buffer 3 [])).validateFrameLen = true ∧
    (buffer 3 []).offset ≠ (buffer 3 []).npix ∧ (playing (dec []) (buffer 3 [])).curBuf = 0 := by decide

theorem witness_faulted_buffer :
    (playing (dec []) ((buffer 0 []).withErr .fIntBounds)).ints[0]? = some ((buffer 0 []).withErr .fIntBounds) ∧
    ((buffer 0 []).withErr .fIntBounds).err = some .fIntBounds := by decide

theorem witness_raster : (2 : Nat) < 3 ∧ (1 : Nat) < 2 ∧ rasterIndex 3 2 1 < 3 * 2 ∧
    (match (buffer 0 []).draw 4 3 with | .ok b' => b'.pixelAt 1 1 == some 3 | .error _ => false) = true := by decide

/-- The reset of a buffer that exists, and that of the first position past the buffers. -/
theorem witness_int_reset_issued :
    let s : State := { issued (.intReset 0 3 1) with ints := [buffer 4 []] }
    s.script = [.intReset 0 3 1] ∧ 0 < s.ints.length ∧
    (issued (.intReset 0 2 2)).script = [.intReset 0 2 2] ∧ (issued (.intReset 0 2 2)).ints.length ≤ 0 := by decide

/-- A buffer that shows the frame 1 2 3 0, for the redraw of a frame against it. -/
theorem witness_buffer_shows_frame : Shows [(0, 1), (1, 2), (2, 3), (3, 0)] [1, 2, 3, 0] := by
  intro p
  match p with
  | 0 | 1 | 2 | 3 => rfl
  | n + 4 => simp [Memory.read]

theorem witness_redraw_buffer :
    (buffer 0 [(0, 1), (1, 2), (2, 3), (3, 0)]).err = none ∧
    (buffer 0 [(0, 1), (1, 2), (2, 3), (3, 0)]).npix = ([3, 3, 3, 3] : List Intensity).length ∧
    Memory.within 4 [(0, 1), (1, 2), (2, 3), (3, 0)] = true ∧
    ([1, 2, 3, 0] : List Intensity).length = ([3, 3, 3, 3] : List Intensity).length := by decide

/-- One frame of one pixel: an asset's frames for the statements about whole sequences. -/
theorem witness_frames : [RawFrame.mk 1 1 [255]] ≠ [] ∧ (RawFrame.mk 1 1 [255]).wf = true ∧
    (RawFrame.mk 1 1 [255]).w = (1 : BitVec 16).toNat ∧
    (RawFrame.mk 1 1 [255]).h = (1 : BitVec 16).toNat ∧
    (withTail [RawFrame.mk 1 1 [255]])[1]? = some (RawFrame.mk 1 1 [255]) := by decide

theorem witness_step_runs : (playing (dec twoFrames) (buffer 0 [])).script = [] ∧
    (playing (dec twoFrames) (buffer 0 [])).decs[0]? = some (dec twoFrames) ∧ (dec twoFrames).err = none ∧
    decode ((dec twoFrames).P.drop (dec twoFrames).cursor) =
      .ok (.draw 4 3, [0x00, 0x00, 0x21, 0x00, 0x00, 0x00]) := ⟨rfl, rfl, rfl, rfl⟩

theorem witness_advance_then_apply : ∃ t, runOp (.decAdvance 0) (playing (dec twoFrames) (buffer 0 [])) = .next t ∧
    t.result = .command (.draw 4 3) := ⟨_, rfl, rfl⟩

theorem witness_nothing_constructed : State.reset.decs.length ≤ 0 ∧ State.reset.ints.length ≤ 0 ∧
    (issued (.decAdvance 0)).script = [.decAdvance 0] ∧ (issued (.intApply 0 .endFrame)).script = [.intApply 0 .endFrame] ∧
    (issued .encFinish).enc.phase = .idle ∧ (issued .encFinish).enc.err = none := by decide

/-- A state in the invariant with something in it: a pixel buffer half drawn, and a build about to begin. -/
theorem witness_invariant : ({ issued (.encBegin 2 2 ⟨0⟩) with ints := [buffer 2 [(0, 3), (1, 3)]] } : State).Inv ∧
    ∃ t, step { issued (.encBegin 2 2 ⟨0⟩) with ints := [buffer 2 [(0, 3), (1, 3)]] } = .next t := by
  refine ⟨⟨⟨?_, Nat.zero_le _, fun _ => ⟨rfl, rfl⟩, rfl, rfl, Nat.zero_le _, ?_, ?_, ?_, rfl, rfl, ?_⟩, ?_, ?_⟩, ⟨_, rfl⟩⟩
  · exact fun h => absurd rfl h
  · exact fun h => by cases h
  · exact fun h => by cases h
  · exact fun h => by cases h
  · exact fun c h => by cases h
  · exact fun d h => by cases h
  · intro b hb
    obtain rfl : b = buffer 2 [(0, 3), (1, 3)] := by simpa using hb
    exact ⟨rfl, rfl, by decide, fun c h => (by cases h), fun f h => (by cases h)⟩

theorem witness_fault_taken : ∃ t, runOp (.encPixel 0) State.reset = .next t ∧ t.result = .fault .eSequence := ⟨_, rfl, rfl⟩

theorem witness_decoder_fault_taken :
    ∃ t, runOp (.decAdvance 0) (playing (dec []) (buffer 0 [])) = .next t ∧ t.result = .fault .fEmptyStream := ⟨_, rfl, rfl⟩

theorem witness_interpreter_fault_taken :
    ∃ t, runOp (.intApply 0 (.skip 5)) (playing (dec []) (buffer 0 [])) = .next t ∧ t.result = .fault .fIntBounds :=
  ⟨_, rfl, rfl⟩

theorem witness_faulted_units : (State.reset.recordFault .enc .eSequence).enc.err = some .eSequence ∧
    ((dec []).withErr .fOddTail).err = some .fOddTail ∧
    (playing ((dec []).withErr .fOddTail) (buffer 0 [])).decs[0]? = some ((dec []).withErr .fOddTail) := ⟨rfl, rfl, rfl⟩

theorem witness_step_of_faulted_unit : ∃ t, step (playing ((dec []).withErr .fOddTail) (buffer 0 [])) = .next t :=
  ⟨_, rfl⟩

/-- A step beside a faulted encoder and a faulted buffer that runs neither ENC_BEGIN nor INT_RESET. -/
theorem witness_step_beside_faulted_units :
    let s : State := { (issued .fmtEnd).recordFault .enc .eSequence with ints := [(buffer 0 []).withErr .fIntBounds] }
    s.enc.err = some .eSequence ∧ s.ints[0]? = some ((buffer 0 []).withErr .fIntBounds) ∧ s.script = [.fmtEnd] ∧
      ∃ t, step s = .next t := ⟨rfl, rfl, rfl, _, rfl⟩

theorem witness_advance_touches : ∃ t, runOp (.decAdvance 0) (playing (dec twoFrames) (buffer 0 [])) = .next t := ⟨_, rfl⟩

theorem witness_filter_accepts_and_rejects : Filter.decompress .identity twoFrames = some twoFrames ∧
    markFilter.decompress [] = none := ⟨rfl, rfl⟩

theorem witness_construct_issued : (issued (.decConstruct [0x00] 2 2 1 ⟨0⟩)).script = [.decConstruct [0x00] 2 2 1 ⟨0⟩] := rfl

/-- The last word of a stream. -/
theorem witness_word_left : { dec twoFrames with cursor := 6 }.err = none ∧ (dec twoFrames).P[6]? = some 0x00 ∧
    (dec twoFrames).P[6 + 1]? = some 0x00 := ⟨rfl, rfl, rfl⟩

theorem witness_short_pass_over : { dec twoFrames with cursor := 8, fp := 1 }.err = none ∧
    { dec twoFrames with cursor := 8, fp := 1 }.cursor = (dec twoFrames).L ∧
    { dec twoFrames with cursor := 8, fp := 1 }.fp ≤ 1 ∧
    (dec twoFrames).P = 0x27 :: 0x00 :: twoFrames.drop 2 := ⟨rfl, rfl, Nat.le_refl 1, rfl⟩

theorem witness_long_pass_over : { dec twoFrames with cursor := 8, fp := 2 }.err = none ∧
    { dec twoFrames with cursor := 8, fp := 2 }.cursor = (dec twoFrames).L ∧
    1 < { dec twoFrames with cursor := 8, fp := 2 }.fp ∧
    (∀ w ∈ [(0x0027 : Word)], w ≠ 0) ∧
    (dec twoFrames).P = [(0x0027 : Word)].flatMap serialize ++ serialize 0 ++ 0x21 :: 0x00 :: [0x00, 0x00] :=
  ⟨rfl, rfl, Nat.lt_succ_self 1, by simp, by decide⟩

theorem witness_stray_byte_and_empty : (dec [0x27]).err = none ∧ (dec [0x27]).cursor + 1 = (dec [0x27]).L ∧
    (dec []).err = none ∧ (dec []).L = 0 ∧ (dec []).cursor = 0 ∧ (dec []).fp = 0 := ⟨rfl, rfl, rfl, rfl, rfl, rfl⟩

theorem witness_even_stream : Filter.decompress .identity [0x00, 0x00] = some [0x00, 0x00] ∧
    ([0x00, 0x00] : Bytes).length % 2 = 0 ∧ 2 ≤ ([0x00, 0x00] : Bytes).length := ⟨rfl, rfl, by decide⟩

/-- The commands of L1-1 after its frame 0: two frames, so that the second frame's End makes a skipping restart. -/
theorem witness_three_frames : (∀ c ∈ ([.draw 4 3] : List Instr) ++ [.draw 4 0, .endFrame, .draw 4 3, .endFrame], c.wf = true) ∧
    Instr.endFrame ∉ ([.draw 4 3] : List Instr) ∧
    2 ≤ ([.draw 4 0, .endFrame, .draw 4 3, .endFrame] : List Instr).count .endFrame ∧
    (dec (encodeStream ([.draw 4 3] ++ .endFrame :: [.draw 4 0, .endFrame, .draw 4 3, .endFrame]))).err = none ∧
    (dec (encodeStream ([.draw 4 3] ++ .endFrame :: [.draw 4 0, .endFrame, .draw 4 3, .endFrame]))).cursor = 0 ∧
    (dec (encodeStream ([.draw 4 3] ++ .endFrame :: [.draw 4 0, .endFrame, .draw 4 3, .endFrame]))).fp = 0 :=
  ⟨by decide, by decide, by decide, rfl, rfl, rfl⟩

/-- The stream of one frame and its tail. -/
theorem witness_two_frames : (∀ c ∈ ([.draw 4 3] : List Instr) ++ [.skip 4, .endFrame], c.wf = true) ∧
    Instr.endFrame ∉ ([.draw 4 3] : List Instr) ∧ ([.skip 4, .endFrame] : List Instr).count .endFrame = 1 ∧
    (dec (encodeStream ([.draw 4 3] ++ .endFrame :: [.skip 4, .endFrame]))).err = none ∧
    (dec (encodeStream ([.draw 4 3] ++ .endFrame :: [.skip 4, .endFrame]))).cursor = 0 ∧
    (dec (encodeStream ([.draw 4 3] ++ .endFrame :: [.skip 4, .endFrame]))).fp = 0 :=
  ⟨by decide, by decide, by decide, rfl, rfl, rfl⟩

theorem witness_enc_begin_issued : (issued (.encBegin 65535 65535 ⟨0⟩)).script = [.encBegin 65535 65535 ⟨0⟩] ∧
    (issued (.encBegin 65536 1 ⟨0⟩)).script = [.encBegin 65536 1 ⟨0⟩] ∧
    (issued (.encBegin 0 0 ⟨0⟩)).script = [.encBegin 0 0 ⟨0⟩] := ⟨rfl, rfl, rfl⟩

theorem witness_enc_between : enc.err = none ∧ enc.phase = .between ∧ enc.W.toNat = 2 ∧ enc.frames < 2 ∧
    ¬ { enc with frames := 2 }.frames < 2 := by decide

/-- A pixel of a differential frame, where the element of the previous frame is read. -/
theorem witness_enc_pixel :
    let e := { enc with phase := .inFrame, hasPrev := true, prev := [(0, 0), (1, 1), (2, 1), (3, 2)] }
    e.err = none ∧ e.phase = .inFrame ∧ e.pix ≠ e.npix ∧ e.count ≤ e.kind.max ∧ (e.prev.read e.pix).isSome = true := by
  decide

theorem witness_enc_frame_whole : let e := { enc with phase := .inFrame, pix := 4, count := 4, kind := .draw }
    e.err = none ∧ e.phase = .inFrame ∧ e.pix = e.npix ∧ e.count ≤ e.kind.max := by decide

theorem witness_enc_out_of_phase : enc.phase ≠ .inFrame ∧ { enc with phase := .done }.phase ≠ .between := by decide

theorem witness_enc_output_step : (∃ t, step (issued .fmtEnd) = .next t) ∧
    ∀ W H fps rest, (issued .fmtEnd).script ≠ .encBegin W H fps :: rest :=
  ⟨⟨_, rfl⟩, fun _ _ _ _ h => by cases h⟩

theorem witness_build_issued :
    ({ State.reset with script := buildOps 1 1 ⟨0⟩ [⟨1, 1, [255]⟩] } : State).script = buildOps 1 1 ⟨0⟩ [⟨1, 1, [255]⟩] := rfl

theorem witness_encode_fails : encodeAsset Config.filter 0 1 ⟨0⟩ [] = .error .eZeroDim ∧
    encodeAsset Config.filter 1 1 ⟨0⟩ [⟨2, 1, [0, 0]⟩] = .error .eDimMismatch ∧
    encodeAsset Config.filter 65536 1 ⟨0⟩ [] = .error .eDimRange ∧
    encodeAsset Config.filter 1 1 ⟨0⟩ [] = .error .eNoFrames := by
  simp [encodeAsset, Config.dimMax]

theorem witness_advance_replaces : (playing (dec twoFrames) (buffer 0 [])).decs[0]? = some (dec twoFrames) ∧
    (∃ d, (dec twoFrames).advance = .ok (.draw 4 3, d)) ∧
    (playing (dec [0x27]) (buffer 0 [])).decs[0]? = some (dec [0x27]) ∧
    (dec [0x27]).advance = .error (.raised .fOddTail) := ⟨rfl, ⟨_, rfl⟩, rfl, rfl⟩

/-- An instance whose cursor is past its stream, which no run has: its advance halts. -/
theorem witness_advance_halts :
    let d : Dec := { dec [] with cursor := 2 }
    (playing d (buffer 0 [])).decs[0]? = some d ∧ d.advance = .error (.halted .streamBounds) := ⟨rfl, rfl⟩

theorem witness_play_of_faulted_advance :
    ∃ t, runOp (.decAdvance 0) (playing (dec [0x27]) (buffer 0 [])) = .next t ∧ t.result = .fault .fOddTail ∧
      (playing (dec [0x27]) (buffer 0 [])).script = [] := ⟨_, rfl, rfl, rfl⟩

theorem witness_formatter_beside_fault : looksAtEncErr (.fmtSkip 1) = true ∧ looksAtEncErr (.fmtDraw 1 0) = true ∧
    looksAtEncErr .encFinish = true ∧ faultsInEnc (.encBegin 0 0 ⟨0⟩) = true := by decide

/-- A run of two Skip pixels after two Draws and before one, in a differential frame. -/
theorem witness_run_in_frame :
    frameKeys (some [1, 2, 3, 0, 1]) [3, 3, 3, 0, 2] =
      [.draw 3, .draw 3] ++ List.replicate 2 .skip ++ [.draw 2] ∧
    ([.draw 3, .draw 3] : List RunKey).getLast? ≠ some .skip ∧ ([.draw 2] : List RunKey).head? ≠ some .skip := by decide

/-- A baseline frame of 8192 equal pixels (43_encoder.md rule R100's example): its first two commands have one key. -/
theorem witness_repeated_key :
    frameCommands none (List.replicate 8192 2) = [] ++ .draw 8191 2 :: .draw 1 2 :: [.endFrame] := by
  have hk : frameKeys none (List.replicate 8192 2) =
      .draw 2 :: (List.replicate 8190 (.draw 2) ++ [.draw 2]) := by
    rw [frameKeys, List.map_replicate, List.replicate_succ, ← List.replicate_succ']
  rw [frameCommands, hk, emitRuns, if_neg (by simp), emitRuns_extend _ _ _ _ (by decide) (by simp)]
  simp [emitRuns, RunKey.close, RunKey.command]

theorem witness_good_even_decoder : (dec twoFrames).Ok ∧ (dec twoFrames).err = none ∧ (dec twoFrames).L % 2 = 0 ∧
    2 ≤ (dec twoFrames).L := by
  refine ⟨?_, rfl, rfl, by decide⟩
  rw [dec, Dec.ofStream_eq_construct]
  exact Dec.ok_construct ..

/-- The asset of one frame of one pixel, constructed and its buffer prepared. -/
theorem witness_asset_played :
    let F := [RawFrame.mk 1 1 [255]]
    let blob := Config.filter.compress (physicalStream F)
    let d := Dec.construct Config.filter blob 1 1 1 ⟨0⟩
    let s := playing d (Interp.reset 1 1 [])
    (∀ f ∈ F, f.wf = true) ∧
    encodeAsset Config.filter (1 : BitVec 16).toNat (1 : BitVec 16).toNat ⟨0⟩ F = .ok (.asset blob 1 1 1 ⟨0⟩) ∧
    s.script = [] ∧ s.decs[s.cur]? = some d ∧ s.ints[s.curBuf]? = some (Interp.reset 1 1 []) := by
  refine ⟨by decide, ?_, rfl, rfl, rfl⟩
  simp [encodeAsset, Config.dimMax]

end Sys2Proof.Tests
end

section
/-!
PROOF. Raster order and the Draw command: the raster indices of a frame's pixels (00_scope.md rule R13), and what a
Draw leaves in the pixel of a column and a row (40_commands.md rule R76).
-/

namespace Sys2Proof.Machine

/-! ### Raster indices: column and row are remainder and quotient by the width -/

theorem rasterIndex_mod {W x : Nat} (y : Nat) (hx : x < W) : rasterIndex W x y % W = x := by
  rw [rasterIndex, Nat.mul_add_mod_self_right, Nat.mod_eq_of_lt hx]

theorem rasterIndex_div {W x : Nat} (y : Nat) (hx : x < W) : rasterIndex W x y / W = y := by
  rw [rasterIndex, Nat.add_comm, Nat.add_mul_div_right _ _ (Nat.zero_lt_of_lt hx), Nat.div_eq_of_lt hx, Nat.zero_add]

theorem rasterIndex_mod_div (W p : Nat) : rasterIndex W (p % W) (p / W) = p := by
  rw [rasterIndex, Nat.div_add_mod']

theorem rasterIndex_lt {W H x y : Nat} (hx : x < W) (hy : y < H) : rasterIndex W x y < W * H :=
  calc y * W + x < y * W + W := Nat.add_lt_add_left hx _
    _ = W * (y + 1) := by rw [Nat.mul_succ, Nat.mul_comm]
    _ ≤ W * H := Nat.mul_le_mul_left W hy

theorem rasterIndex_inj {W x y x' y' : Nat} (hx : x < W) (hx' : x' < W)
    (h : rasterIndex W x y = rasterIndex W x' y') : x = x' ∧ y = y' := by
  have hcolumn : x = x' := by
    simpa only [rasterIndex_mod _ hx, rasterIndex_mod _ hx'] using congrArg (· % W) h
  have hrow : y = y' := by
    simpa only [rasterIndex_div _ hx, rasterIndex_div _ hx'] using congrArg (· / W) h
  exact ⟨hcolumn, hrow⟩

theorem exists_rasterIndex_eq {W H p : Nat} (hp : p < W * H) : ∃ x y, x < W ∧ y < H ∧ rasterIndex W x y = p :=
  ⟨p % W, p / W, Nat.mod_lt p (Nat.pos_of_lt_mul_right hp), Nat.div_lt_of_lt_mul hp, rasterIndex_mod_div W p⟩

/-! ### The pixels a Draw paints -/

/-- A Draw that answers keeps the width, so a pixel is the same element before and after it (rule R76). -/
theorem Interp.pixelAt_draw {b b' : Interp} {n : Nat} {i : Intensity} (h : b.draw n i = .ok b') (x y : Nat) :
    b'.pixelAt x y = if b.offset ≤ rasterIndex b.W.toNat x y ∧ rasterIndex b.W.toNat x y < b.offset + n then some i
      else b.pixelAt x y := by
  obtain ⟨-, rfl⟩ := Interp.draw_eq_ok.mp h
  exact Memory.read_fill n b.buf b.offset (rasterIndex b.W.toNat x y) i

/-- Settles O16: a raster index determines its column and row as remainder and quotient by the width, and a Draw fills
the elements of consecutive raster indices. -/
theorem drawFollowsRasterOrderAcrossRows : Obligations.DrawFollowsRasterOrderAcrossRows := by
  refine ⟨?_, ?_, ?_⟩
  · intro W H x y x' y' hx hx' hy
    exact ⟨rasterIndex_lt hx hy, rasterIndex_inj hx hx'⟩
  · intro W H p hp
    exact exists_rasterIndex_eq hp
  · intro b b' n i x y h
    exact Interp.pixelAt_draw h x y

end Sys2Proof.Machine
end

section
/-!
PROOF. Results of unit operations: what it is for one to be sound, which is an answer that its unit may hold or a code
its error register may hold, and never a read without a value (10_state.md rules R20, R23, R29, R35, R40).
-/

namespace Sys2Proof.Machine

/-- An operation's result is sound: what it answers meets `P`, what it raises meets `Q`, and no read has no value. -/
def Sound {α : Type} (P : α → Prop) (Q : FaultCode → Prop) : Except Stop α → Prop
  | .ok x => P x
  | .error (.raised c) => Q c
  | .error (.halted _) => False

section Sound
variable {α β : Type} {P : α → Prop} {Q : FaultCode → Prop} {r : Except Stop α}

/-- A sound result with the answer worked on further is sound for what comes of it. -/
theorem Sound.map {P' : β → Prop} {Q' : FaultCode → Prop} {f : α → β} (h : Sound P Q r)
    (hP : ∀ x, P x → P' (f x)) (hQ : ∀ c, Q c → Q' c) : Sound P' Q' (r.map f) := by
  match r, h with
  | .ok x, h => exact hP x h
  | .error (.raised c), h => exact hQ c h

/-- A check is sound where both of its ways on are. -/
theorem Sound.ite {p : Prop} [Decidable p] {r' : Except Stop α} (h : Sound P Q r) (h' : Sound P Q r') :
    Sound P Q (if p then r else r') := by
  split
  · exact h
  · exact h'

/-- What a result raises and what it answers are looked at separately. -/
theorem Sound.of_answer (hQ : Sound (fun _ => True) Q r) (hP : ∀ x, r = .ok x → P x) : Sound P Q r := by
  match r, hQ with
  | .ok x, _ => exact hP x rfl
  | .error (.raised c), h => exact h

/-- The sticky check raises what the register holds, which is a code it may hold. -/
theorem Sound.sticky {err : Option FaultCode} (herr : ∀ c, err = some c → Q c) (h : err = none → Sound P Q r) :
    Sound P Q (sticky err r) := by
  cases err with
  | none => exact h rfl
  | some c => exact herr c rfl

end Sound

/-! ### A sticky code recorded again changes nothing (60_exceptions.md rule R131) -/

theorem Dec.withErr_of_err_eq {d : Dec} {c : FaultCode} (h : d.err = some c) : d.withErr c = d := by
  rw [Dec.withErr, ← h]

end Sys2Proof.Machine
end

section
/-!
PROOF. The interpreter keeps what its rules say of it: INT_RESET, INT_APPLY, and recording a code (10_state.md rules
R36 to R41).
-/

namespace Sys2Proof.Machine

/-- INT_RESET leaves a buffer as its rules keep it where the events already made are (40_commands.md rule R72). -/
theorem Interp.ok_reset {out : List FrameOut} (W H : BitVec 16)
    (h : ∀ f ∈ out, f.cells.wf = true ∧ f.cells.within f.npix = true) : (Interp.reset W H out).Ok where
  bufWf := rfl
  bufWithin := rfl
  offsetBound := Nat.zero_le _
  errCode _ hc := nomatch hc
  outWf := h

theorem Interp.Ok.withErr {b : Interp} {c : FaultCode} (h : b.Ok) (hc : c.isInt = true) : (b.withErr c).Ok :=
  { h with errCode := fun _ he => Option.some.inj he ▸ hc }

theorem Interp.Ok.draw {b b' : Interp} {n : Nat} {i : Intensity} (h : b.Ok) (hr : b.draw n i = .ok b') : b'.Ok := by
  obtain ⟨hfits, rfl⟩ := Interp.draw_eq_ok.mp hr
  exact { h with
    bufWf := Memory.fill_wf n b.offset i h.bufWf
    bufWithin := Memory.fill_within n i h.bufWithin hfits
    offsetBound := hfits }

theorem Interp.Ok.skip {b b' : Interp} {n : Nat} (h : b.Ok) (hr : b.skip n = .ok b') : b'.Ok := by
  obtain ⟨hfits, rfl⟩ := Interp.skip_eq_ok.mp hr
  exact { h with offsetBound := hfits }

/-- The snapshot an End records is the buffer, whose canonical form and bounds it has (10_state.md rule R41). -/
theorem Interp.Ok.endFrame {b b' : Interp} {validate : Bool} (h : b.Ok) (hr : b.endFrame validate = .ok b') :
    b'.Ok := by
  obtain ⟨-, rfl⟩ := Interp.endFrame_eq_ok.mp hr
  refine { h with offsetBound := Nat.zero_le _, outWf := fun f hf => ?_ }
  rcases List.mem_append.mp hf with hold | hnew
  · exact h.outWf f hold
  · obtain rfl := List.mem_singleton.mp hnew
    exact ⟨h.bufWf, h.bufWithin⟩

theorem Interp.Ok.apply {b b' : Interp} {validate : Bool} {c : Instr} (h : b.Ok)
    (hr : b.apply validate c = .ok b') : b'.Ok := by
  cases c with
  | endFrame => exact h.endFrame hr
  | skip count => exact h.skip hr
  | draw count intensity => exact h.draw hr

/-- What INT_APPLY raises is a code of INT: F_INT_BOUNDS or F_INT_SHORT_FRAME (40_commands.md rules R74, R75). -/
theorem Interp.apply_raises (b : Interp) (validate : Bool) (c : Instr) :
    Sound (fun _ => True) (fun code => code.isInt = true) (b.apply validate c) := by
  cases c with
  | endFrame => exact .ite trivial rfl
  | skip count => exact .ite trivial rfl
  | draw count intensity => exact .ite trivial rfl

/-- INT_APPLY with its look at the sticky error, on a buffer as its rules keep it. -/
theorem Interp.Ok.apply_sound {b : Interp} (h : b.Ok) (validate : Bool) (c : Instr) :
    Sound Interp.Ok (fun code => code.isInt = true) (sticky b.err (b.apply validate c)) :=
  Sound.sticky h.errCode fun _ => (b.apply_raises validate c).of_answer fun _ hr => h.apply hr

end Sys2Proof.Machine
end

section
/-!
PROOF. The encoder keeps what its rules say of it (10_state.md rules R27 to R35, 43_encoder.md), and what its operations
append to `enc.O`.
-/

namespace Sys2Proof.Machine

/-! ### What the operations of ENC answer -/

@[simp] theorem length_serialize (w : Word) : (serialize w).length = 2 := rfl

/-- FLUSH appends at most one word to `enc.O` and changes nothing else (43_encoder.md rule R98). -/
theorem Enc.flushOpen_appends {e e' : Enc} (h : e.flushOpen = .ok e') :
    ∃ more : Bytes, more.length % 2 = 0 ∧ e' = { e with O := e.O ++ more } := by
  rcases Enc.flushOpen_eq_ok h with ⟨-, rfl⟩ | ⟨-, w, rfl⟩
  · exact ⟨[], rfl, by rw [List.append_nil]⟩
  · exact ⟨serialize w, by rw [length_serialize], rfl⟩

/-- ACCUMULATE leaves an open run that fits its field, and whole words appended to `enc.O` (43_encoder.md rule R97). -/
theorem Enc.accumulate_eq_ok {e e' : Enc} {k : RunKey} (h : e.accumulate k = .ok e') :
    ∃ (kind : RunKind) (inten : Intensity) (count : Nat) (more : Bytes),
      0 < count ∧ count ≤ kind.max ∧ more.length % 2 = 0 ∧
        e' = { e with kind := kind, inten := inten, count := count, O := e.O ++ more } := by
  unfold Enc.accumulate at h
  split at h
  next hext =>
    obtain ⟨-, rfl, hlt⟩ := hext
    cases h
    rw [Enc.key_kind] at hlt
    exact ⟨e.kind, e.inten, e.count + 1, [], Nat.succ_pos _, hlt, rfl, by rw [List.append_nil]⟩
  next =>
    split at h
    next e₁ hflush =>
      cases h
      obtain ⟨more, heven, rfl⟩ := Enc.flushOpen_appends hflush
      cases k with
      | skip => exact ⟨.skip, _, 1, more, Nat.one_pos, by decide, heven, rfl⟩
      | draw q => exact ⟨.draw, q, 1, more, Nat.one_pos, by decide, heven, rfl⟩
    next => cases h

theorem Enc.beginBuild_eq_ok {W H : Nat} {fps : Fps} {e : Enc} (h : Enc.beginBuild W H fps = .ok e) :
    (0 < W ∧ W ≤ 65535) ∧ (0 < H ∧ H ≤ 65535) ∧
      e = { Enc.reset with W := BitVec.ofNat 16 W, H := BitVec.ofNat 16 H, fps := fps, phase := .between } := by
  unfold Enc.beginBuild Config.dimMax at h
  split at h
  next => cases h
  next hzero =>
    split at h
    next => cases h
    next hrange =>
      cases h
      exact ⟨by omega, by omega, rfl⟩

theorem Enc.frameBegin_eq_ok {e e' : Enc} {w h : Nat} (hr : e.frameBegin w h = .ok e') :
    e.phase = .between ∧ e' = { e.closeRun with pix := 0, phase := .inFrame } := by
  obtain ⟨-, hphase, hbody⟩ := Enc.inPhase_eq_ok.mp hr
  split at hbody <;> cases hbody
  exact ⟨hphase, rfl⟩

theorem Enc.pixel_eq_ok {e e' : Enc} {s : Byte} (hr : e.pixel s = .ok e') :
    e.phase = .inFrame ∧ e.pix ≠ e.npix ∧
      ∃ (kind : RunKind) (inten : Intensity) (count : Nat) (more : Bytes),
        0 < count ∧ count ≤ kind.max ∧ more.length % 2 = 0 ∧
          e' = { e with kind := kind, inten := inten, count := count, O := e.O ++ more,
                        prev := e.prev.write e.pix (quant s), pix := e.pix + 1 } := by
  obtain ⟨-, hphase, hbody⟩ := Enc.inPhase_eq_ok.mp hr
  split at hbody
  next => cases hbody
  next hpix =>
    split at hbody
    next => cases hbody
    next k hk =>
      split at hbody
      next => cases hbody
      next e₁ hacc =>
        cases hbody
        obtain ⟨kind, inten, count, more, hpos, hmax, heven, rfl⟩ := Enc.accumulate_eq_ok hacc
        exact ⟨hphase, hpix, kind, inten, count, more, hpos, hmax, heven, rfl⟩

theorem Enc.frameEnd_eq_ok {e e' : Enc} (hr : e.frameEnd = .ok e') :
    e.phase = .inFrame ∧ e.pix = e.npix ∧ ∃ more : Bytes, more.length % 2 = 0 ∧
      e' = { e with kind := .skip, inten := 0, count := 0, O := e.O ++ more, hasPrev := true,
                    frames := e.frames + 1, phase := .between } := by
  obtain ⟨-, hphase, hbody⟩ := Enc.inPhase_eq_ok.mp hr
  split at hbody
  next => cases hbody
  next hpix =>
    split at hbody
    next => cases hbody
    next e₁ hflush =>
      cases hbody
      obtain ⟨more, heven, rfl⟩ := Enc.flushOpen_appends hflush
      refine ⟨hphase, not_not.mp hpix, more ++ serialize fmtEnd, ?_, ?_⟩
      · rw [List.length_append, length_serialize, Nat.add_mod_right, heven]
      · simp only [Enc.emit, Enc.closeRun, List.append_assoc]

theorem Enc.finish_eq_ok {F : Filter} {e : Enc} {r : Enc × Result} (hr : e.finish F = .ok r) :
    e.phase = .between ∧ r.1 = { e with phase := .done } := by
  obtain ⟨-, hphase, hbody⟩ := Enc.inPhase_eq_ok.mp hr
  split at hbody <;> cases hbody
  exact ⟨hphase, rfl⟩

/-! ### Every answer is an encoder as its rules keep it -/

theorem Enc.Ok.withErr {e : Enc} {c : FaultCode} (h : e.Ok) (hc : c.isEnc = true) : (e.withErr c).Ok :=
  { h with errCode := fun _ he => Option.some.inj he ▸ hc }

/-- A dimension that ENC_BEGIN accepts is not zero as a `u16` (43_encoder.md rule R91). -/
theorem ofNat_dim_ne_zero {n : Nat} (h : 0 < n ∧ n ≤ 65535) : BitVec.ofNat 16 n ≠ 0 := by
  bv_omega

theorem Enc.ok_of_beginBuild {W H : Nat} {fps : Fps} {e : Enc} (hr : Enc.beginBuild W H fps = .ok e) : e.Ok := by
  obtain ⟨hW, hH, rfl⟩ := Enc.beginBuild_eq_ok hr
  exact {
    dims := fun _ => ⟨ofNat_dim_ne_zero hW, ofNat_dim_ne_zero hH⟩
    countBound := Nat.zero_le _
    noRun := fun _ => ⟨rfl, rfl⟩
    prevWf := rfl
    prevWithin := rfl
    pixBound := Nat.zero_le _
    prevCovers := nofun
    prevSoFar := nofun
    runOpen := nofun
    streamEven := rfl
    hasPrevIff := rfl
    errCode := nofun }

theorem Enc.Ok.frameBegin {e e' : Enc} {w h : Nat} (hok : e.Ok) (hr : e.frameBegin w h = .ok e') : e'.Ok := by
  obtain ⟨hphase, rfl⟩ := Enc.frameBegin_eq_ok hr
  exact { hok with
    dims := fun _ => hok.dims (by simp [hphase])
    countBound := Nat.zero_le _
    noRun := fun _ => ⟨rfl, rfl⟩
    pixBound := Nat.zero_le _
    prevSoFar := fun _ p hp => absurd hp (Nat.not_lt_zero p)
    runOpen := fun _ hp => absurd hp (Nat.lt_irrefl 0) }

/-- A written element keeps every element that has a value one that has a value. -/
theorem Memory.isSome_read_write {m : Memory} {q : Nat} (p : Nat) (v : Intensity)
    (h : q ≠ p → (m.read q).isSome = true) : ((m.write p v).read q).isSome = true := by
  by_cases hq : q = p
  · rw [hq, Memory.read_write_same, Option.isSome_some]
  · rw [Memory.read_write_other v hq, h hq]

/-- ENC_PIXEL writes the element at `enc.pix` and leaves a run open, so the pixels so far have values and a run is open
(43_encoder.md rules R93, R101). -/
theorem Enc.Ok.pixel {e e' : Enc} {s : Byte} (hok : e.Ok) (hr : e.pixel s = .ok e') : e'.Ok := by
  obtain ⟨hphase, hne, kind, inten, count, more, hpos, hmax, heven, rfl⟩ := Enc.pixel_eq_ok hr
  have hlt : e.pix < e.npix := Nat.lt_of_le_of_ne hok.pixBound hne
  exact { hok with
    countBound := hmax
    noRun := fun h0 => absurd h0 (Nat.ne_of_gt hpos)
    prevWf := Memory.write_wf _ _ hok.prevWf
    prevWithin := Memory.write_within _ hok.prevWithin hlt
    pixBound := hlt
    prevCovers := fun hprev p hp => Memory.isSome_read_write _ _ fun _ => hok.prevCovers hprev p hp
    prevSoFar := fun _ p hp => Memory.isSome_read_write _ _ fun hq =>
      hok.prevSoFar hphase p (Nat.lt_of_le_of_ne (Nat.le_of_lt_succ hp) hq)
    runOpen := fun _ _ => hpos
    streamEven := by rw [List.length_append, Nat.add_mod, hok.streamEven, heven] }

/-- At ENC_FRAME_END the whole frame has been written, so it is the previous frame of the next one (43_encoder.md rule
R101). -/
theorem Enc.Ok.frameEnd {e e' : Enc} (hok : e.Ok) (hr : e.frameEnd = .ok e') : e'.Ok := by
  obtain ⟨hphase, hwhole, more, heven, rfl⟩ := Enc.frameEnd_eq_ok hr
  exact { hok with
    dims := fun _ => hok.dims (by simp [hphase])
    countBound := Nat.zero_le _
    noRun := fun _ => ⟨rfl, rfl⟩
    prevCovers := fun _ p hp => hok.prevSoFar hphase p (hwhole ▸ hp)
    prevSoFar := nofun
    runOpen := nofun
    streamEven := by rw [List.length_append, Nat.add_mod, hok.streamEven, heven]
    hasPrevIff := by simp }

theorem Enc.Ok.finish {F : Filter} {e : Enc} {r : Enc × Result} (hok : e.Ok) (hr : e.finish F = .ok r) : r.1.Ok := by
  obtain ⟨hphase, heq⟩ := Enc.finish_eq_ok hr
  rw [heq]
  exact { hok with
    dims := fun _ => hok.dims (by simp [hphase])
    prevSoFar := nofun
    runOpen := nofun }

/-! ### Every fault is a code of ENC, and no read has no value -/

/-- A result that raises codes of ENC only (10_state.md rule R35). -/
abbrev RaisesEncCodes {α : Type} (r : Except Stop α) : Prop := Sound (fun _ => True) (fun c => c.isEnc = true) r

theorem Enc.beginBuild_raises (W H : Nat) (fps : Fps) : RaisesEncCodes (Enc.beginBuild W H fps) :=
  .ite rfl (.ite rfl trivial)

theorem fmtSkip_raises (c : Nat) : RaisesEncCodes (fmtSkip c) :=
  .ite rfl (.ite rfl trivial)

theorem fmtDraw_raises (c : Nat) (i : Intensity) : RaisesEncCodes (fmtDraw c i) :=
  .ite rfl (.ite rfl trivial)

theorem Enc.Ok.inPhase_raises {α : Type} {e : Enc} {ph : Phase} {body : Except Stop α} (hok : e.Ok)
    (hbody : RaisesEncCodes body) : RaisesEncCodes (e.inPhase ph body) :=
  .sticky hok.errCode fun _ => .ite hbody rfl

theorem Enc.Ok.frameBegin_raises {e : Enc} (hok : e.Ok) (w h : Nat) : RaisesEncCodes (e.frameBegin w h) :=
  hok.inPhase_raises (.ite rfl trivial)

/-- CLASSIFY reads an element of the previous frame, which has been written (10_state.md rule R29), and the run
ACCUMULATE emits fits its field (rule R28). -/
theorem Enc.Ok.pixel_raises {e : Enc} (hok : e.Ok) (s : Byte) : RaisesEncCodes (e.pixel s) := by
  refine hok.inPhase_raises ?_
  split
  · rfl
  next hne =>
    have hlt : e.pix < e.npix := Nat.lt_of_le_of_ne hok.pixBound hne
    rw [Enc.classify_eq (quant s) fun hprev => hok.prevCovers hprev e.pix hlt]
    simp only
    rw [Enc.accumulate_eq (e := { e with prev := e.prev.write e.pix (quant s) }) _ hok.countBound]
    trivial

theorem Enc.Ok.frameEnd_raises {e : Enc} (hok : e.Ok) : RaisesEncCodes e.frameEnd := by
  refine hok.inPhase_raises (.ite rfl ?_)
  rw [Enc.flushOpen_eq hok.countBound]
  trivial

theorem Enc.Ok.finish_raises {e : Enc} (hok : e.Ok) (F : Filter) : RaisesEncCodes (e.finish F) :=
  hok.inPhase_raises (.ite rfl trivial)

end Sys2Proof.Machine
end

section
/-!
PROOF. The decoder keeps what its rules say of it (10_state.md rules R19 to R26, 44_decoder.md rules R109 to R118, R123),
and its stream and configuration never change (10_state.md rules R19, R24).
-/

namespace Sys2Proof.Machine

/-! ### Stream and configuration -/

/-- The registers that DEC_CONSTRUCT fixes: the stream and the decoder's record (10_state.md rules R19, R24). -/
def Dec.config (d : Dec) : Bytes × Bytes × BitVec 16 × BitVec 16 × Nat × Fps :=
  (d.P, d.blob, d.W, d.H, d.frameCount, d.fps)

theorem Dec.config_eq_iff {d d' : Dec} : d'.config = d.config ↔
    d'.P = d.P ∧ d'.blob = d.blob ∧ d'.W = d.W ∧ d'.H = d.H ∧ d'.frameCount = d.frameCount ∧ d'.fps = d.fps := by
  simp only [Dec.config, Prod.mk.injEq]

@[simp] theorem Dec.config_withErr (d : Dec) (c : FaultCode) : (d.withErr c).config = d.config := rfl

@[simp] theorem Dec.config_restart (d : Dec) : d.restart.config = d.config := rfl

@[simp] theorem Dec.restart_P (d : Dec) : d.restart.P = d.P := rfl

@[simp] theorem Dec.config_yield (d : Dec) (c : Instr) : (d.yield c).config = d.config := by
  rw [Dec.yield_eq]
  rfl

theorem Dec.config_of_readWord {d d' : Dec} {w : Word} (h : d.readWord = .ok (some (w, d'))) :
    d'.config = d.config := by
  rcases d.readWord_cases with ⟨-, e⟩ | ⟨-, e⟩ | ⟨_, e⟩ | ⟨-, e⟩ <;> rw [e] at h <;> cases h
  rfl

theorem Dec.config_of_firstWord {d d' : Dec} {w : Word} (h : d.firstWord = .ok (w, d')) : d'.config = d.config := by
  unfold Dec.firstWord at h
  split at h
  next => cases h
  next => cases h
  next hr =>
    cases h
    exact Dec.config_of_readWord hr

theorem Dec.config_of_loopSkip {fuel : Nat} {d d' : Dec} (h : Dec.loopSkip fuel d = .ok d') :
    d'.config = d.config := by
  induction fuel generalizing d with
  | zero => cases h
  | succ fuel ih =>
    unfold Dec.loopSkip at h
    split at h
    next => cases h
    next => cases h
    next w d₁ hr =>
      split at h
      next =>
        cases h
        exact Dec.config_of_readWord hr
      next => exact (ih h).trans (Dec.config_of_readWord hr)

theorem Dec.config_of_nextPass {d d' : Dec} {w : Word} (h : d.nextPass = .ok (w, d')) : d'.config = d.config := by
  unfold Dec.nextPass at h
  split at h
  next => cases h
  next d₁ hstart =>
    have hd₁ : d₁.config = d.config := by
      split at hstart
      next => exact (Dec.config_of_loopSkip hstart).trans d.config_restart
      next =>
        cases hstart
        rfl
    exact (Dec.config_of_firstWord h).trans hd₁

theorem Dec.config_of_fetchWord {d d' : Dec} {w : Word} (h : d.fetchWord = .ok (w, d')) : d'.config = d.config := by
  obtain ⟨-, hbody⟩ := sticky_eq_ok.mp h
  split at hbody
  next => cases hbody
  next => exact Dec.config_of_nextPass hbody
  next hr =>
    cases hbody
    exact Dec.config_of_readWord hr

theorem Dec.config_of_advance {d : Dec} {r : Instr × Dec} (h : d.advance = .ok r) : r.2.config = d.config := by
  unfold Dec.advance at h
  split at h
  next => cases h
  next w d' hf =>
    cases h
    exact (Dec.config_yield d' _).trans (Dec.config_of_fetchWord hf)

/-! ### Reading keeps the decoder as its rules keep it -/

/-- A code found in DEC_ADVANCE is recorded where none was held, so the filter accepted the blob; F_EMPTY_STREAM and
F_ODD_TAIL have their causes (44_decoder.md rule R123). -/
theorem Dec.Ok.withErr {d : Dec} {c : FaultCode} (hok : d.Ok) (hnone : d.err = none)
    (hc : (c = .fEmptyStream ∧ d.L = 0) ∨ (c = .fOddTail ∧ d.L % 2 = 1)) : (d.withErr c).Ok :=
  { hok with
    rejected := fun hrej => absurd (hnone.symm.trans (hok.rejected hrej)) (by simp)
    errCause := fun _ he => .inr (Option.some.inj he ▸ hc) }

/-- A decoder at another even place of its stream, at the start of its count, is as its rules keep it. -/
theorem Dec.Ok.atCursor {d : Dec} {k : Nat} {win : Bytes} (hok : d.Ok) (pass : Nat) (scratch : FilterScratch)
    (heven : k % 2 = 0) (hle : k ≤ d.L) (hwin : win = []) :
    Dec.Ok { d with cursor := k, pass := pass, fp := 0, win := win, scratch := scratch } :=
  { hok with
    aligned := heven
    inStream := hle
    windowEmpty := hwin
    counted := Nat.zero_le _ }

/-- A word read is counted where it is an End, and then `dec.fp` counts one more of the words read (10_state.md rule
R22). -/
theorem Dec.Ok.yield_word {d : Dec} (hok : d.Ok) (h : d.cursor + 1 < d.P.length) :
    Dec.Ok (Dec.yield { d with cursor := d.cursor + 2, win := [] }
      (parse (parseBytes d.P[d.cursor] d.P[d.cursor + 1]))) := by
  have haligned := hok.aligned
  have hprefix : (d.P.take d.cursor).length % 2 = 0 := by
    rw [List.length_take, Nat.min_eq_left (by omega), haligned]
  rw [Dec.yield_eq]
  exact { hok with
    aligned := by rw [Nat.add_mod_right, haligned]
    inStream := h
    windowEmpty := rfl
    counted := by
      rw [take_add_word h, endsIn_append _ hprefix]
      exact Nat.add_le_add_right hok.counted _ }

/-- READ_WORD on a decoder as its rules keep it: the end of the stream, a stray byte, or a word. -/
theorem Dec.Ok.readWord_cases {d : Dec} (hok : d.Ok) :
    (d.cursor = d.L ∧ d.readWord = .ok none) ∨
    (d.L % 2 = 1 ∧ d.readWord = .error (.raised .fOddTail)) ∨
    ∃ w d', d.readWord = .ok (some (w, d')) ∧ (d'.yield (parse w)).Ok := by
  have haligned := hok.aligned
  have hin := hok.inStream
  rcases Dec.readWord_cases d with ⟨hend, e⟩ | ⟨hend, e⟩ | ⟨hword, e⟩ | ⟨hbeyond, -⟩
  · exact .inl ⟨hend, e⟩
  · exact .inr (.inl ⟨by omega, e⟩)
  · exact .inr (.inr ⟨_, _, e, hok.yield_word hword⟩)
  · omega

/-! ### The end of a pass -/

/-- Where more than one End was counted in a pass that read the whole stream, LOOP_SKIP finds the first of them, and a
further one is left after it: F_NO_END is never raised (44_decoder.md rules R116, R123). -/
theorem Dec.Ok.skipFrame_restart {d : Dec} (hok : d.Ok) (hend : d.cursor = d.L) (hfp : 1 < d.fp) :
    ∃ k, k < d.L ∧ k % 2 = 0 ∧ d.restart.skipFrame = .ok { d.restart with cursor := k, win := [] } := by
  have hends : 1 < endsIn d.P := by
    have hcounted := hok.counted
    rw [hend, Dec.L, List.take_length] at hcounted
    omega
  have hall : endsIn (d.restart.P.drop d.restart.cursor) = endsIn d.P := congrArg endsIn List.drop_zero
  rcases Dec.loopSkip_cases (d.restart.L + 1) d.restart rfl (Nat.zero_le _) (by omega) with
    ⟨k, -, hle, heven, hleft, e⟩ | ⟨hnone, -, -⟩ | ⟨hnone, -, -⟩
  · refine ⟨k, Nat.lt_of_le_of_ne hle fun hk => ?_, heven, e⟩
    have hafter : endsIn (d.restart.P.drop k) = 0 := by
      rw [hk, Dec.restart_P, Dec.L, List.drop_length]
      rfl
    omega
  · omega
  · omega

/-- EXHAUSTED up to its first word: the decoder of the new pass, which stands at the end of the stream only where the
stream is empty (44_decoder.md rules R115 to R118). -/
theorem Dec.Ok.nextPass_start {d : Dec} (hok : d.Ok) (hend : d.cursor = d.L) :
    ∃ d₁, (if 1 < d.fp then d.restart.skipFrame else .ok d.restart) = .ok d₁ ∧ Dec.Ok { d₁ with fp := 0 } ∧
      d₁.P = d.P ∧ (d₁.cursor = d₁.L → d.L = 0) := by
  split
  next hfp =>
    obtain ⟨k, hlt, heven, e⟩ := hok.skipFrame_restart hend hfp
    exact ⟨_, e, hok.atCursor _ _ heven (Nat.le_of_lt hlt) rfl, rfl, fun hk => absurd hk (Nat.ne_of_lt hlt)⟩
  next => exact ⟨_, rfl, hok.atCursor _ _ rfl (Nat.zero_le _) hok.windowEmpty, rfl, Eq.symm⟩

/-- What a fetched word leaves: a decoder that is as its rules keep it once the word is yielded. -/
abbrev Dec.FetchedOk (r : Word × Dec) : Prop := (r.2.yield (parse r.1)).Ok

theorem Dec.Ok.nextPass_sound {d : Dec} (hok : d.Ok) (hnone : d.err = none) (hend : d.cursor = d.L) :
    Sound Dec.FetchedOk (fun c => (d.withErr c).Ok) d.nextPass := by
  obtain ⟨d₁, hstart, hok₁, hP, hempty⟩ := hok.nextPass_start hend
  unfold Dec.nextPass Dec.firstWord
  rw [hstart]
  simp only
  rcases hok₁.readWord_cases with ⟨hend₁, e⟩ | ⟨hodd, e⟩ | ⟨w, d', e, hyield⟩ <;> rw [e]
  · exact hok.withErr hnone (.inl ⟨rfl, hempty hend₁⟩)
  · refine hok.withErr hnone (.inr ⟨rfl, ?_⟩)
    rw [Dec.L, ← hP]
    exact hodd
  · exact hyield

/-- DEC_ADVANCE up to its yield, on a decoder as its rules keep it (44_decoder.md rules R112 to R118). -/
theorem Dec.Ok.fetchWord_sound {d : Dec} (hok : d.Ok) :
    Sound Dec.FetchedOk (fun c => (d.withErr c).Ok) d.fetchWord := by
  refine Sound.sticky (fun c hc => by rwa [Dec.withErr_of_err_eq hc]) fun hnone => ?_
  rcases hok.readWord_cases with ⟨hend, e⟩ | ⟨hodd, e⟩ | ⟨w, d', e, hyield⟩ <;> rw [e]
  · exact hok.nextPass_sound hnone hend
  · exact hok.withErr hnone (.inr ⟨rfl, hodd⟩)
  · exact hyield

/-- DEC_ADVANCE is its fetch and then the yield of the word's command. -/
theorem Dec.advance_eq_map (d : Dec) : d.advance = d.fetchWord.map fun r => (parse r.1, r.2.yield (parse r.1)) := by
  unfold Dec.advance
  cases d.fetchWord <;> rfl

theorem Dec.Ok.advance_sound {d : Dec} (hok : d.Ok) :
    Sound (fun r => r.2.Ok) (fun c => (d.withErr c).Ok) d.advance := by
  rw [Dec.advance_eq_map]
  exact hok.fetchWord_sound.map (fun _ h => h) fun _ h => h

end Sys2Proof.Machine
end

section
/-!
PROOF. What a step of the machine can do, by the operation or the play iteration it runs (20_memory.md rules R50, R53).
-/

namespace Sys2Proof.Machine

/-- An operation answers a state built from its unit's answer, or the state its fault leaves: what is so of both is so
of every next state. -/
theorem State.finish_map_next {α : Type} {φ : State → Prop} {s t : State} {u : UnitId} {r : Except Stop α}
    {f : α → State} (h : s.finish u (r.map f) = .next t) (hok : ∀ x, r = .ok x → φ (f x))
    (hfault : ∀ c, φ (s.takeFault u c)) : φ t := by
  rcases State.finish_eq_next.mp h with hr | ⟨c, -, rfl⟩
  · cases r with
    | ok x => exact Except.ok.inj hr ▸ hok x rfl
    | error x => cases hr
  · exact hfault c

/-- INT_APPLY answers from a buffer that exists: with the buffer the command left, or with a fault taken. -/
theorem State.intApply_next {φ : State → Prop} {s t : State} {b : Nat} {c : Instr} (h : s.intApply b c = .next t)
    (hok : ∀ x x', s.ints[b]? = some x → x.apply s.validateFrameLen c = .ok x' → φ ((s.putInt b x').answer .done))
    (hfault : ∀ code, φ (s.takeFault (.int b) code)) : φ t := by
  obtain ⟨x, hx, ⟨-, x', hr, rfl⟩ | ⟨code, -, rfl⟩⟩ := State.onInt_eq_next.mp h
  · exact hok x x' hx hr
  · exact hfault code

/-- DEC_ADVANCE answers from a decoder that exists: with the decoder it left, or with a fault taken. -/
theorem State.decAdvance_next {φ : State → Prop} {s t : State} {k : Nat} (h : s.decAdvance k = .next t)
    (hok : ∀ d c d', s.decs[k]? = some d → d.advance = .ok (c, d') → φ ((s.putDec k d').answer (.command c)))
    (hfault : ∀ code, φ (s.takeFault (.dec k) code)) : φ t := by
  unfold State.decAdvance at h
  split at h
  next => cases h
  next d hd => exact State.finish_map_next h (fun r hr => hok d r.1 r.2 hd hr) hfault

/-! ### A play iteration is DEC_ADVANCE and then INT_APPLY (70_reset_and_hazards.md rule R147 step 4) -/

/-- A command's meaning is its DEC effect and then INT_APPLY. -/
theorem exec_eq_intApply (c : Instr) (s : State) : exec c s = (s.yieldCommand c).intApply s.curBuf c := by
  have hvalidate : (s.yieldCommand c).validateFrameLen = s.validateFrameLen := by
    unfold State.yieldCommand
    split <;> rfl
  unfold State.intApply
  rw [hvalidate]
  cases c <;> rfl

/-- The command is yielded by the decoder that the fetch has just written. -/
theorem State.yieldCommand_putDec {s : State} {d : Dec} (hd : s.decs[s.cur]? = some d) (d' : Dec) (c : Instr) :
    (s.putDec s.cur d').yieldCommand c = s.putDec s.cur (d'.yield c) := by
  obtain ⟨hlt, -⟩ := List.getElem?_eq_some_iff.mp hd
  have hread : (s.putDec s.cur d').decs[(s.putDec s.cur d').cur]? = some d' := List.getElem?_set_self hlt
  rw [State.yieldCommand, hread]
  simp only [State.putDec, List.set_set]

theorem play_of_no_decoder {s : State} (hd : s.decs[s.cur]? = none) : play s = .refused .noDecoder := by
  simp only [play, fetch, hd]

/-- Where DEC_ADVANCE stops, the iteration ends with it. -/
theorem play_of_advance_error {s : State} {d : Dec} {x : Stop} (hd : s.decs[s.cur]? = some d)
    (hadvance : d.advance = .error x) : play s = s.finish (.dec s.cur) (.error x) := by
  rw [Dec.advance_eq_map] at hadvance
  cases hfetch : d.fetchWord with
  | ok r => rw [hfetch] at hadvance; cases hadvance
  | error y =>
    rw [hfetch] at hadvance
    cases hadvance
    simp only [play, fetch, hd, hfetch]

/-- Where DEC_ADVANCE yields a command, the iteration goes on as INT_APPLY of it. -/
theorem play_of_advance_ok {s : State} {d d' : Dec} {c : Instr} (hd : s.decs[s.cur]? = some d)
    (hadvance : d.advance = .ok (c, d')) : play s = (s.putDec s.cur d').intApply s.curBuf c := by
  rw [Dec.advance_eq_map] at hadvance
  cases hfetch : d.fetchWord with
  | error y => rw [hfetch] at hadvance; cases hadvance
  | ok r =>
    rw [hfetch] at hadvance
    cases hadvance
    simp only [play, fetch, hd, hfetch]
    rw [exec_eq_intApply, State.yieldCommand_putDec hd, State.putDec_curBuf]

/-- A play iteration answers from a decoder that exists: the fault of its DEC_ADVANCE, or what INT_APPLY of the
yielded command answers. -/
theorem play_next {φ : State → Prop} {s t : State} (h : play s = .next t)
    (hok : ∀ d c d', s.decs[s.cur]? = some d → d.advance = .ok (c, d') →
      (s.putDec s.cur d').intApply s.curBuf c = .next t → φ t)
    (hfault : ∀ code, φ (s.takeFault (.dec s.cur) code)) : φ t := by
  cases hd : s.decs[s.cur]? with
  | none =>
    rw [play_of_no_decoder hd] at h
    cases h
  | some d =>
    cases hadvance : d.advance with
    | ok r => exact hok d r.1 r.2 hd hadvance (play_of_advance_ok hd hadvance ▸ h)
    | error x =>
      rw [play_of_advance_error hd hadvance] at h
      rcases State.finish_eq_next.mp h with hr | ⟨code, -, rfl⟩
      · cases hr
      · exact hfault code

/-- A step is the oldest issued operation, or a play iteration where none waits (20_memory.md rule R53). -/
theorem step_of_script {s : State} {op : Op} {rest : List Op} (h : s.script = op :: rest) :
    step s = runOp op (s.takeOp rest) := by
  simp only [step, h]

theorem step_of_no_script {s : State} (h : s.script = []) : step s = play s := by
  simp only [step, h]

end Sys2Proof.Machine
end

section
/-!
PROOF. Every step keeps each decoder's stream and configuration, and the parameter VALIDATE_FRAME_LEN (10_state.md
rules R19, R24; log entry 7).
-/

namespace Sys2Proof.Machine

/-- From `s` to `t` the parameter is kept, and every decoder keeps its position and configuration. -/
def State.KeepsConfig (s t : State) : Prop :=
  t.validateFrameLen = s.validateFrameLen ∧
    ∀ (k : Nat) (d : Dec), s.decs[k]? = some d → ∃ d', t.decs[k]? = some d' ∧ d'.config = d.config

/-- A step that writes neither is no change of configuration. -/
theorem State.KeepsConfig.of_eq {s t : State} (hvalidate : t.validateFrameLen = s.validateFrameLen)
    (hdecs : t.decs = s.decs) : s.KeepsConfig t :=
  ⟨hvalidate, fun _ d hd => ⟨d, hdecs ▸ hd, rfl⟩⟩

theorem State.KeepsConfig.trans {s t u : State} (h : s.KeepsConfig t) (h' : t.KeepsConfig u) : s.KeepsConfig u := by
  obtain ⟨hvalidate, hdecs⟩ := h
  obtain ⟨hvalidate', hdecs'⟩ := h'
  refine ⟨hvalidate'.trans hvalidate, fun k d hd => ?_⟩
  obtain ⟨d', hd', hconfig⟩ := hdecs k d hd
  obtain ⟨d'', hd'', hconfig'⟩ := hdecs' k d' hd'
  exact ⟨d'', hd'', hconfig'.trans hconfig⟩

/-- A decoder replaced by one of its configuration. -/
theorem State.keepsConfig_putDec {s : State} {k : Nat} {d d' : Dec} (hd : s.decs[k]? = some d)
    (hconfig : d'.config = d.config) : s.KeepsConfig (s.putDec k d') := by
  refine ⟨rfl, fun j x hx => ?_⟩
  rw [State.putDec_decs]
  by_cases hj : k = j
  · subst hj
    obtain rfl := Option.some.inj (hd.symm.trans hx)
    obtain ⟨hlt, -⟩ := List.getElem?_eq_some_iff.mp hd
    exact ⟨d', List.getElem?_set_self hlt, hconfig⟩
  · exact ⟨x, by rw [List.getElem?_set_ne hj, hx], rfl⟩

/-- A new decoder stands after the others and leaves them (60_exceptions.md rule R140). -/
theorem State.keepsConfig_decConstruct (s : State) (blob : Bytes) (W H : BitVec 16) (frameCount : Nat) (fps : Fps) :
    s.KeepsConfig (s.decConstruct blob W H frameCount fps) := by
  refine ⟨rfl, fun k d hd => ⟨d, ?_, rfl⟩⟩
  obtain ⟨hlt, -⟩ := List.getElem?_eq_some_iff.mp hd
  exact (List.getElem?_append_left hlt).trans hd

/-- Taking a fault writes an error register, which is no part of a configuration (60_exceptions.md rule R129). -/
theorem State.keepsConfig_takeFault (s : State) (u : UnitId) (c : FaultCode) : s.KeepsConfig (s.takeFault u c) := by
  cases u with
  | enc => exact .of_eq rfl rfl
  | int b => exact .of_eq (s.recordFault_validate _ c) (s.recordFault_int_decs c b)
  | dec k =>
    cases hd : s.decs[k]? with
    | none => exact .of_eq (s.recordFault_validate _ c) (by simp [State.takeFault, State.recordFault, hd])
    | some d =>
      rw [State.takeFault_dec hd]
      exact State.keepsConfig_putDec hd (d.config_withErr c)

theorem State.keepsConfig_intReset (s : State) (b : Nat) (W H : BitVec 16) : s.KeepsConfig (s.intReset b W H) := by
  unfold State.intReset
  split
  · exact .of_eq rfl rfl
  · exact .of_eq rfl rfl

theorem State.keepsConfig_intApply {s t : State} {b : Nat} {c : Instr} (h : s.intApply b c = .next t) :
    s.KeepsConfig t :=
  State.intApply_next h (fun _ _ _ _ => .of_eq rfl rfl) (s.keepsConfig_takeFault _)

/-- An operation of ENC or of the formatter that answers writes no decoder. -/
theorem State.keepsConfig_finish {α : Type} {s t : State} {u : UnitId} {r : Except Stop α} {f : α → State}
    (h : s.finish u (r.map f) = .next t) (hvalidate : ∀ x, (f x).validateFrameLen = s.validateFrameLen)
    (hdecs : ∀ x, (f x).decs = s.decs) : s.KeepsConfig t :=
  State.finish_map_next h (fun x _ => .of_eq (hvalidate x) (hdecs x)) (s.keepsConfig_takeFault u)

theorem runOp_keepsConfig {op : Op} {s t : State} (h : runOp op s = .next t) : s.KeepsConfig t := by
  cases op with
  | encBegin | encFrameBegin | encPixel | encFrameEnd | encFinish | fmtSkip | fmtDraw =>
    exact State.keepsConfig_finish h (fun _ => rfl) (fun _ => rfl)
  | quant | fmtEnd | fmtSerialize | parseBytes | parse | drive =>
    cases h
    exact .of_eq rfl rfl
  | decConstruct blob W H frameCount fps =>
    cases h
    exact s.keepsConfig_decConstruct blob W H frameCount fps
  | decAdvance k =>
    refine State.decAdvance_next h (fun d c d' hd hadvance => ?_) (s.keepsConfig_takeFault _)
    exact State.keepsConfig_putDec hd (Dec.config_of_advance hadvance)
  | intReset b W H =>
    cases h
    exact s.keepsConfig_intReset b W H
  | intApply b c => exact State.keepsConfig_intApply h

theorem play_keepsConfig {s t : State} (h : play s = .next t) : s.KeepsConfig t := by
  refine play_next h (fun d c d' hd hadvance happly => ?_) (s.keepsConfig_takeFault _)
  exact (State.keepsConfig_putDec hd (Dec.config_of_advance hadvance)).trans (State.keepsConfig_intApply happly)

theorem step_keepsConfig {s t : State} (h : step s = .next t) : s.KeepsConfig t := by
  cases hscript : s.script with
  | nil => exact play_keepsConfig (step_of_no_script hscript ▸ h)
  | cons op rest =>
    have htake : s.KeepsConfig (s.takeOp rest) := .of_eq rfl rfl
    exact htake.trans (runOp_keepsConfig (step_of_script hscript ▸ h))

/-- Settles O39: a decoder is written by DEC_ADVANCE and by its faults only, which keep its configuration. -/
theorem streamAndConfigurationNeverChange : Obligations.StreamAndConfigurationNeverChange := by
  intro s t h
  obtain ⟨hvalidate, hdecs⟩ := step_keepsConfig h
  refine ⟨hvalidate, fun k d hd => ?_⟩
  obtain ⟨d', hd', hconfig⟩ := hdecs k d hd
  exact ⟨d', hd', Dec.config_eq_iff.mp hconfig⟩

end Sys2Proof.Machine
end

section
/-!
PROOF. `enc.O` only grows, but for ENC_BEGIN (10_state.md rule R34, 43_encoder.md rule R99).
-/

namespace Sys2Proof.Machine

/-! ### The operations of ENC append to `enc.O` -/

theorem Enc.frameBegin_O {e e' : Enc} {w h : Nat} (hr : e.frameBegin w h = .ok e') : e.O <+: e'.O := by
  obtain ⟨-, rfl⟩ := Enc.frameBegin_eq_ok hr
  exact List.prefix_rfl

theorem Enc.pixel_O {e e' : Enc} {s : Byte} (hr : e.pixel s = .ok e') : e.O <+: e'.O := by
  obtain ⟨-, -, kind, inten, count, more, -, -, -, rfl⟩ := Enc.pixel_eq_ok hr
  exact List.prefix_append e.O more

theorem Enc.frameEnd_O {e e' : Enc} (hr : e.frameEnd = .ok e') : e.O <+: e'.O := by
  obtain ⟨-, -, more, -, rfl⟩ := Enc.frameEnd_eq_ok hr
  exact List.prefix_append e.O more

theorem Enc.finish_O {F : Filter} {e : Enc} {r : Enc × Result} (hr : e.finish F = .ok r) : e.O <+: r.1.O := by
  obtain ⟨-, heq⟩ := Enc.finish_eq_ok hr
  rw [heq]

/-! ### The machine -/

/-- From `s` to `t` nothing is taken from `enc.O` and nothing in it is overwritten. -/
def State.Appends (s t : State) : Prop := s.enc.O <+: t.enc.O

theorem State.Appends.of_enc_eq {s t : State} (h : t.enc = s.enc) : s.Appends t := by
  rw [State.Appends, h]

/-- Taking a fault writes an error register, not `enc.O` (60_exceptions.md rule R129). -/
theorem State.appends_takeFault (s : State) (u : UnitId) (c : FaultCode) : s.Appends (s.takeFault u c) := by
  cases u with
  | enc => exact List.prefix_rfl
  | dec d => exact .of_enc_eq (s.recordFault_dec_enc c d)
  | int b => exact .of_enc_eq (s.recordFault_int_enc c b)

theorem State.appends_onEnc {s t : State} {r : Except Stop Enc} (h : s.onEnc r = .next t)
    (hr : ∀ e, r = .ok e → s.enc.O <+: e.O) : s.Appends t :=
  State.finish_map_next h hr (s.appends_takeFault .enc)

theorem State.appends_onFmt {s t : State} {r : Except Stop Word} (h : s.onFmt r = .next t) : s.Appends t :=
  State.finish_map_next h (fun _ _ => .of_enc_eq rfl) (s.appends_takeFault .enc)

theorem State.appends_intReset (s : State) (b : Nat) (W H : BitVec 16) : s.Appends (s.intReset b W H) := by
  unfold State.intReset
  split
  · exact .of_enc_eq rfl
  · exact .of_enc_eq rfl

theorem State.appends_intApply {s t : State} {b : Nat} {c : Instr} (h : s.intApply b c = .next t) : s.Appends t :=
  State.intApply_next h (fun _ _ _ _ => .of_enc_eq rfl) (s.appends_takeFault _)

theorem runOp_appends {op : Op} {s t : State} (h : runOp op s = .next t)
    (hbegin : ∀ W H fps, op ≠ .encBegin W H fps) : s.Appends t := by
  cases op with
  | encBegin W H fps => exact absurd rfl (hbegin W H fps)
  | encFrameBegin => exact State.appends_onEnc h fun _ => Enc.frameBegin_O
  | encPixel => exact State.appends_onEnc h fun _ => Enc.pixel_O
  | encFrameEnd => exact State.appends_onEnc h fun _ => Enc.frameEnd_O
  | encFinish => exact State.finish_map_next h (fun _ => Enc.finish_O) (s.appends_takeFault .enc)
  | fmtSkip | fmtDraw => exact State.appends_onFmt h
  | quant | fmtEnd | fmtSerialize | parseBytes | parse | decConstruct | drive =>
    cases h
    exact .of_enc_eq rfl
  | decAdvance => exact State.decAdvance_next h (fun _ _ _ _ _ => .of_enc_eq rfl) (s.appends_takeFault _)
  | intReset b W H =>
    cases h
    exact s.appends_intReset b W H
  | intApply => exact State.appends_intApply h

theorem play_appends {s t : State} (h : play s = .next t) : s.Appends t :=
  play_next h (fun _ _ d' _ _ happly => State.appends_intApply (s := s.putDec s.cur d') happly)
    (s.appends_takeFault _)

/-- Settles O47: each operation of ENC but ENC_BEGIN appends to `enc.O`, and nothing else writes it. -/
theorem encoderOutputIsAppendOnly : Obligations.EncoderOutputIsAppendOnly := by
  intro s t h hbegin
  have happends : s.Appends t := by
    cases hscript : s.script with
    | nil => exact play_appends (step_of_no_script hscript ▸ h)
    | cons op rest =>
      refine runOp_appends (s := s.takeOp rest) (step_of_script hscript ▸ h) fun W H fps hop => ?_
      exact hbegin W H fps rest (hop ▸ hscript)
  obtain ⟨more, hmore⟩ := happends
  exact ⟨more, hmore.symm⟩

end Sys2Proof.Machine
end

section
/-!
PROOF. Every step keeps the invariant of the machine, and from a state that meets it no step makes a read that has no
value (10_state.md rules R20, R28, R29, R38; 44_decoder.md rule R123).
-/

namespace Sys2Proof.Machine

/-! ### Writing one unit -/

theorem State.Inv.putEnc {s : State} {e : Enc} (hinv : s.Inv) (he : e.Ok) : (s.putEnc e).Inv :=
  { hinv with enc := he }

theorem State.Inv.putDec {s : State} {d : Dec} (hinv : s.Inv) (k : Nat) (hd : d.Ok) : (s.putDec k d).Inv :=
  { hinv with decs := fun x hx => (List.mem_or_eq_of_mem_set hx).elim (hinv.decs x) fun heq => heq ▸ hd }

theorem State.Inv.putInt {s : State} {b : Interp} (hinv : s.Inv) (k : Nat) (hb : b.Ok) : (s.putInt k b).Inv :=
  { hinv with ints := fun x hx => (List.mem_or_eq_of_mem_set hx).elim (hinv.ints x) fun heq => heq ▸ hb }

/-- The drivers' side is no part of the invariant. -/
theorem State.Inv.of_units_eq {s t : State} (hinv : s.Inv) (henc : t.enc = s.enc) (hdecs : t.decs = s.decs)
    (hints : t.ints = s.ints) : t.Inv :=
  ⟨henc ▸ hinv.enc, hdecs ▸ hinv.decs, hints ▸ hinv.ints⟩

theorem State.Inv.answer {s : State} (hinv : s.Inv) (r : Result) : (s.answer r).Inv :=
  hinv.of_units_eq rfl rfl rfl

theorem State.Inv.takeOp {s : State} (hinv : s.Inv) (rest : List Op) : (s.takeOp rest).Inv :=
  hinv.of_units_eq rfl rfl rfl

theorem State.Inv.takeFault_enc {s : State} {c : FaultCode} (hinv : s.Inv) (hc : c.isEnc = true) :
    (s.takeFault .enc c).Inv :=
  (hinv.putEnc (hinv.enc.withErr hc)).answer _

theorem State.Inv.takeFault_dec {s : State} {k : Nat} {d : Dec} {c : FaultCode} (hinv : s.Inv)
    (hd : s.decs[k]? = some d) (hc : (d.withErr c).Ok) : (s.takeFault (.dec k) c).Inv := by
  rw [State.takeFault_dec hd]
  exact (hinv.putDec k hc).answer _

theorem State.Inv.takeFault_int {s : State} {k : Nat} {b : Interp} {c : FaultCode} (hinv : s.Inv)
    (hb : s.ints[k]? = some b) (hc : c.isInt = true) : (s.takeFault (.int k) c).Inv := by
  rw [State.takeFault_int hb]
  exact (hinv.putInt k ((hinv.ints b (List.mem_of_getElem? hb)).withErr hc)).answer _

/-- A fresh decoder beside those that exist (44_decoder.md rule R109). -/
theorem State.Inv.decConstruct {s : State} (hinv : s.Inv) (blob : Bytes) (W H : BitVec 16) (frameCount : Nat)
    (fps : Fps) : (s.decConstruct blob W H frameCount fps).Inv :=
  { hinv with
    decs := fun x hx => (List.mem_append.mp hx).elim (hinv.decs x) fun hnew =>
      List.mem_singleton.mp hnew ▸ Dec.ok_construct blob W H frameCount fps }

/-- INT_RESET keeps the events a buffer has made and starts the rest anew (40_commands.md rule R72). -/
theorem State.Inv.intReset {s : State} (hinv : s.Inv) (b : Nat) (W H : BitVec 16) : (s.intReset b W H).Inv := by
  unfold State.intReset
  split
  next x hx =>
    have hout := (hinv.ints x (List.mem_of_getElem? hx)).outWf
    exact (hinv.putInt b (Interp.ok_reset W H hout)).answer _
  next =>
    exact { hinv with
      ints := fun x hx => (List.mem_append.mp hx).elim (hinv.ints x) fun hnew =>
        List.mem_singleton.mp hnew ▸ Interp.ok_reset W H nofun }

/-! ### Outcomes -/

/-- An outcome from a good state is safe: a next state is good, and no read had no value. -/
def SafeOutcome : Host.Outcome State Fault Refusal → Prop
  | .next t => t.Inv
  | .fault _ => False
  | .refused _ => True

/-- An operation with a sound result ends safely. -/
theorem State.finish_safe {α : Type} {P : α → Prop} {Q : FaultCode → Prop} {s : State} {u : UnitId}
    {r : Except Stop α} {f : α → State} (hr : Sound P Q r) (hok : ∀ x, P x → (f x).Inv)
    (hfault : ∀ c, Q c → (s.takeFault u c).Inv) : SafeOutcome (s.finish u (r.map f)) := by
  match r, hr with
  | .ok x, hx => exact hok x hx
  | .error (.raised c), hc => exact hfault c hc

theorem State.Inv.onEnc_safe {s : State} {r : Except Stop Enc} (hinv : s.Inv) (hraises : RaisesEncCodes r)
    (hok : ∀ e, r = .ok e → e.Ok) : SafeOutcome (s.onEnc r) :=
  State.finish_safe (hraises.of_answer hok) (fun _ he => (hinv.putEnc he).answer _) fun _ => hinv.takeFault_enc

theorem State.Inv.encFinish_safe {s : State} (hinv : s.Inv) : SafeOutcome s.encFinish :=
  State.finish_safe ((hinv.enc.finish_raises _).of_answer fun _ => hinv.enc.finish)
    (fun _ he => (hinv.putEnc he).answer _) fun _ => hinv.takeFault_enc

theorem State.Inv.onFmt_safe {s : State} {r : Except Stop Word} (hinv : s.Inv) (hraises : RaisesEncCodes r) :
    SafeOutcome (s.onFmt r) :=
  State.finish_safe (.sticky hinv.enc.errCode fun _ => hraises) (fun _ _ => hinv.answer _)
    fun _ => hinv.takeFault_enc

theorem State.Inv.decAdvance_safe {s : State} (hinv : s.Inv) (k : Nat) : SafeOutcome (s.decAdvance k) := by
  unfold State.decAdvance
  split
  next => trivial
  next d hd =>
    have hok := hinv.decs d (List.mem_of_getElem? hd)
    exact State.finish_safe hok.advance_sound (fun _ hx => (hinv.putDec k hx).answer _) fun _ => hinv.takeFault_dec hd

theorem State.Inv.intApply_safe {s : State} (hinv : s.Inv) (b : Nat) (c : Instr) : SafeOutcome (s.intApply b c) := by
  unfold State.intApply State.onInt
  split
  next => trivial
  next x hx =>
    have hok := hinv.ints x (List.mem_of_getElem? hx)
    exact State.finish_safe (hok.apply_sound s.validateFrameLen c) (fun _ hx' => (hinv.putInt b hx').answer _)
      fun _ => hinv.takeFault_int hx

theorem State.Inv.runOp_safe {s : State} (hinv : s.Inv) (op : Op) : SafeOutcome (runOp op s) := by
  cases op with
  | encBegin => exact hinv.onEnc_safe (Enc.beginBuild_raises _ _ _) fun _ => Enc.ok_of_beginBuild
  | encFrameBegin => exact hinv.onEnc_safe (hinv.enc.frameBegin_raises _ _) fun _ => hinv.enc.frameBegin
  | encPixel => exact hinv.onEnc_safe (hinv.enc.pixel_raises _) fun _ => hinv.enc.pixel
  | encFrameEnd => exact hinv.onEnc_safe hinv.enc.frameEnd_raises fun _ => hinv.enc.frameEnd
  | encFinish => exact hinv.encFinish_safe
  | fmtSkip c => exact hinv.onFmt_safe (fmtSkip_raises c)
  | fmtDraw c i => exact hinv.onFmt_safe (fmtDraw_raises c i)
  | quant | fmtEnd | fmtSerialize | parseBytes | parse => exact hinv.answer _
  | decConstruct blob W H frameCount fps => exact hinv.decConstruct blob W H frameCount fps
  | decAdvance k => exact hinv.decAdvance_safe k
  | intReset b W H => exact hinv.intReset b W H
  | intApply b c => exact hinv.intApply_safe b c
  | drive => exact hinv.of_units_eq rfl rfl rfl

/-- A play iteration advances a decoder that is good and applies the command to a buffer that is good. -/
theorem State.Inv.play_safe {s : State} (hinv : s.Inv) : SafeOutcome (play s) := by
  cases hd : s.decs[s.cur]? with
  | none =>
    rw [play_of_no_decoder hd]
    trivial
  | some d =>
    have hsound := (hinv.decs d (List.mem_of_getElem? hd)).advance_sound
    match hadvance : d.advance, hsound with
    | .ok (c, d'), hd' =>
      rw [play_of_advance_ok hd hadvance]
      exact (hinv.putDec s.cur hd').intApply_safe s.curBuf c
    | .error (.raised c), hc =>
      rw [play_of_advance_error hd hadvance]
      exact hinv.takeFault_dec hd hc

/-- From every state that meets the invariant, the step is safe. -/
theorem State.Inv.step_safe {s : State} (hinv : s.Inv) : SafeOutcome (step s) := by
  cases hscript : s.script with
  | nil =>
    rw [step_of_no_script hscript]
    exact hinv.play_safe
  | cons op rest =>
    rw [step_of_script hscript]
    exact (hinv.takeOp rest).runOp_safe op

/-- Settles O25: a safe step that answers a next state answers one that meets the invariant. -/
theorem stepKeepsTheInvariant : Obligations.StepKeepsTheInvariant := by
  intro s t hinv h
  have hsafe := hinv.step_safe
  rwa [h] at hsafe

/-- Settles O26: a safe step is no fault of the model. -/
theorem goodStatesStepSafely : Obligations.GoodStatesStepSafely := by
  intro s hinv f h
  have hsafe := hinv.step_safe
  rwa [h] at hsafe

end Sys2Proof.Machine
end

section
/-!
PROOF. Operations as steps, and what DEC_ADVANCE leaves unchanged (20_memory.md rules R50, R53, R54).
-/

namespace Sys2Proof.Machine

/-- DEC_ADVANCE that answers writes one decoder and the result, whether it yields a command or takes a fault: the two
writes of rule R112 and of 60_exceptions.md rule R129. -/
theorem State.decAdvance_eq_putDec {s t : State} {k : Nat} (h : s.decAdvance k = .next t) :
    ∃ d r, t = (s.putDec k d).answer r := by
  unfold State.decAdvance at h
  split at h
  next => cases h
  next d hd =>
    refine State.finish_map_next (φ := fun t => ∃ d r, t = (s.putDec k d).answer r) h (fun y _ => ?_) fun c => ?_
    · exact ⟨y.2, .command y.1, rfl⟩
    · exact ⟨d.withErr c, .fault c, State.takeFault_dec hd c⟩

/-- Settles O30: a state that differs in the decoder at `k` and the result has every other register and decoder as
before. -/
theorem advanceTouchesOnlyItsInstance : Obligations.AdvanceTouchesOnlyItsInstance := by
  intro s t k h
  obtain ⟨d, r, rfl⟩ := State.decAdvance_eq_putDec h
  have hlength : (s.decs.set k d).length = s.decs.length := List.length_set
  have hothers : ∀ j, j ≠ k → (s.decs.set k d)[j]? = s.decs[j]? := fun _ hj => List.getElem?_set_ne hj.symm
  exact ⟨rfl, rfl, hlength, hothers, rfl, rfl, rfl, rfl⟩

/-- Settles O53: the state without its oldest operation is what `takeOp` leaves. -/
theorem issuedOperationIsTheStep : Obligations.IssuedOperationIsTheStep := by
  intro s op rest hscript
  exact step_of_script hscript

end Sys2Proof.Machine
end

section
/-!
PROOF. Command words: the fields of the two layouts (30_encoding.md rules R60 to R64), PARSE and `word(c)` as inverses
(rules R65, R68), the bytes of a word (20_memory.md rule R45) and the opcode map (30_encoding.md rule R66).
-/

namespace Sys2Proof

/-! ### The fields of a word, and the word of its fields -/

/-- A count goes to bits 15:1 of a Skip's word and is read from there (rules R61, R65). -/
@[simp] theorem skipCount_encode (n : BitVec 15) : skipCount (encode (.skip n)) = n :=
  BitVec.extractLsb'_append_eq_left

/-- A count goes to bits 15:3 of a Draw's word and is read from there (rules R62, R65). -/
@[simp] theorem drawCount_encode (n : BitVec 13) (i : Intensity) : drawCount (encode (.draw n i)) = n := by
  rw [drawCount, encode, BitVec.append_assoc]
  exact BitVec.extractLsb'_append_eq_left

/-- An intensity goes to bits 2:1 of a Draw's word and is read from there (rules R62, R65). -/
@[simp] theorem drawIntensity_encode (n : BitVec 13) (i : Intensity) : drawIntensity (encode (.draw n i)) = i := by
  have hdrop : (n ++ i ++ 1#1).extractLsb' 1 2 = (n ++ i).extractLsb' 0 2 :=
    BitVec.extractLsb'_append_eq_of_le (Nat.le_refl 1)
  exact hdrop.trans BitVec.extractLsb'_append_eq_right

/-- The lowest bit of a word is its discriminator (rule R60). -/
theorem extractLsb'_zero_one_eq_isDrawWord (w : Word) : w.extractLsb' 0 1 = BitVec.ofBool (isDrawWord w) := by
  ext j hj
  simp [isDrawWord, Nat.lt_one_iff.mp hj]

/-- The count and the discriminator are all the bits of a word of layout S (rules R61, R68). -/
theorem encode_skip_field {w : Word} (h : isDrawWord w = false) : encode (.skip (skipCount w)) = w := by
  have hbit : w.extractLsb' 0 1 = 0#1 := by rw [extractLsb'_zero_one_eq_isDrawWord, h]; rfl
  rw [encode, skipCount, ← hbit]
  exact BitVec.extractLsb'_append_extractLsb' (w := 15)

/-- The count, the intensity and the discriminator are all the bits of a word of layout D (rules R62, R68). -/
theorem encode_draw_fields {w : Word} (h : isDrawWord w = true) :
    encode (.draw (drawCount w) (drawIntensity w)) = w := by
  have hbit : w.extractLsb' 0 1 = 1#1 := by rw [extractLsb'_zero_one_eq_isDrawWord, h]; rfl
  have hfields : w.extractLsb' 3 13 ++ w.extractLsb' 1 2 = w.extractLsb' 1 15 :=
    BitVec.extractLsb'_append_extractLsb'_eq_extractLsb' rfl
  rw [encode, drawCount, drawIntensity, hfields, ← hbit]
  exact BitVec.extractLsb'_append_extractLsb' (w := 15)

/-- The word that would spell Skip(0) is End's, and no other Skip's word is (rule R63). -/
theorem encode_skip_eq_zero_iff {n : BitVec 15} : encode (.skip n) = 0x0000#16 ↔ n = 0#15 := by
  rw [encode, show 0x0000#16 = 0#15 ++ 0#1 from rfl]
  exact BitVec.append_left_inj 0#1

/-! ### PARSE (42_formatter.md rule R88) -/

theorem parse_of_skipWord {w : Word} (hzero : w ≠ 0x0000#16) (h : isDrawWord w = false) :
    parse w = .skip (skipCount w) := by
  simp [parse, hzero, h]

theorem parse_of_drawWord {w : Word} (h : isDrawWord w = true) :
    parse w = .draw (drawCount w) (drawIntensity w) := by
  have hzero : w ≠ 0x0000#16 := by
    rintro rfl
    exact absurd h (by decide)
  simp [parse, hzero, h]

/-- PARSE of any word is one of three: End of the zero word, a Skip of the words with discriminator 0 that are left,
and a Draw of the words with discriminator 1. -/
theorem parse_cases (w : Word) :
    (w = 0x0000#16 ∧ parse w = .endFrame) ∨
    (w ≠ 0x0000#16 ∧ isDrawWord w = false ∧ parse w = .skip (skipCount w)) ∨
    (w ≠ 0x0000#16 ∧ isDrawWord w = true ∧ parse w = .draw (drawCount w) (drawIntensity w)) := by
  by_cases hzero : w = 0x0000#16
  · exact .inl ⟨hzero, if_pos hzero⟩
  · cases hdraw : isDrawWord w with
    | false => exact .inr (.inl ⟨hzero, rfl, parse_of_skipWord hzero hdraw⟩)
    | true => exact .inr (.inr ⟨hzero, rfl, parse_of_drawWord hdraw⟩)

/-- PARSE reads back the word of every command, the Draws of count 0 among them (rules R65, R67). -/
theorem parse_encode {i : Instr} (hwf : i.wf = true) : parse (encode i) = i := by
  cases i with
  | endFrame => rfl
  | skip n =>
    have hcount : n ≠ 0#15 := by simpa [Instr.wf] using hwf
    rw [parse_of_skipWord (encode_skip_eq_zero_iff.not.mpr hcount) (Laws.Discriminator.skip n), skipCount_encode]
  | draw n i =>
    rw [parse_of_drawWord (Laws.Discriminator.draw n i), drawCount_encode, drawIntensity_encode]

/-- The word of the command PARSE gives is the word parsed (rule R68). -/
theorem encode_parse (w : Word) : encode (parse w) = w := by
  rcases parse_cases w with ⟨rfl, hparse⟩ | ⟨-, hdraw, hparse⟩ | ⟨-, hdraw, hparse⟩
  · rfl
  · rw [hparse, encode_skip_field hdraw]
  · rw [hparse, encode_draw_fields hdraw]

/-- PARSE gives no Skip of count 0: its word would be the zero word, which is End (rule R63). -/
theorem parse_wf (w : Word) : (parse w).wf = true := by
  rcases parse_cases w with ⟨-, hparse⟩ | ⟨hzero, hdraw, hparse⟩ | ⟨-, -, hparse⟩
  · rw [hparse, Instr.wf]
  · have hcount : skipCount w ≠ 0#15 := by
      rwa [← encode_skip_field hdraw, Ne, encode_skip_eq_zero_iff] at hzero
    simpa [hparse, Instr.wf] using hcount
  · rw [hparse, Instr.wf]

/-! ### The bytes of a word (42_formatter.md rules R86, R87) -/

/-- PARSE_BYTES puts the second byte above the first. -/
theorem parseBytes_eq_append (b0 b1 : Byte) : parseBytes b0 b1 = b1 ++ b0 := by
  rw [parseBytes, BitVec.or_comm, ← BitVec.setWidth_append_eq_shiftLeft_setWidth_or]
  exact BitVec.setWidth_eq _

/-- The two bytes of a word form that word again. -/
theorem parseBytes_extractLsb' (w : Word) : parseBytes (w.extractLsb' 0 8) (w.extractLsb' 8 8) = w := by
  rw [parseBytes_eq_append]
  exact BitVec.extractLsb'_append_extractLsb' (w := 8)

/-- Decoding takes the two bytes of a word and leaves the rest. -/
theorem decode_serialize_append (w : Word) (rest : Bytes) : decode (serialize w ++ rest) = .ok (parse w, rest) := by
  rw [serialize, List.cons_append, List.cons_append, List.nil_append, decode, parseBytes_extractLsb']

/-! ### The opcode map (rule R66) -/

/-- END's mask keeps every bit, so its row covers the zero word alone. -/
theorem covers_endRow (m : String) (w : Word) : OpcodeRow.covers ⟨m, 0x0000#16, 0xFFFF#16⟩ w = (w == 0x0000#16) := by
  rw [OpcodeRow.covers, show 0xFFFF#16 = BitVec.allOnes 16 from rfl, BitVec.and_allOnes]

/-- A row whose mask is bit 0 covers the words whose discriminator is the one of its pattern. -/
theorem covers_discriminatorRow (m : String) (b : Bool) (w : Word) :
    OpcodeRow.covers ⟨m, (BitVec.ofBool b).setWidth 16, 0x0001#16⟩ w = (isDrawWord w == b) := by
  rw [OpcodeRow.covers, BitVec.and_one_eq_setWidth_ofBool_getLsbD, isDrawWord]
  cases w.getLsbD 0 <;> cases b <;> rfl

theorem covers_skipRow (m : String) (w : Word) : OpcodeRow.covers ⟨m, 0x0000#16, 0x0001#16⟩ w = !isDrawWord w :=
  (covers_discriminatorRow m false w).trans (beq_false _)

theorem covers_drawRow (m : String) (w : Word) : OpcodeRow.covers ⟨m, 0x0001#16, 0x0001#16⟩ w = isDrawWord w :=
  (covers_discriminatorRow m true w).trans (beq_true _)

/-! ### The statements -/

/-- Settles O1: the two bytes form the command's word, and PARSE reads the command back from it. -/
theorem decodeOfEncodedCommandIsTheCommand : Obligations.DecodeOfEncodedCommandIsTheCommand := by
  intro i rest hwf
  rw [encodeBytes, decode_serialize_append, parse_encode hwf]

/-- Settles O2: only the zero word has no count bit and discriminator 0, and the fields are all the bits of a word. -/
theorem everyWordIsTheWordOfItsCommand : Obligations.EveryWordIsTheWordOfItsCommand :=
  fun w => ⟨parse_wf w, encode_parse w⟩

/-- Settles O4: the rows' masks ask what PARSE asks, first for the zero word and then for the discriminator. -/
theorem firstRowOfTheOpcodeMapNamesTheCommand : Obligations.FirstRowOfTheOpcodeMapNamesTheCommand := by
  intro w
  rcases parse_cases w with ⟨rfl, hparse⟩ | ⟨hzero, hdraw, hparse⟩ | ⟨hzero, hdraw, hparse⟩
  · simp [opcodeTable, covers_endRow, hparse, Instr.mnemonic]
  · simp [opcodeTable, covers_endRow, covers_skipRow, hzero, hdraw, hparse, Instr.mnemonic]
  · simp [opcodeTable, covers_endRow, covers_skipRow, covers_drawRow, hzero, hdraw, hparse, Instr.mnemonic]

/-- Settles O5: decoding computes on the written bytes. -/
theorem writtenWordsDecodeToTheirCommands : Obligations.WrittenWordsDecodeToTheirCommands :=
  ⟨rfl, rfl, rfl, rfl, rfl, rfl, rfl⟩

end Sys2Proof
end

section
/-!
PROOF. The commands: what INT_APPLY answers on a buffer that the command fits, on one that it does not, and on one with
an error, and the same of the command played (40_commands.md rules R73 to R78); INT_RESET (rule R72).
-/

namespace Sys2Proof.Machine

/-! ### A unit written with what it holds already -/

theorem State.putDec_eq_self {s : State} {k : Nat} {d : Dec} (hd : s.decs[k]? = some d) : s.putDec k d = s := by
  obtain ⟨hlt, rfl⟩ := List.getElem?_eq_some_iff.mp hd
  rw [State.putDec, List.set_getElem_self]

theorem State.putInt_eq_self {s : State} {k : Nat} {b : Interp} (hb : s.ints[k]? = some b) : s.putInt k b = s := by
  obtain ⟨hlt, rfl⟩ := List.getElem?_eq_some_iff.mp hb
  rw [State.putInt, List.set_getElem_self]

/-! ### INT_APPLY by what its command does (60_exceptions.md rules R130, R131) -/

section intApply
variable {s : State} {k : Nat} {b : Interp} {c : Instr}

theorem State.intApply_of_ok {b' : Interp} (hb : s.ints[k]? = some b) (hnone : b.err = none)
    (happly : b.apply s.validateFrameLen c = .ok b') : s.intApply k c = .next ((s.putInt k b').answer .done) :=
  State.onInt_eq_next.mpr ⟨b, hb, .inl ⟨hnone, b', happly, rfl⟩⟩

theorem State.intApply_of_raised {code : FaultCode} (hb : s.ints[k]? = some b) (hnone : b.err = none)
    (happly : b.apply s.validateFrameLen c = .error (.raised code)) :
    s.intApply k c = .next ((s.putInt k (b.withErr code)).answer (.fault code)) :=
  State.onInt_eq_next.mpr ⟨b, hb, .inr ⟨code, .inr ⟨hnone, happly⟩, (State.takeFault_int hb code).symm⟩⟩

/-- The sticky code is recorded where it already stands, so the buffer keeps every register. -/
theorem State.intApply_of_err {code : FaultCode} (hb : s.ints[k]? = some b) (herr : b.err = some code) :
    s.intApply k c = .next (s.answer (.fault code)) := by
  have hsame : b.withErr code = b := by rw [Interp.withErr, ← herr]
  refine State.onInt_eq_next.mpr ⟨b, hb, .inr ⟨code, .inl herr, ?_⟩⟩
  rw [State.takeFault_int hb, hsame, State.putInt_eq_self hb]

end intApply

/-! ### What a command that does not fit raises -/

/-- The bounds check of a Draw and of a Skip (rule R74). -/
theorem Interp.apply_of_not_fits {b : Interp} {c : Instr} (validate : Bool) (hc : c ≠ .endFrame)
    (h : b.npix < b.offset + pixelsOf c) : b.apply validate c = .error (.raised .fIntBounds) := by
  have hfits : b.fits (pixelsOf c) = false := decide_eq_false (Nat.not_le.mpr h)
  cases c with
  | endFrame => exact absurd rfl hc
  | skip n => exact if_neg (Bool.eq_false_iff.mp hfits)
  | draw n i => exact if_neg (Bool.eq_false_iff.mp hfits)

/-- The frame-length check of an End, where VALIDATE_FRAME_LEN holds (rule R75). -/
theorem Interp.endFrame_of_short {b : Interp} (h : b.offset ≠ b.npix) :
    b.endFrame true = .error (.raised .fIntShortFrame) := by
  have hshort : b.frameWhole true = false := beq_false_of_ne h
  exact if_neg (Bool.eq_false_iff.mp hshort)

/-! ### A command played -/

/-- DEC writes no register for a Draw or a Skip, so playing one is INT_APPLY of it (rules R76, R77). -/
theorem exec_of_ne_end {c : Instr} (s : State) (hc : c ≠ .endFrame) : exec c s = s.intApply s.curBuf c := by
  rw [exec_eq_intApply, s.yieldCommand_of_ne_end hc]

/-- DEC counts an End before INT_APPLY(End) (rule R78; 44_decoder.md rule R113). -/
theorem exec_end (s : State) : exec .endFrame s =
    State.intApply { s with decs := s.decs.modify s.cur fun d => { d with fp := d.fp + 1 } } s.curBuf .endFrame := by
  rw [exec_eq_intApply, s.yieldCommand_end]

/-- The DEC effect of any command yielded: one End more where it is one (44_decoder.md rule R113). -/
theorem State.yieldCommand_eq (s : State) (c : Instr) : s.yieldCommand c = { s with
    decs := s.decs.modify s.cur fun d => { d with fp := d.fp + if c = .endFrame then 1 else 0 } } := by
  by_cases hc : c = .endFrame
  · rw [hc, s.yieldCommand_end]
    rfl
  · have hid : (fun d : Dec => { d with fp := d.fp + if c = .endFrame then 1 else 0 }) = id := by
      funext d
      rw [if_neg hc]
      rfl
    rw [hid, List.modify_id, s.yieldCommand_of_ne_end hc]

/-! ### The statements -/

/-- Settles O10: the fill writes the indices from the offset up to the offset plus the count. -/
theorem drawPaintsTheNextPixels : Obligations.DrawPaintsTheNextPixels := by
  intro n i s k b hb hnone hfits
  have happly : b.apply s.validateFrameLen (.draw n i) = .ok { b with
      buf := b.buf.fill b.offset n.toNat i, offset := b.offset + n.toNat } := Interp.draw_eq_ok.mpr ⟨hfits, rfl⟩
  have hrun := State.intApply_of_ok hb hnone happly
  refine ⟨_, _, rfl, fun p => Memory.read_fill n.toNat b.buf b.offset p i, hrun, ?_⟩
  rintro rfl
  exact (exec_of_ne_end (c := .draw n i) s nofun).trans hrun

/-- Settles O11: a Skip that fits moves the offset and no more. -/
theorem skipLeavesTheNextPixels : Obligations.SkipLeavesTheNextPixels := by
  intro n s k b hb hnone hfits
  have happly : b.apply s.validateFrameLen (.skip n) = .ok { b with offset := b.offset + n.toNat } :=
    Interp.skip_eq_ok.mpr ⟨hfits, rfl⟩
  have hrun := State.intApply_of_ok hb hnone happly
  refine ⟨_, rfl, hrun, ?_⟩
  rintro rfl
  exact (exec_of_ne_end (c := .skip n) s nofun).trans hrun

/-- Settles O12: INT_APPLY(End) writes the buffer's registers, and the count that comes before it writes the decoder's
alone. -/
theorem endRecordsTheFrameAndStartsTheNext : Obligations.EndRecordsTheFrameAndStartsTheNext := by
  intro s k b hb hnone hwhole
  have happly : b.apply s.validateFrameLen .endFrame = .ok { b with
      out := b.out ++ [b.frameOut], frames := b.frames + 1, offset := 0 } := Interp.endFrame_eq_ok.mpr ⟨hwhole, rfl⟩
  refine ⟨_, rfl, State.intApply_of_ok hb hnone happly, ?_⟩
  rintro rfl
  rw [exec_end]
  exact State.intApply_of_ok hb hnone happly

/-- Settles O13: the bounds check raises F_INT_BOUNDS before anything is written. -/
theorem outOfBoundsCommandWritesNothing : Obligations.OutOfBoundsCommandWritesNothing := by
  intro s k b hb hnone c hc hbeyond
  have hrun := State.intApply_of_raised hb hnone (Interp.apply_of_not_fits s.validateFrameLen hc hbeyond)
  refine ⟨_, rfl, hrun, ?_⟩
  rintro rfl
  exact (exec_of_ne_end s hc).trans hrun

/-- Settles O14: the frame-length check raises F_INT_SHORT_FRAME, after DEC has counted an End that is played. -/
theorem shortFrameEndFaults : Obligations.ShortFrameEndFaults := by
  intro s k b hb hnone hvalidate hshort
  have happly : b.apply s.validateFrameLen .endFrame = .error (.raised .fIntShortFrame) := by
    rw [hvalidate]
    exact Interp.endFrame_of_short hshort
  refine ⟨State.intApply_of_raised hb hnone happly, ?_⟩
  rintro rfl
  rw [exec_end]
  exact State.intApply_of_raised hb hnone happly

/-- Settles O15: the command is yielded, and INT_APPLY raises the code that stands. -/
theorem faultedInterpreterRaisesTheSameCodeAgain : Obligations.FaultedInterpreterRaisesTheSameCodeAgain := by
  intro i s b c hb herr
  rw [exec_eq_intApply, s.yieldCommand_eq]
  exact State.intApply_of_err hb herr

/-- Settles O17: the buffer at `k` is reset where it exists, and else one is added at the end. -/
theorem intResetPreparesAnEmptyBuffer : Obligations.IntResetPreparesAnEmptyBuffer := by
  intro s rest k W H hscript
  have hstep : step s = .next ((s.takeOp rest).intReset k W H) := step_of_script hscript
  have hread (p : Nat) : Memory.read [] p = none := rfl
  rw [hstep, State.intReset, State.takeOp_ints]
  cases hk : s.ints[k]? with
  | some x =>
    obtain ⟨hlt, -⟩ := List.getElem?_eq_some_iff.mp hk
    exact ⟨_, k, Interp.reset W H x.out, rfl, rfl, List.getElem?_set_self hlt, rfl, rfl, rfl, hread, rfl, rfl, rfl,
      fun _ => rfl, fun hle => absurd hlt (Nat.not_lt.mpr hle), fun _ hl => List.getElem?_set_ne hl.symm, rfl, rfl⟩
  | none =>
    have hle : s.ints.length ≤ k := List.getElem?_eq_none_iff.mp hk
    have hothers (l : Nat) (hl : l ≠ s.ints.length) : (s.ints ++ [Interp.reset W H []])[l]? = s.ints[l]? := by
      rcases Nat.lt_or_gt_of_ne hl with hlt | hgt
      · exact List.getElem?_append_left hlt
      · rw [List.getElem?_eq_none hgt.le, List.getElem?_eq_none (by simpa using hgt)]
    exact ⟨_, s.ints.length, Interp.reset W H [], rfl, rfl, List.getElem?_concat_length, rfl, rfl, rfl, hread, rfl, rfl,
      rfl, fun hlt => absurd hlt (Nat.not_lt.mpr hle), fun _ => rfl, hothers, rfl, rfl⟩

end Sys2Proof.Machine
end

section
/-!
PROOF. What the encoder's commands are, pixel by pixel: the runs it emits cover the keys they were emitted for
(43_encoder.md rules R97, R105), each is a well-formed Draw or Skip, and a stream has one End for each frame.
-/

namespace Sys2Proof.Machine

/-! ### The keys of a command's pixels -/

/-- The keys of the pixels a command covers, in raster order: the inverse of the encoder's grouping into runs (rule
R94). -/
def keysOf : Instr → List RunKey
  | .endFrame => []
  | .skip count => List.replicate count.toNat .skip
  | .draw count q => List.replicate count.toNat (.draw q)

@[simp] theorem length_keysOf (c : Instr) : (keysOf c).length = pixelsOf c := by
  cases c with
  | endFrame => rfl
  | skip n => exact List.length_replicate
  | draw n q => exact List.length_replicate

theorem RunKey.one_le_max (key : RunKey) : 1 ≤ key.kind.max := by
  cases key with
  | skip => simp
  | draw q => simp

/-- A run that fits its field is a command of as many pixels of its key. -/
theorem RunKey.keysOf_command (key : RunKey) {n : Nat} (h : n ≤ key.kind.max) :
    keysOf (key.command n) = List.replicate n key := by
  cases key with
  | skip =>
    have hcount : (BitVec.ofNat 15 n).toNat = n := Nat.mod_eq_of_lt (Nat.lt_succ_of_le h)
    rw [RunKey.command, keysOf, hcount]
  | draw q =>
    have hcount : (BitVec.ofNat 13 n).toNat = n := Nat.mod_eq_of_lt (Nat.lt_succ_of_le h)
    rw [RunKey.command, keysOf, hcount]

theorem RunKey.command_ne_end (key : RunKey) (n : Nat) : key.command n ≠ .endFrame := by
  cases key <;> exact nofun

/-- A run of at least one pixel that fits its field is a command of the spec: no Skip of count 0 (30_encoding.md rule
R63). -/
theorem RunKey.command_wf (key : RunKey) {n : Nat} (hpos : 0 < n) (h : n ≤ key.kind.max) :
    (key.command n).wf = true := by
  cases key with
  | draw q => rfl
  | skip =>
    have hcount : (BitVec.ofNat 15 n).toNat = n := Nat.mod_eq_of_lt (Nat.lt_succ_of_le h)
    refine bne_iff_ne.mpr fun hzero => ?_
    rw [hzero] at hcount
    exact absurd hcount (Nat.ne_of_lt hpos)

/-! ### Closing a run -/

theorem RunKey.keysOf_close (key : RunKey) {n : Nat} (h : n ≤ key.kind.max) :
    (key.close n).flatMap keysOf = List.replicate n key := by
  unfold RunKey.close
  split
  next => rw [List.flatMap_singleton, key.keysOf_command h]
  next hn =>
    obtain rfl : n = 0 := by omega
    rfl

/-- A command of a frame's body: a well-formed Draw or Skip (43_encoder.md rule R108 items 1 to 3). -/
def IsRun (c : Instr) : Prop := c.wf = true ∧ c ≠ .endFrame

theorem RunKey.isRun_of_mem_close {key : RunKey} {n : Nat} (h : n ≤ key.kind.max) {c : Instr}
    (hc : c ∈ key.close n) : IsRun c := by
  unfold RunKey.close at hc
  split at hc
  next hpos =>
    obtain rfl := List.mem_singleton.mp hc
    exact ⟨key.command_wf hpos h, key.command_ne_end n⟩
  next => cases hc

/-! ### The runs of a frame -/

/-- The runs emitted cover the pixels of the open run and then the pixels that are left, each with its own key. -/
theorem keysOf_emitRuns {key : RunKey} {n : Nat} (keys : List RunKey) (h : n ≤ key.kind.max) :
    (emitRuns key n keys).flatMap keysOf = List.replicate n key ++ keys := by
  induction keys generalizing key n with
  | nil => rw [emitRuns, key.keysOf_close h, List.append_nil]
  | cons k rest ih =>
    rw [emitRuns]
    split
    next hgo =>
      obtain ⟨-, rfl, hlt⟩ := hgo
      rw [ih hlt, List.replicate_succ', List.append_assoc, List.singleton_append]
    next => rw [List.flatMap_append, key.keysOf_close h, ih k.one_le_max, List.replicate_one, List.singleton_append]

theorem isRun_of_mem_emitRuns {key : RunKey} {n : Nat} {keys : List RunKey} (h : n ≤ key.kind.max) {c : Instr}
    (hc : c ∈ emitRuns key n keys) : IsRun c := by
  induction keys generalizing key n with
  | nil => exact RunKey.isRun_of_mem_close h hc
  | cons k rest ih =>
    rw [emitRuns] at hc
    split at hc
    next hgo =>
      obtain ⟨-, rfl, hlt⟩ := hgo
      exact ih hlt hc
    next => exact (List.mem_append.mp hc).elim (RunKey.isRun_of_mem_close h) (ih k.one_le_max)

/-! ### Frames and streams -/

theorem wf_of_mem_frameCommands {prev : Option (List Intensity)} {cur : List Intensity} {c : Instr}
    (hc : c ∈ frameCommands prev cur) : c.wf = true := by
  rcases List.mem_append.mp hc with hbody | hend
  · exact (isRun_of_mem_emitRuns (Nat.zero_le _) hbody).1
  · rw [List.mem_singleton.mp hend, Instr.wf]

/-- A frame has one End (rule R108 item 1). -/
theorem count_end_frameCommands (prev : Option (List Intensity)) (cur : List Intensity) :
    (frameCommands prev cur).count .endFrame = 1 := by
  have hbody : (emitRuns .skip 0 (frameKeys prev cur)).count .endFrame = 0 :=
    List.count_eq_zero.mpr fun hend => (isRun_of_mem_emitRuns (Nat.zero_le _) hend).2 rfl
  rw [frameCommands, List.count_append, hbody, List.count_singleton_self]

theorem wf_of_mem_chainCommands {prev : Option (List Intensity)} {qs : List (List Intensity)} {c : Instr}
    (hc : c ∈ chainCommands prev qs) : c.wf = true := by
  induction qs generalizing prev with
  | nil => cases hc
  | cons q rest ih => exact (List.mem_append.mp hc).elim wf_of_mem_frameCommands ih

theorem count_end_chainCommands (prev : Option (List Intensity)) (qs : List (List Intensity)) :
    (chainCommands prev qs).count .endFrame = qs.length := by
  induction qs generalizing prev with
  | nil => rfl
  | cons q rest ih =>
    rw [chainCommands, List.count_append, count_end_frameCommands, ih, List.length_cons, Nat.add_comm]

/-- The N frames and the tail (rule R102). -/
theorem length_withTail {α : Type} {F : List α} (hF : F ≠ []) : (withTail F).length = F.length + 1 := by
  cases F with
  | nil => exact absurd rfl hF
  | cons f rest => simp [withTail]

/-- The tail is a frame of the list again. -/
theorem mem_of_mem_withTail {α : Type} {F : List α} {f : α} (hf : f ∈ withTail F) : f ∈ F := by
  cases F with
  | nil => cases hf
  | cons g rest =>
    rcases List.mem_append.mp hf with hmem | htail
    · exact hmem
    · exact List.mem_singleton.mp htail ▸ List.mem_cons_self

/-- One End for each frame and one for the tail (rule R108 item 5). -/
theorem count_end_streamCommands {F : List RawFrame} (hF : F ≠ []) :
    (streamCommands F).count .endFrame = F.length + 1 := by
  rw [streamCommands, count_end_chainCommands, List.length_map, length_withTail hF]

/-- Every word of a stream is two bytes (20_memory.md rule R43). -/
theorem length_encodeStream (cs : List Instr) : (encodeStream cs).length = 2 * cs.length := by
  induction cs with
  | nil => rfl
  | cons c rest ih =>
    have hword : (encodeBytes c).length = 2 := rfl
    rw [encodeStream, List.flatMap_cons, List.length_append, ← encodeStream, ih, hword, List.length_cons]
    omega

end Sys2Proof.Machine
end

section
/-!
PROOF. The interpreter draws what the encoder saw: the commands of a frame give each pixel the level of its key, so a
frame encoded against what a buffer shows is shown after them, and a sequence of frames is shown one by one
(40_commands.md rule R79, 43_encoder.md rule R108 item 6).
-/

namespace Sys2Proof.Machine

/-! ### Painting keys -/

/-- The level of a pixel of this key, whose level before it was `old` (43_encoder.md rule R94). -/
def RunKey.level : RunKey → Option Intensity → Option Intensity
  | .skip, old => old
  | .draw q, _ => some q

/-- Each of the next pixels drawn or left as its key says. -/
def Memory.paint : Memory → Nat → List RunKey → Memory
  | m, _, [] => m
  | m, p, .skip :: keys => Memory.paint m (p + 1) keys
  | m, p, .draw q :: keys => Memory.paint (m.write p q) (p + 1) keys

theorem Memory.paint_append (m : Memory) (p : Nat) (keys keys' : List RunKey) :
    m.paint p (keys ++ keys') = (m.paint p keys).paint (p + keys.length) keys' := by
  induction keys generalizing m p with
  | nil => rfl
  | cons key rest ih =>
    have hplace : p + 1 + rest.length = p + (key :: rest).length := by
      rw [List.length_cons, Nat.add_assoc, Nat.add_comm 1]
    cases key with
    | skip => rw [List.cons_append, Memory.paint, ih, hplace, Memory.paint]
    | draw q => rw [List.cons_append, Memory.paint, ih, hplace, Memory.paint]

theorem Memory.paint_replicate_skip (m : Memory) (p n : Nat) : m.paint p (List.replicate n .skip) = m := by
  induction n generalizing p with
  | zero => rfl
  | succ n ih => exact ih (p + 1)

theorem Memory.paint_replicate_draw (m : Memory) (p n : Nat) (q : Intensity) :
    m.paint p (List.replicate n (.draw q)) = m.fill p n q := by
  induction n generalizing m p with
  | zero => rfl
  | succ n ih => exact ih (m.write p q) (p + 1)

theorem Memory.read_paint_below {m : Memory} {p j : Nat} (keys : List RunKey) (h : j < p) :
    (m.paint p keys).read j = m.read j := by
  induction keys generalizing m p with
  | nil => rfl
  | cons key rest ih =>
    cases key with
    | skip => exact ih (Nat.lt_succ_of_lt h)
    | draw q => exact (ih (Nat.lt_succ_of_lt h)).trans (Memory.read_write_other q (Nat.ne_of_lt h))

/-- Painting gives each pixel that has a key the level of that key, and leaves the pixels after them. -/
theorem Memory.read_paint (m : Memory) (p j : Nat) (keys : List RunKey) :
    (m.paint p keys).read (p + j) = (keys[j]?).elim (m.read (p + j)) fun key => key.level (m.read (p + j)) := by
  induction keys generalizing m p j with
  | nil => rfl
  | cons key rest ih =>
    cases j with
    | zero =>
      cases key with
      | skip => exact Memory.read_paint_below rest (Nat.lt_succ_self p)
      | draw q => exact (Memory.read_paint_below rest (Nat.lt_succ_self p)).trans (m.read_write_same p q)
    | succ j =>
      have hplace : p + (j + 1) = p + 1 + j := by omega
      rw [List.getElem?_cons_succ, hplace]
      cases key with
      | skip => exact ih m (p + 1) j
      | draw q =>
        have hother : (m.write p q).read (p + 1 + j) = m.read (p + 1 + j) := Memory.read_write_other q (by omega)
        rw [Memory.paint, ih, hother]

/-! ### Frames shown -/

theorem Memory.read_isSome_of_mem {m : Memory} {cell : Nat × Intensity} (h : cell ∈ m) :
    (m.read cell.1).isSome = true := by
  induction m with
  | nil => cases h
  | cons first rest ih =>
    obtain ⟨a, v⟩ := first
    unfold Memory.read
    split
    next => rfl
    next hne =>
      rcases List.mem_cons.mp h with rfl | hrest
      · exact absurd rfl hne
      · exact ih hrest

/-- A buffer that shows a frame has no element outside it. -/
theorem Shows.within {m : Memory} {q : List Intensity} (h : Shows m q) : m.within q.length = true := by
  refine List.all_eq_true.mpr fun cell hcell => decide_eq_true ?_
  have hsome := Memory.read_isSome_of_mem hcell
  by_contra hge
  rw [h, List.getElem?_eq_none (Nat.not_lt.mp hge)] at hsome
  cases hsome

/-- The keys of a frame against the frame that a buffer shows, or against nothing, turn it into the new frame
(43_encoder.md rules R95, R96, R105). -/
theorem Shows.paint_frameKeys {m : Memory} {prev : Option (List Intensity)} {cur : List Intensity}
    (hwithin : m.within cur.length = true) (hprev : ∀ old, prev = some old → old.length = cur.length ∧ Shows m old) :
    Shows (m.paint 0 (frameKeys prev cur)) cur := by
  intro p
  have hpaint := m.read_paint 0 p (frameKeys prev cur)
  rw [Nat.zero_add] at hpaint
  rw [hpaint]
  rcases Nat.lt_or_ge p cur.length with hlt | hge
  · rw [List.getElem?_eq_getElem hlt]
    cases prev with
    | none => simp [frameKeys, hlt, RunKey.level]
    | some old =>
      obtain ⟨hlen, hshows⟩ := hprev old rfl
      have hlt' : p < old.length := hlen ▸ hlt
      have hkey : (frameKeys (some old) cur)[p]? = some (pixelKey old[p] cur[p]) := by
        simp [frameKeys, hlt, hlt']
      rw [hkey, hshows p, List.getElem?_eq_getElem hlt', Option.elim_some, pixelKey]
      split
      next heq => rw [RunKey.level, heq]
      next => rfl
  · have hnokey : (frameKeys prev cur)[p]? = none := by
      cases prev with
      | none => simp [frameKeys, hge]
      | some old => simp [frameKeys, hge]
    rw [hnokey, Option.elim_none, Memory.read_outside hwithin hge, List.getElem?_eq_none hge]

theorem length_frameKeys {prev : Option (List Intensity)} {cur : List Intensity}
    (hprev : ∀ old, prev = some old → old.length = cur.length) : (frameKeys prev cur).length = cur.length := by
  cases prev with
  | none => exact List.length_map _
  | some old => rw [frameKeys, List.length_zipWith, hprev old rfl, Nat.min_self]

/-! ### Applying commands in turn -/

theorem Interp.applyAll_cons {validate : Bool} {b b' : Interp} {c : Instr} (cs : List Instr)
    (h : b.apply validate c = .ok b') : b.applyAll validate (c :: cs) = b'.applyAll validate cs := by
  rw [Interp.applyAll, h]

/-- Commands that all answer: the first does, and then the others. -/
theorem Interp.applyAll_cons_eq_ok {validate : Bool} {b b' : Interp} {c : Instr} {cs : List Instr}
    (h : b.applyAll validate (c :: cs) = .ok b') :
    ∃ b₁, b.apply validate c = .ok b₁ ∧ b₁.applyAll validate cs = .ok b' := by
  rw [Interp.applyAll] at h
  split at h
  next => cases h
  next b₁ hfirst => exact ⟨b₁, hfirst, h⟩

theorem Interp.applyAll_append {validate : Bool} {b b' : Interp} {cs : List Instr} (cs' : List Instr)
    (h : b.applyAll validate cs = .ok b') : b.applyAll validate (cs ++ cs') = b'.applyAll validate cs' := by
  induction cs generalizing b with
  | nil =>
    cases h
    rfl
  | cons c rest ih =>
    obtain ⟨b₁, hfirst, hrest⟩ := Interp.applyAll_cons_eq_ok h
    rw [List.cons_append, Interp.applyAll_cons _ hfirst, ih hrest]

/-- A Draw or a Skip that fits paints the keys of its pixels (40_commands.md rules R76, R77). -/
theorem Interp.apply_run {b : Interp} {c : Instr} (validate : Bool) (hc : c ≠ .endFrame)
    (hfits : b.offset + pixelsOf c ≤ b.npix) : b.apply validate c = .ok { b with
      buf := b.buf.paint b.offset (keysOf c), offset := b.offset + pixelsOf c } := by
  cases c with
  | endFrame => exact absurd rfl hc
  | skip n =>
    rw [keysOf, Memory.paint_replicate_skip]
    exact Interp.skip_eq_ok.mpr ⟨hfits, rfl⟩
  | draw n q =>
    rw [keysOf, Memory.paint_replicate_draw]
    exact Interp.draw_eq_ok.mpr ⟨hfits, rfl⟩

/-- Draws and Skips that fit together paint the keys of their pixels one after another. -/
theorem Interp.applyAll_runs {b : Interp} {cs : List Instr} (validate : Bool) (hcs : ∀ c ∈ cs, c ≠ .endFrame)
    (hfits : b.offset + (cs.flatMap keysOf).length ≤ b.npix) : b.applyAll validate cs = .ok { b with
      buf := b.buf.paint b.offset (cs.flatMap keysOf), offset := b.offset + (cs.flatMap keysOf).length } := by
  induction cs generalizing b with
  | nil => rfl
  | cons c rest ih =>
    obtain ⟨hc, hrest⟩ := List.forall_mem_cons.mp hcs
    rw [List.flatMap_cons, List.length_append, length_keysOf, ← Nat.add_assoc] at hfits ⊢
    rw [Interp.applyAll_cons _ (Interp.apply_run validate hc (Nat.le_of_add_right_le hfits)), ih hrest hfits,
      Memory.paint_append, length_keysOf]

/-! ### One frame -/

/-- A buffer at the start of a frame that is encoded against `prev`: it shows that frame, and where there is none it has
no element outside its own frame. -/
structure Interp.ReadyFor (b : Interp) (prev : Option (List Intensity)) : Prop where
  noError : b.err = none
  atStart : b.offset = 0
  bufWithin : b.buf.within b.npix = true
  shows : ∀ old, prev = some old → old.length = b.npix ∧ Shows b.buf old

/-- A fresh buffer is ready for the first frame (40_commands.md rule R72). -/
theorem Interp.ReadyFor.reset (W H : BitVec 16) (out : List FrameOut) : (Interp.reset W H out).ReadyFor none where
  noError := rfl
  atStart := rfl
  bufWithin := rfl
  shows := nofun

/-- A frame's runs cover its pixels exactly, each with the key of that pixel. -/
theorem Interp.ReadyFor.applyAll_emitRuns {b : Interp} {prev : Option (List Intensity)} {cur : List Intensity}
    (h : b.ReadyFor prev) (validate : Bool) (hcur : cur.length = b.npix) :
    b.applyAll validate (emitRuns .skip 0 (frameKeys prev cur)) = .ok { b with
      buf := b.buf.paint 0 (frameKeys prev cur), offset := b.npix } := by
  have hkeys : (emitRuns .skip 0 (frameKeys prev cur)).flatMap keysOf = frameKeys prev cur :=
    keysOf_emitRuns (frameKeys prev cur) (Nat.zero_le _)
  have hlength : (frameKeys prev cur).length = b.npix :=
    (length_frameKeys fun old hold => (h.shows old hold).1.trans hcur.symm).trans hcur
  have hruns := Interp.applyAll_runs (b := b) validate
    (fun c (hc : c ∈ emitRuns .skip 0 (frameKeys prev cur)) => (isRun_of_mem_emitRuns (Nat.zero_le _) hc).2)
    (by rw [hkeys, hlength, h.atStart, Nat.zero_add])
  rwa [hkeys, hlength, h.atStart, Nat.zero_add] at hruns

/-- An End on a whole frame records what the buffer holds (40_commands.md rule R78). -/
theorem Interp.apply_end_of_whole (validate : Bool) (b : Interp) (m : Memory) :
    Interp.apply validate { b with buf := m, offset := b.npix } .endFrame = .ok { b with
      buf := m, offset := 0, frames := b.frames + 1, out := b.out ++ [⟨b.frames, b.npix, m⟩] } :=
  Interp.endFrame_eq_ok.mpr ⟨fun _ => rfl, rfl⟩

/-- A frame's commands leave a buffer that shows the frame, and record it. -/
theorem Interp.ReadyFor.applyAll_frameCommands {b : Interp} {prev : Option (List Intensity)} {cur : List Intensity}
    (h : b.ReadyFor prev) (validate : Bool) (hcur : cur.length = b.npix) :
    ∃ m : Memory, Shows m cur ∧
      b.applyAll validate (frameCommands prev cur) = .ok { b with
        buf := m, frames := b.frames + 1, out := b.out ++ [⟨b.frames, b.npix, m⟩] } := by
  refine ⟨b.buf.paint 0 (frameKeys prev cur), Shows.paint_frameKeys (hcur ▸ h.bufWithin) (hcur ▸ h.shows), ?_⟩
  rw [frameCommands, Interp.applyAll_append _ (h.applyAll_emitRuns validate hcur),
    Interp.applyAll_cons _ (Interp.apply_end_of_whole validate b _), Interp.applyAll, h.atStart]

/-- Settles O18: the runs of the frame cover its pixels, each with the key that gives it its new level, and the End then
finds the frame whole. -/
theorem frameCommandsRedrawTheFrame : Obligations.FrameCommandsRedrawTheFrame := by
  intro validate b prev cur hnone hstart hcur hwithin hprev
  have hready : b.ReadyFor prev := ⟨hnone, hstart, hwithin, hcur ▸ hprev⟩
  exact hready.applyAll_frameCommands validate hcur.symm

/-! ### A sequence of frames -/

/-- The events record the frames one by one, numbered from `first` on. -/
def Records (first : Nat) (frames : List (List Intensity)) (events : List FrameOut) : Prop :=
  events.length = frames.length ∧
    ∀ (k : Nat) (q : List Intensity), frames[k]? = some q → ∃ e, events[k]? = some e ∧ e.k = first + k ∧ Shows e.cells q

theorem Records.nil (first : Nat) : Records first [] [] := ⟨rfl, nofun⟩

theorem Records.cons {first : Nat} {q : List Intensity} {frames : List (List Intensity)} {e : FrameOut}
    {events : List FrameOut} (hk : e.k = first) (hshows : Shows e.cells q) (h : Records (first + 1) frames events) :
    Records first (q :: frames) (e :: events) := by
  obtain ⟨hlength, hevents⟩ := h
  refine ⟨congrArg (· + 1) hlength, fun k q' hq' => ?_⟩
  cases k with
  | zero =>
    obtain rfl := Option.some.inj hq'
    exact ⟨e, rfl, hk, hshows⟩
  | succ k =>
    obtain ⟨e', he', hk', hshows'⟩ := hevents k q' hq'
    exact ⟨e', he', by omega, hshows'⟩

/-- The commands of a sequence of frames, each encoded against the one before it, record every frame. -/
theorem Interp.ReadyFor.applyAll_chainCommands {b : Interp} {prev : Option (List Intensity)}
    {frames : List (List Intensity)} (h : b.ReadyFor prev) (validate : Bool)
    (hframes : ∀ q ∈ frames, q.length = b.npix) :
    ∃ (m : Memory) (events : List FrameOut), Records b.frames frames events ∧
      b.applyAll validate (chainCommands prev frames) = .ok { b with
        buf := m, frames := b.frames + frames.length, out := b.out ++ events } := by
  induction frames generalizing b prev with
  | nil => exact ⟨b.buf, [], .nil _, by rw [List.append_nil]; rfl⟩
  | cons q rest ih =>
    obtain ⟨hq, hrest⟩ := List.forall_mem_cons.mp hframes
    obtain ⟨m₁, hshows, hframe⟩ := h.applyAll_frameCommands validate hq
    have hready : Interp.ReadyFor { b with
        buf := m₁, frames := b.frames + 1, out := b.out ++ [⟨b.frames, b.npix, m₁⟩] } (some q) :=
      { noError := h.noError
        atStart := h.atStart
        bufWithin := by
          have hwithin := hshows.within
          rwa [hq] at hwithin
        shows := fun old hold => Option.some.inj hold ▸ ⟨hq, hshows⟩ }
    obtain ⟨m, events, hrecords, hchain⟩ := ih hready hrest
    refine ⟨m, ⟨b.frames, b.npix, m₁⟩ :: events, .cons rfl hshows hrecords, ?_⟩
    rw [chainCommands, Interp.applyAll_append _ hframe, hchain, List.append_assoc, List.singleton_append,
      List.length_cons, Nat.add_assoc, Nat.add_comm 1]

/-- A frame has as many levels as pixels (43_encoder.md rule R105). -/
theorem RawFrame.length_levels {f : RawFrame} (hwf : f.wf = true) : f.levels.length = f.w * f.h := by
  rw [RawFrame.levels, List.length_map, beq_iff_eq.mp hwf]

/-- Settles O19: a fresh buffer is ready for the first of the N + 1 frames of the stream. -/
theorem playbackShowsTheQuantizedFrames : Obligations.PlaybackShowsTheQuantizedFrames := by
  intro validate W H F hF hdims
  have hlevels : ∀ q ∈ (withTail F).map RawFrame.levels, q.length = (Interp.reset W H []).npix := by
    refine List.forall_mem_map.mpr fun f hf => ?_
    obtain ⟨hwf, hw, hh⟩ := hdims f (mem_of_mem_withTail hf)
    rw [RawFrame.length_levels hwf, hw, hh]
    rfl
  obtain ⟨m, events, ⟨hlength, hevents⟩, hchain⟩ :=
    (Interp.ReadyFor.reset W H []).applyAll_chainCommands validate hlevels
  rw [List.length_map, length_withTail hF] at hlength hchain
  refine ⟨_, hchain, rfl, Nat.zero_add _, hlength, fun k f hf => ?_⟩
  obtain ⟨e, he, hk, hshows⟩ := hevents k f.levels (by rw [List.getElem?_map, hf]; rfl)
  exact ⟨e, he, hk.trans (Nat.zero_add k), hshows⟩

end Sys2Proof.Machine
end

section
/-!
PROOF. Playing an asset: DEC yields the commands its stream encodes one after another, play iterations apply them to the
pixel buffer, and so the machine shows the frames of ENCODE's asset (70_reset_and_hazards.md rule R147 step 4).
-/

namespace Sys2Proof.Machine

/-! ### DEC yields the commands of its stream (44_decoder.md rules R111 to R113) -/

/-- Decoding takes the first two bytes as a word. -/
theorem decode_eq_ok {bytes rest : Bytes} {c : Instr} (h : decode bytes = .ok (c, rest)) :
    ∃ b0 b1, bytes = b0 :: b1 :: rest ∧ c = parse (parseBytes b0 b1) := by
  match bytes, h with
  | b0 :: b1 :: _, rfl => exact ⟨b0, b1, rfl, rfl⟩

/-- Where the bytes at the cursor decode to a command, DEC_ADVANCE yields it and moves past its word. -/
theorem Dec.advance_of_decode {d : Dec} {c : Instr} {rest : Bytes} (hnone : d.err = none)
    (h : decode (d.P.drop d.cursor) = .ok (c, rest)) :
    d.advance = .ok (c, Dec.yield { d with cursor := d.cursor + 2, win := [] } c) ∧ d.P.drop (d.cursor + 2) = rest := by
  obtain ⟨b0, b1, hdrop, rfl⟩ := decode_eq_ok h
  have hword : d.cursor + 1 < d.P.length := by
    have hlength := congrArg List.length hdrop
    rw [List.length_drop, List.length_cons, List.length_cons] at hlength
    omega
  rw [List.drop_eq_getElem_cons (by omega), List.drop_eq_getElem_cons hword, List.cons.injEq, List.cons.injEq] at hdrop
  obtain ⟨rfl, rfl, hrest⟩ := hdrop
  refine ⟨?_, hrest⟩
  rw [Dec.advance, Dec.fetchWord, hnone, sticky_none, Dec.readWord_word hword, hnone]

/-- Where the stream goes on with the words of some commands, as many DEC_ADVANCEs yield these commands. -/
theorem Dec.advances_encodeStream {d : Dec} {cs : List Instr} {rest : Bytes} (hwf : ∀ c ∈ cs, c.wf = true)
    (hnone : d.err = none) (hwin : d.win = []) (hdrop : d.P.drop d.cursor = encodeStream cs ++ rest) :
    Dec.advances cs.length d =
      .ok (cs, { d with cursor := d.cursor + 2 * cs.length, fp := d.fp + cs.count .endFrame }) := by
  induction cs generalizing d with
  | nil => rfl
  | cons c tail ih =>
    obtain ⟨hc, htail⟩ := List.forall_mem_cons.mp hwf
    have hdecode : decode (d.P.drop d.cursor) = .ok (c, encodeStream tail ++ rest) := by
      rw [hdrop, encodeStream, List.flatMap_cons, List.append_assoc]
      exact decodeOfEncodedCommandIsTheCommand c _ hc
    obtain ⟨hadvance, hnext⟩ := Dec.advance_of_decode hnone hdecode
    rw [Dec.yield_eq] at hadvance
    have hrest := ih (d := { d with
      cursor := d.cursor + 2, win := [], fp := d.fp + if endSeen c then 1 else 0 }) htail hnone rfl hnext
    simp only [List.length_cons, Dec.advances, hadvance, hrest]
    rw [List.count_cons, ← endSeen, ← hwin]
    congr 3
    · omega
    · omega

/-- DEC_ADVANCEs that all yield: the first does, and then the others. -/
theorem Dec.advances_succ_eq_ok {n : Nat} {d d' : Dec} {cs : List Instr} (h : Dec.advances (n + 1) d = .ok (cs, d')) :
    ∃ c d₁ tail, d.advance = .ok (c, d₁) ∧ Dec.advances n d₁ = .ok (tail, d') ∧ cs = c :: tail := by
  rw [Dec.advances] at h
  split at h
  next => cases h
  next c d₁ hadvance =>
    split at h
    next => cases h
    next tail d₂ htail =>
      cases h
      exact ⟨c, d₁, tail, hadvance, htail, rfl⟩

/-! ### Play iterations -/

/-- One step that answers, and then the rest of the run. -/
theorem run_succ_of_step {s t : State} (n : Nat) (h : step s = .next t) :
    Host.Core.run core (n + 1) s = Host.Core.run core n t := by
  have hstep : core.step s = .next t := h
  simp only [Host.Core.run, hstep]

/-- A command that answers leaves the error register (40_commands.md rules R76 to R78). -/
theorem Interp.err_of_apply {b b' : Interp} {validate : Bool} {c : Instr} (h : b.apply validate c = .ok b') :
    b'.err = b.err := by
  cases c with
  | endFrame =>
    obtain ⟨-, rfl⟩ := Interp.endFrame_eq_ok.mp h
    rfl
  | skip n =>
    obtain ⟨-, rfl⟩ := Interp.skip_eq_ok.mp h
    rfl
  | draw n q =>
    obtain ⟨-, rfl⟩ := Interp.draw_eq_ok.mp h
    rfl

/-- One play iteration, where DEC_ADVANCE yields a command that the pixel buffer takes. -/
theorem play_of_advance_of_apply {s : State} {d d' : Dec} {b b' : Interp} {c : Instr}
    (hd : s.decs[s.cur]? = some d) (hb : s.ints[s.curBuf]? = some b) (hnone : b.err = none)
    (hadvance : d.advance = .ok (c, d')) (happly : b.apply s.validateFrameLen c = .ok b') :
    play s = .next (((s.putDec s.cur d').putInt s.curBuf b').answer .done) := by
  rw [play_of_advance_ok hd hadvance]
  exact State.intApply_of_ok (s := s.putDec s.cur d') hb hnone happly

/-- `n` play iterations are `n` DEC_ADVANCEs and INT_APPLY of the commands they yield: they write the decoder, the
pixel buffer and the result, and nothing else. -/
theorem run_plays {n : Nat} {s : State} {d d' : Dec} {b b' : Interp} {cs : List Instr} (hscript : s.script = [])
    (hd : s.decs[s.cur]? = some d) (hb : s.ints[s.curBuf]? = some b) (hnone : b.err = none)
    (hadvances : Dec.advances n d = .ok (cs, d')) (happly : b.applyAll s.validateFrameLen cs = .ok b') :
    ∃ r : Result, Host.Core.run core n s = .next (((s.putDec s.cur d').putInt s.curBuf b').answer r) := by
  induction n generalizing s d b cs with
  | zero =>
    cases hadvances
    cases happly
    refine ⟨s.result, ?_⟩
    rw [State.putDec_eq_self hd, State.putInt_eq_self hb]
    rfl
  | succ n ih =>
    obtain ⟨c, d₁, tail, hadvance, htail, rfl⟩ := Dec.advances_succ_eq_ok hadvances
    obtain ⟨b₁, hfirst, hrest⟩ := Interp.applyAll_cons_eq_ok happly
    obtain ⟨hltd, -⟩ := List.getElem?_eq_some_iff.mp hd
    obtain ⟨hltb, -⟩ := List.getElem?_eq_some_iff.mp hb
    have hstep := (step_of_no_script hscript).trans (play_of_advance_of_apply hd hb hnone hadvance hfirst)
    obtain ⟨r, hrun⟩ := ih (s := ((s.putDec s.cur d₁).putInt s.curBuf b₁).answer .done) hscript
      (List.getElem?_set_self hltd) (List.getElem?_set_self hltb) ((Interp.err_of_apply hfirst).trans hnone) htail hrest
    refine ⟨r, (run_succ_of_step n hstep).trans (hrun.trans ?_)⟩
    simp only [State.putDec, State.putInt, State.answer, List.set_set]

/-! ### ENCODE's asset -/

/-- Where ENCODE gives an asset, the frames passed its checks and the blob is their filtered stream (43_encoder.md rule
R105). -/
theorem encodeAsset_eq_ok {flt : Filter} {W H : Nat} {fps : Fps} {F : List RawFrame} {r : Result}
    (h : encodeAsset flt W H fps F = .ok r) :
    F ≠ [] ∧ (∀ f ∈ F, f.w = W ∧ f.h = H) ∧
      r = .asset (flt.compress (physicalStream F)) (BitVec.ofNat 16 W) (BitVec.ofNat 16 H) F.length fps := by
  rw [encodeAsset] at h
  split_ifs at h with _ _ hdims hframes
  refine ⟨fun hnil => hframes (hnil ▸ rfl), fun f hf => ?_, (Except.ok.inj h).symm⟩
  by_contra hmismatch
  exact hdims (List.any_eq_true.mpr ⟨f, hf, decide_eq_true (by omega)⟩)

/-- The decoder that DEC_CONSTRUCT makes of a filtered stream is bound to that stream, with no error (00_scope.md rule
R6, 44_decoder.md rule R109). -/
theorem Dec.construct_compress (flt : Filter) (P : Bytes) (W H : BitVec 16) (frameCount : Nat) (fps : Fps) :
    Dec.construct flt (flt.compress P) W H frameCount fps =
      { P := P, cursor := 0, pass := 0, fp := 0, err := none, W := W, H := H, frameCount := frameCount, fps := fps,
        blob := flt.compress P, win := [], scratch := .initial } := by
  simp [Dec.construct]

/-- A fresh decoder over a filtered stream yields the stream's commands, and is then at its end with every End
counted. -/
theorem Dec.advances_construct {cs : List Instr} (flt : Filter) (W H : BitVec 16) (frameCount : Nat) (fps : Fps)
    (hwf : ∀ c ∈ cs, c.wf = true) :
    ∃ d, Dec.advances cs.length (Dec.construct flt (flt.compress (encodeStream cs)) W H frameCount fps) = .ok (cs, d) ∧
      d.cursor = d.L ∧ d.fp = cs.count .endFrame ∧ d.err = none := by
  rw [Dec.construct_compress]
  refine ⟨_, Dec.advances_encodeStream (rest := []) hwf rfl rfl (by rw [List.drop_zero, List.append_nil]), ?_, ?_, rfl⟩
  · exact (Nat.zero_add _).trans (length_encodeStream cs).symm
  · exact Nat.zero_add _

/-- Settles O57: DEC yields the stream's commands, and the interpreter alone shows the frames when it applies them. -/
theorem playedAssetShowsTheQuantizedFrames : Obligations.PlayedAssetShowsTheQuantizedFrames := by
  intro s W H fc fps blob F hwf hasset hscript hd hb
  obtain ⟨hF, hdims, hresult⟩ := encodeAsset_eq_ok hasset
  obtain rfl : blob = Config.filter.compress (physicalStream F) := by injection hresult
  obtain ⟨b, happly, hnone, hframes, hout, hshown⟩ :=
    playbackShowsTheQuantizedFrames s.validateFrameLen W H F hF fun f hf => ⟨hwf f hf, hdims f hf⟩
  obtain ⟨d, hadvances, hend, hfp, herr⟩ := Dec.advances_construct (cs := streamCommands F) Config.filter W H fc fps
    fun _ => wf_of_mem_chainCommands
  obtain ⟨r, hrun⟩ := run_plays hscript hd hb rfl hadvances happly
  obtain ⟨hltd, -⟩ := List.getElem?_eq_some_iff.mp hd
  obtain ⟨hltb, -⟩ := List.getElem?_eq_some_iff.mp hb
  exact ⟨_, d, b, hrun, List.getElem?_set_self hltd, hend, hfp.trans (count_end_streamCommands hF), herr,
    List.getElem?_set_self hltb, hnone, hframes, hout, hshown⟩

end Sys2Proof.Machine
end

section
/-!
PROOF. The operations without registers: QUANT as division (41_quantizer.md rules R80, R82), the bytes of a word in
arithmetic (42_formatter.md rules R86, R87), and each of these operations on the machine.
-/

namespace Sys2Proof

/-! ### A bit field as a quotient -/

/-- The bits of a vector from `start` up are its quotient by the power of two there. -/
theorem extractLsb'_eq_ofNat_div {w : Nat} (start len : Nat) (x : BitVec w) :
    x.extractLsb' start len = BitVec.ofNat len (x.toNat / 2 ^ start) := by
  rw [BitVec.extractLsb', Nat.shiftRight_eq_div_pow]

/-! ### The bytes of a word (42_formatter.md rules R86, R87) -/

/-- FMT_SERIALIZE gives the remainder of the word by 256 and then its quotient. -/
theorem serialize_eq_mod_div (w : Word) :
    serialize w = [BitVec.ofNat 8 (w.toNat % 256), BitVec.ofNat 8 (w.toNat / 256)] := by
  have hlow : w.extractLsb' 0 8 = BitVec.ofNat 8 (w.toNat % 256) := by
    apply BitVec.eq_of_toNat_eq
    rw [BitVec.extractLsb'_toNat, Nat.shiftRight_zero, BitVec.toNat_ofNat, Nat.mod_mod]
  have hhigh : w.extractLsb' 8 8 = BitVec.ofNat 8 (w.toNat / 256) := extractLsb'_eq_ofNat_div 8 8 w
  rw [serialize, hlow, hhigh]

/-- The second byte of PARSE_BYTES counts 256-fold: the first byte stays below the bits it is shifted to. -/
theorem toNat_parseBytes (b0 b1 : Byte) : (parseBytes b0 b1).toNat = b0.toNat + 256 * b1.toNat := by
  calc (parseBytes b0 b1).toNat
      = b1.toNat <<< 8 ||| b0.toNat := by rw [parseBytes_eq_append, BitVec.toNat_append]
    _ = b1.toNat <<< 8 + b0.toNat := (Nat.shiftLeft_add_eq_or_of_lt b0.isLt b1.toNat).symm
    _ = b0.toNat + 256 * b1.toNat := by rw [Nat.shiftLeft_eq]; omega

/-- `toNat_parseBytes` as an equation of words. -/
theorem parseBytes_eq_ofNat (b0 b1 : Byte) : parseBytes b0 b1 = BitVec.ofNat 16 (b0.toNat + 256 * b1.toNat) := by
  rw [← toNat_parseBytes, BitVec.ofNat_toNat, BitVec.setWidth_eq]

end Sys2Proof

namespace Sys2Proof.Machine

/-! ### The quantizer (41_quantizer.md) -/

/-- QUANT keeps the bits from 6 up, which are the quotient by 64. -/
theorem quant_eq_ofNat_div (x : Byte) : quant x = BitVec.ofNat 2 (x.toNat / 64) :=
  extractLsb'_eq_ofNat_div 6 2 x

/-- The quotient of a byte by 64 is below 4, so an intensity holds it whole. -/
theorem toNat_quant (x : Byte) : (quant x).toNat = x.toNat / 64 := by
  have hlt : x.toNat / 64 < 2 ^ 2 := Nat.div_lt_of_lt_mul x.isLt
  rw [quant_eq_ofNat_div, BitVec.toNat_ofNat, Nat.mod_eq_of_lt hlt]

/-- Settles O9: QUANT is the quotient by 64, and division by a constant is monotone (rule R82). -/
theorem quantizerDividesBySixtyFour : Obligations.QuantizerDividesBySixtyFour := by
  refine ⟨toNat_quant, fun s t hle => ?_⟩
  rw [toNat_quant, toNat_quant]
  exact Nat.div_le_div_right hle

/-! ### The operations without registers, on the machine -/

/-- FMT_END is the zero word (42_formatter.md rule R85). -/
theorem fmtEnd_eq_zero : fmtEnd = 0x0000 := rfl

/-- Settles O59: each of these operations answers its value, which the lemmas above give in arithmetic, and the answer
writes the result only. -/
theorem pureOperationsWriteOnlyTheResult : Obligations.PureOperationsWriteOnlyTheResult := by
  intro s
  refine ⟨fun x => ?quant, ?fmtEnd, fun w => ?serialize, fun b0 b1 => ?parseBytes, fun w => ?parse, fun d b => ?drive⟩
  case quant => rw [runOp, quant_eq_ofNat_div, State.answer]
  case fmtEnd => rw [runOp, fmtEnd_eq_zero, State.answer]
  case serialize => rw [runOp, serialize_eq_mod_div, State.answer]
  case parseBytes => rw [runOp, parseBytes_eq_ofNat, State.answer]
  case parse => rw [runOp, State.answer]
  case drive => rw [runOp, State.playOn]

end Sys2Proof.Machine
end

section
/-!
PROOF. The formatter and the parser (42_formatter.md): the fields of a word as quotients (rule R88), the word of a
command as a sum, FMT_SKIP and FMT_DRAW against PARSE (rule R89), and the two as steps (rules R83, R84; 60_exceptions.md
rule R130).
-/

namespace Sys2Proof

/-! ### The fields of a word in arithmetic (30_encoding.md rules R60 to R62) -/

theorem isDrawWord_eq_decide (w : Word) : isDrawWord w = decide (w.toNat % 2 = 1) :=
  Nat.testBit_zero w.toNat

/-- The 15 bits from bit 1 up hold the word's quotient by 2 whole. -/
theorem toNat_skipCount (w : Word) : (skipCount w).toNat = w.toNat / 2 := by
  have hlt : w.toNat / 2 < 2 ^ 15 := Nat.div_lt_of_lt_mul w.isLt
  rw [skipCount, extractLsb'_eq_ofNat_div, BitVec.toNat_ofNat, Nat.pow_one, Nat.mod_eq_of_lt hlt]

/-- The 13 bits from bit 3 up hold the word's quotient by 8 whole. -/
theorem toNat_drawCount (w : Word) : (drawCount w).toNat = w.toNat / 8 := by
  have hlt : w.toNat / 8 < 2 ^ 13 := Nat.div_lt_of_lt_mul w.isLt
  rw [drawCount, extractLsb'_eq_ofNat_div, BitVec.toNat_ofNat, show 2 ^ 3 = 8 from rfl, Nat.mod_eq_of_lt hlt]

/-- Of the word's quotient by 2, the intensity keeps 2 bits. -/
theorem toNat_drawIntensity (w : Word) : (drawIntensity w).toNat = w.toNat / 2 % 4 := by
  rw [drawIntensity, extractLsb'_eq_ofNat_div, BitVec.toNat_ofNat, Nat.pow_one]

/-! ### The word of a command in arithmetic (30_encoding.md rule R65) -/

/-- The high part of an append counts by the power of two of the low part's width. -/
theorem toNat_append_eq_add {v w : Nat} (x : BitVec v) (y : BitVec w) :
    (x ++ y).toNat = 2 ^ w * x.toNat + y.toNat := by
  rw [BitVec.toNat_append, ← Nat.shiftLeft_add_eq_or_of_lt y.isLt, Nat.shiftLeft_eq, Nat.mul_comm]

/-- Layout S of a count, whether the field holds it or keeps its low 15 bits. -/
theorem encode_skip_ofNat (c : Nat) : encode (.skip (BitVec.ofNat 15 c)) = BitVec.ofNat 16 (2 * c) := by
  apply BitVec.eq_of_toNat_eq
  rw [encode, toNat_append_eq_add, BitVec.toNat_ofNat, BitVec.toNat_ofNat, BitVec.toNat_ofNat]
  omega

/-- Layout D of a count and an intensity, whether the field holds the count or keeps its low 13 bits. -/
theorem encode_draw_ofNat (c : Nat) (i : Intensity) :
    encode (.draw (BitVec.ofNat 13 c) i) = BitVec.ofNat 16 (8 * c + 2 * i.toNat + 1) := by
  apply BitVec.eq_of_toNat_eq
  rw [encode, toNat_append_eq_add, toNat_append_eq_add, BitVec.toNat_ofNat, BitVec.toNat_ofNat, BitVec.toNat_ofNat]
  omega

/-! ### The words and bytes read -/

/-- Settles O3: a word's parity is its discriminator, and its fields are the quotients above. That a Skip's count is at
least 1 is what `parse_wf` says of a word that is not End's. -/
theorem parseReadsTheFieldsOfBothLayouts : Obligations.ParseReadsTheFieldsOfBothLayouts := by
  intro w
  refine ⟨?zero, fun hzero heven => ?even, fun hodd => ?odd⟩
  case zero =>
    rintro rfl
    rfl
  case even =>
    have hskip : isDrawWord w = false := by simp [isDrawWord_eq_decide, heven]
    have hpos : w.toNat ≠ 0 := BitVec.toNat_ne.mp hzero
    refine ⟨skipCount w, parse_of_skipWord hzero hskip, toNat_skipCount w, ?_⟩
    rw [toNat_skipCount]
    omega
  case odd =>
    have hdraw : isDrawWord w = true := by simp [isDrawWord_eq_decide, hodd]
    exact ⟨drawCount w, drawIntensity w, parse_of_drawWord hdraw, toNat_drawCount w, toNat_drawIntensity w⟩

/-- Settles O6: PARSE_BYTES and FMT_SERIALIZE in arithmetic. -/
theorem wordsAreLittleEndian : Obligations.WordsAreLittleEndian :=
  ⟨toNat_parseBytes, serialize_eq_mod_div⟩

end Sys2Proof

namespace Sys2Proof.Machine

/-! ### The formatter's words parsed (rule R89, first half) -/

/-- A count that FMT_SKIP takes fits its field, and its word parses to the Skip of it. -/
theorem parse_of_fmtSkip {c : Nat} {w : Word} (h : fmtSkip c = .ok w) : ∃ n, parse w = .skip n ∧ n.toNat = c := by
  obtain ⟨hpos, hmax, rfl⟩ := fmtSkip_eq_ok.mp h
  have hfits : (BitVec.ofNat 15 c).toNat = c := Nat.mod_eq_of_lt (Nat.lt_succ_of_le hmax)
  have hne : BitVec.ofNat 15 c ≠ 0#15 := by
    intro hzero
    rw [hzero] at hfits
    exact hpos.ne hfits
  exact ⟨BitVec.ofNat 15 c, parse_encode (bne_iff_ne.mpr hne), hfits⟩

/-- A count that FMT_DRAW takes fits its field, and its word parses to the Draw of it in that intensity. -/
theorem parse_of_fmtDraw {c : Nat} {i : Intensity} {w : Word} (h : fmtDraw c i = .ok w) :
    ∃ n, parse w = .draw n i ∧ n.toNat = c := by
  obtain ⟨-, hmax, rfl⟩ := fmtDraw_eq_ok.mp h
  exact ⟨BitVec.ofNat 13 c, parse_encode rfl, Nat.mod_eq_of_lt (Nat.lt_succ_of_le hmax)⟩

/-! ### The parsed commands formatted (rule R89, second half) -/

/-- PARSE gives no Skip of count 0, so FMT_SKIP takes the count of every Skip it gives. -/
theorem fmtSkip_of_parse {w : Word} {n : BitVec 15} (h : parse w = .skip n) : fmtSkip n.toNat = .ok w := by
  have hne : n ≠ 0#15 := by simpa [h, Instr.wf] using parse_wf w
  have hword : w = encode (.skip n) := by rw [← h, encode_parse]
  have hpos : 0 < n.toNat := Nat.pos_of_ne_zero (BitVec.toNat_ne.mp hne)
  refine fmtSkip_eq_ok.mpr ⟨hpos, Nat.le_of_lt_succ n.isLt, ?_⟩
  rw [BitVec.ofNat_toNat, BitVec.setWidth_eq, hword]

theorem fmtDraw_of_parse {w : Word} {n : BitVec 13} {i : Intensity} (h : parse w = .draw n i) (hpos : 1 ≤ n.toNat) :
    fmtDraw n.toNat i = .ok w := by
  have hword : w = encode (.draw n i) := by rw [← h, encode_parse]
  refine fmtDraw_eq_ok.mpr ⟨hpos, Nat.le_of_lt_succ n.isLt, ?_⟩
  rw [BitVec.ofNat_toNat, BitVec.setWidth_eq, hword]

/-! ### The formatter on the machine (rules R83, R84) -/

/-- What FMT_SKIP and FMT_DRAW share: `w` for a count from 1 to `max`, and the fault of any other. -/
def packCount (max c : Nat) (w : Word) : Except Stop Word :=
  if c = 0 then .error (.raised .eZeroRun)
  else if max < c then .error (.raised .eFieldOverflow)
  else .ok w

theorem fmtSkip_eq_packCount (c : Nat) : fmtSkip c = packCount 32767 c (BitVec.ofNat 16 (2 * c)) := by
  rw [← encode_skip_ofNat]
  rfl

theorem fmtDraw_eq_packCount (c : Nat) (i : Intensity) :
    fmtDraw c i = packCount 8191 c (BitVec.ofNat 16 (8 * c + 2 * i.toNat + 1)) := by
  rw [← encode_draw_ofNat]
  rfl

/-- A formatter operation with no error set answers its word or takes its fault in ENC's register. -/
theorem State.onFmt_packCount {s : State} (hnone : s.enc.err = none) (max c : Nat) (w : Word) :
    s.onFmt (packCount max c w) = .next
      (if c = 0 then s.takeFault .enc .eZeroRun
       else if max < c then s.takeFault .enc .eFieldOverflow
       else s.answer (.word w)) := by
  rw [State.onFmt, hnone, sticky_none, packCount]
  split_ifs <;> rfl

/-! ### The statements -/

/-- Settles O7. A word of the formatter parses to End, or to a Skip, or to a Draw of a count it takes, so it parses to
no Draw of count 0. -/
theorem formattingAndParsingAreInverse : Obligations.FormattingAndParsingAreInverse := by
  refine ⟨fun c hpos hmax => ?skip, fun c i hpos hmax => ?draw, rfl, fun w => ?bytes, fun w h => ?ofEnd,
    fun _ _ => fmtSkip_of_parse, fun _ _ _ => fmtDraw_of_parse, fun w i h => ⟨?notEnd, fun c hc => ?notSkip,
    fun c j hc => ?notDraw⟩⟩
  case skip =>
    have hok := fmtSkip_eq_ok.mpr ⟨hpos, hmax, rfl⟩
    exact ⟨_, (parse_of_fmtSkip hok).imp fun _ hparse => ⟨hok, hparse⟩⟩
  case draw =>
    have hok := fmtDraw_eq_ok (i := i).mpr ⟨hpos, hmax, rfl⟩
    exact ⟨_, (parse_of_fmtDraw hok).imp fun _ hparse => ⟨hok, hparse⟩⟩
  case bytes => exact ⟨_, _, rfl, parseBytes_extractLsb' w⟩
  case ofEnd => rw [fmtEnd, ← h, encode_parse]
  case notEnd =>
    rintro rfl
    cases h
  case notSkip =>
    obtain ⟨n, hparse, -⟩ := parse_of_fmtSkip hc
    cases h.symm.trans hparse
  case notDraw =>
    obtain ⟨hpos, -, -⟩ := fmtDraw_eq_ok.mp hc
    obtain ⟨n, hparse, rfl⟩ := parse_of_fmtDraw hc
    cases h.symm.trans hparse
    exact Nat.lt_irrefl 0 hpos

/-- Settles O8: the issued operation is the step, and taking ENC's fault writes `enc.err` and the result. -/
theorem formatterPacksACountOrRecordsTheFault : Obligations.FormatterPacksACountOrRecordsTheFault := by
  intro s rest c i hnone
  have htaken : (s.takeOp rest).enc.err = none := hnone
  refine ⟨fun hscript => ?skip, fun hscript => ?draw⟩
  case skip =>
    rw [step_of_script hscript, runOp, fmtSkip_eq_packCount, State.onFmt_packCount htaken]
    rfl
  case draw =>
    rw [step_of_script hscript, runOp, fmtDraw_eq_packCount, State.onFmt_packCount htaken]
    rfl

end Sys2Proof.Machine
end

section
/-!
PROOF. The operations of ENC, one equation each: what ENC_FRAME_BEGIN, ENC_PIXEL, ENC_FRAME_END and ENC_FINISH answer or
raise in the phase that accepts them, and in any other (43_encoder.md rules R90 to R103), and the same on the machine.
-/

namespace Sys2Proof.Machine

/-! ### The checks before an operation (43_encoder.md rule R90) -/

section inPhase
variable {α : Type} {e : Enc} {ph : Phase}

theorem Enc.inPhase_of_phase (hnone : e.err = none) (hphase : e.phase = ph) (body : Except Stop α) :
    e.inPhase ph body = body := by
  rw [Enc.inPhase, hnone, sticky_none, if_pos hphase]

theorem Enc.inPhase_of_phase_ne (hnone : e.err = none) (hphase : e.phase ≠ ph) (body : Except Stop α) :
    e.inPhase ph body = .error (.raised .eSequence) := by
  rw [Enc.inPhase, hnone, sticky_none, if_neg hphase]

theorem Enc.inPhase_of_err {c : FaultCode} (herr : e.err = some c) (body : Except Stop α) :
    e.inPhase ph body = .error (.raised c) := by
  rw [Enc.inPhase, herr, sticky_some]

end inPhase

/-! ### An operation of ENC on the machine -/

theorem State.onEnc_ok (s : State) (e : Enc) : s.onEnc (.ok e) = .next { s with enc := e, result := .done } := rfl

theorem State.onEnc_raised (s : State) (c : FaultCode) : s.onEnc (.error (.raised c)) = .next (s.takeFault .enc c) :=
  rfl

/-! ### What each operation answers -/

theorem Enc.frameBegin_eq {e : Enc} (hnone : e.err = none) (hphase : e.phase = .between) (w h : Nat) :
    e.frameBegin w h = if w = e.W.toNat ∧ h = e.H.toNat then .ok { e.closeRun with pix := 0, phase := .inFrame }
      else .error (.raised .eDimMismatch) := by
  rw [Enc.frameBegin, Enc.inPhase_of_phase hnone hphase, ← ite_not]
  simp only [ne_eq, not_or, not_not]

theorem Enc.pixel_of_full {e : Enc} (hnone : e.err = none) (hphase : e.phase = .inFrame) (hpix : e.pix = e.npix)
    (x : Byte) : e.pixel x = .error (.raised .ePixelCount) := by
  rw [Enc.pixel, Enc.inPhase_of_phase hnone hphase, if_pos hpix]

/-- From `e` to `e'` a pixel of the key of `e'` is added to the open run where it extends it, and else the run is
emitted and one of this pixel begins (43_encoder.md rule R97). -/
def Enc.Accumulated (e e' : Enc) : Prop :=
  if 0 < e.count ∧ e'.key = e.key ∧ e.count < e'.key.kind.max then e'.count = e.count + 1 ∧ e'.O = e.O
  else e'.count = 1 ∧ e'.O = e.O ++ if 0 < e.count then encodeBytes (e.key.command e.count) else []

/-- ACCUMULATE writes the emission state and `enc.O` only. -/
theorem Enc.accumulate_spec {e : Enc} (k : RunKey) (hfits : e.count ≤ e.kind.max) :
    ∃ e' : Enc, e.accumulate k = .ok e' ∧
      e' = { e with kind := e'.kind, inten := e'.inten, count := e'.count, O := e'.O } ∧ e'.key = k ∧
      e.Accumulated e' := by
  refine ⟨_, Enc.accumulate_eq k hfits, ?_⟩
  split
  next hextend =>
    obtain ⟨hpos, rfl, hlt⟩ := hextend
    exact ⟨rfl, rfl, (if_pos ⟨hpos, rfl, hlt⟩).mpr ⟨rfl, rfl⟩⟩
  next hclosed =>
    rw [Enc.Accumulated, Enc.openRun_key, if_neg hclosed]
    exact ⟨by cases k <;> rfl, rfl, Enc.openRun_count _ k, by cases k <;> rfl⟩

/-- ENC_PIXEL in a frame that has a pixel left (43_encoder.md rules R93 to R97). -/
theorem Enc.pixel_spec {e : Enc} (hnone : e.err = none) (hphase : e.phase = .inFrame) (hpix : e.pix ≠ e.npix)
    (hfits : e.count ≤ e.kind.max) (hprev : e.hasPrev = true → (e.prev.read e.pix).isSome = true) (x : Byte) :
    ∃ e' : Enc, e.pixel x = .ok e' ∧
      e' = { e with prev := e.prev.write e.pix (quant x), kind := e'.kind, inten := e'.inten, count := e'.count,
                    O := e'.O, pix := e.pix + 1 } ∧
      e'.key = (if e.hasPrev = true ∧ e.prev.read e.pix = some (quant x) then .skip else .draw (quant x)) ∧
      e.Accumulated e' := by
  obtain ⟨e₁, hacc, heq, hkey, hrun⟩ :=
    Enc.accumulate_spec (e := { e with prev := e.prev.write e.pix (quant x) }) _ hfits
  refine ⟨{ e₁ with pix := e.pix + 1 }, ?_, ?_, hkey, hrun⟩
  · rw [Enc.pixel, Enc.inPhase_of_phase hnone hphase, if_neg hpix, Enc.classify_eq (quant x) hprev]
    simp only [hacc]
  · rw [heq]

theorem Enc.frameEnd_of_short {e : Enc} (hnone : e.err = none) (hphase : e.phase = .inFrame) (hpix : e.pix ≠ e.npix) :
    e.frameEnd = .error (.raised .ePixelCount) := by
  rw [Enc.frameEnd, Enc.inPhase_of_phase hnone hphase, if_pos hpix]

/-- ENC_FRAME_END in a frame that is whole (43_encoder.md rules R98, R99, R101). -/
theorem Enc.frameEnd_of_whole {e : Enc} (hnone : e.err = none) (hphase : e.phase = .inFrame) (hpix : e.pix = e.npix)
    (hfits : e.count ≤ e.kind.max) : e.frameEnd = .ok { e with
      O := e.O ++ (if 0 < e.count then encodeBytes (e.key.command e.count) else []) ++ [0, 0]
      kind := .skip
      inten := 0
      count := 0
      hasPrev := true
      frames := e.frames + 1
      phase := .between } := by
  rw [Enc.frameEnd, Enc.inPhase_of_phase hnone hphase, if_neg (not_not.mpr hpix), Enc.flushOpen_eq hfits]
  rfl

/-! ### The statements -/

/-- Settles O40: the sticky error and the phase are not looked at, and the checks come in rule R91's order. -/
theorem encBeginStartsANewBuild : Obligations.EncBeginStartsANewBuild := by
  intro s rest W H fps hscript
  rw [step_of_script hscript, runOp, Enc.beginBuild, Config.dimMax]
  split_ifs <;> rfl

/-- Settles O41: the run is closed whether or not one is open, so the answer does not depend on the emission state. -/
theorem encFrameBeginOpensTheNextFrame : Obligations.EncFrameBeginOpensTheNextFrame := by
  intro s w h hnone hphase
  rw [runOp, Enc.frameBegin_eq hnone hphase]
  split
  · rfl
  · rfl

/-- Settles O42: CLASSIFY gives the key, ACCUMULATE the run, and the write reaches one element only. -/
theorem encPixelExtendsOrEmitsTheRun : Obligations.EncPixelExtendsOrEmitsTheRun := by
  intro s x hnone hphase hpix hfits hprev
  obtain ⟨e, hpixel, heq, hkey, hrun⟩ := Enc.pixel_spec hnone hphase hpix hfits hprev x
  have hwrite : e.prev = s.enc.prev.write s.enc.pix (quant x) := by rw [heq]
  refine ⟨e, ?_, ?_, fun p => ?_, hkey, hrun⟩
  · rw [runOp, hpixel, State.onEnc_ok]
  · rw [hwrite]
    exact heq
  · rw [hwrite]
    split
    next hp => rw [hp, Memory.read_write_same]
    next hp => exact Memory.read_write_other _ hp

/-- Settles O43: the open run fits its field, so FLUSH does not fault. -/
theorem encFrameEndEmitsTheRunAndAnEnd : Obligations.EncFrameEndEmitsTheRunAndAnEnd := by
  intro s hnone hphase hpix hfits
  rw [runOp, Enc.frameEnd_of_whole hnone hphase hpix hfits, State.onEnc_ok]

/-- Settles O44: both checks on the position raise the same code, and a fault taken writes `enc.err` and the result. -/
theorem wrongSampleCountFaults : Obligations.WrongSampleCountFaults := by
  intro s hnone hphase
  refine ⟨fun hfull x => ?pixel, fun hshort => ?frameEnd⟩
  case pixel =>
    rw [runOp, Enc.pixel_of_full hnone hphase hfull]
    rfl
  case frameEnd =>
    rw [runOp, Enc.frameEnd_of_short hnone hphase hshort]
    rfl

/-- Settles O45: the phase is looked at before anything else the operation does. -/
theorem outOfPhaseOperationFaults : Obligations.OutOfPhaseOperationFaults := by
  intro s op hnone hphase
  rcases hphase with ⟨rfl | ⟨w, h, rfl⟩, hne⟩ | ⟨rfl | ⟨x, rfl⟩, hne⟩
  · rw [runOp, State.encFinish, Enc.finish, Enc.inPhase_of_phase_ne hnone hne]
    rfl
  · rw [runOp, Enc.frameBegin, Enc.inPhase_of_phase_ne hnone hne]
    rfl
  · rw [runOp, Enc.frameEnd, Enc.inPhase_of_phase_ne hnone hne]
    rfl
  · rw [runOp, Enc.pixel, Enc.inPhase_of_phase_ne hnone hne]
    rfl

/-- Settles O46: the asset is read from the registers before `enc.phase` is written. -/
theorem encFinishReturnsTheAsset : Obligations.EncFinishReturnsTheAsset := by
  intro s hnone hphase
  rw [runOp, State.encFinish, Enc.finish, Enc.inPhase_of_phase hnone hphase]
  split
  · rfl
  · rfl

end Sys2Proof.Machine
end

section
/-!
PROOF. The run emitter (43_encoder.md rules R97, R100, R105): a frame's keys may be emitted in parts wherever a run
ends, a maximal run is emitted as its expansion, and two commands of one key stand side by side only where the
first is full.
-/

namespace Sys2Proof.Machine

/-! ### Where a run ends -/

theorem RunKey.close_of_pos (key : RunKey) {n : Nat} (hpos : 0 < n) : key.close n = [key.command n] := if_pos hpos

/-- The first pixel of a frame opens a run. -/
theorem emitRuns_zero_cons (key k : RunKey) (rest : List RunKey) : emitRuns key 0 (k :: rest) = emitRuns k 1 rest := by
  rw [emitRuns, if_neg fun hpos => Nat.lt_irrefl 0 hpos.1]
  rfl

/-- An open run that the next pixel does not extend is closed, and the keys left are emitted as from no open run. -/
theorem emitRuns_eq_close_append {key : RunKey} {n : Nat} {keys : List RunKey}
    (h : keys.head? = some key → key.kind.max ≤ n) :
    emitRuns key n keys = key.close n ++ emitRuns .skip 0 keys := by
  cases keys with
  | nil => exact (List.append_nil _).symm
  | cons k rest =>
    have hclosed : ¬ (0 < n ∧ k = key ∧ n < k.kind.max) := by
      rintro ⟨-, rfl, hlt⟩
      exact Nat.not_le_of_lt hlt (h rfl)
    rw [emitRuns, if_neg hclosed, emitRuns_zero_cons]

/-- The keys after the last pixel of a run are emitted on their own. -/
theorem emitRuns_append_cons {key k : RunKey} {n : Nat} {keys : List RunKey} (rest : List RunKey)
    (h : keys.getLastD key ≠ k) :
    emitRuns key n (keys ++ k :: rest) = emitRuns key n keys ++ emitRuns .skip 0 (k :: rest) := by
  induction keys generalizing key n with
  | nil => exact emitRuns_eq_close_append fun hhead => absurd (Option.some.inj hhead).symm h
  | cons k' keys ih =>
    rw [List.getLastD_cons] at h
    rw [List.cons_append, emitRuns, emitRuns]
    split
    next hextend =>
      obtain ⟨-, rfl, -⟩ := hextend
      exact ih h
    next => rw [ih h, List.append_assoc]

/-- `emitRuns_append_cons` from no open run, where no key may stand before. -/
theorem emitRuns_zero_append_cons {k : RunKey} {keys : List RunKey} (rest : List RunKey)
    (h : keys.getLast? ≠ some k) :
    emitRuns .skip 0 (keys ++ k :: rest) = emitRuns .skip 0 keys ++ emitRuns .skip 0 (k :: rest) := by
  cases keys with
  | nil => rfl
  | cons k' keys =>
    rw [List.getLast?_cons, ← List.getLastD_eq_getLast?] at h
    rw [List.cons_append, emitRuns_zero_cons, emitRuns_zero_cons, emitRuns_append_cons rest fun hk => h (hk ▸ rfl)]

/-! ### A maximal run (30_encoding.md rule R71) -/

theorem RunKey.expand_of_lt (key : RunKey) {n : Nat} (h : n < key.kind.max) : key.expand n = key.close n := by
  rw [RunKey.expand, Nat.div_eq_of_lt h, Nat.mod_eq_of_lt h, List.replicate_zero, List.nil_append]

/-- A run longer than the field gives a full command and then the expansion of what is left. -/
theorem RunKey.expand_add_max (key : RunKey) (n : Nat) :
    key.expand (n + key.kind.max) = key.close key.kind.max ++ key.expand n := by
  have hpos : 0 < key.kind.max := key.one_le_max
  rw [RunKey.expand, Nat.add_div_right n hpos, Nat.add_mod_right, List.replicate_succ, List.cons_append,
    key.close_of_pos hpos]
  rfl

/-- A run of one key that the pixels after it do not go on is emitted as its expansion: the open run is closed when it
is full, and the remainder when the run ends. -/
theorem emitRuns_replicate_append (key : RunKey) (n : Nat) {after : List RunKey} (h : after.head? ≠ some key) :
    emitRuns .skip 0 (List.replicate n key ++ after) = key.expand n ++ emitRuns .skip 0 after := by
  have hmax := key.one_le_max
  induction n using Nat.strong_induction_on with | _ n ih => ?_
  rcases Nat.lt_or_ge n key.kind.max with hlt | hge
  · rw [key.expand_of_lt hlt]
    cases n with
    | zero => rfl
    | succ m =>
      rw [List.replicate_succ, List.cons_append, emitRuns_zero_cons,
        emitRuns_extend key after m 1 Nat.one_pos (by omega),
        emitRuns_eq_close_append fun hhead => absurd hhead h, Nat.add_comm]
  · obtain ⟨m, rfl⟩ := Nat.exists_eq_add_of_le' hge
    have hsplit : List.replicate (m + key.kind.max) key =
        key :: (List.replicate (key.kind.max - 1) key ++ List.replicate m key) := by
      rw [← List.replicate_add, ← List.replicate_succ]
      congr 1
      omega
    rw [hsplit, List.cons_append, List.append_assoc, emitRuns_zero_cons,
      emitRuns_extend key _ (key.kind.max - 1) 1 Nat.one_pos (by omega), Nat.add_sub_cancel' hmax,
      emitRuns_eq_close_append fun _ => Nat.le_refl _, ih m (by omega), RunKey.expand_add_max, List.append_assoc]

/-- The expansion is what a frame of the run alone gives. -/
theorem RunKey.expand_eq_emitRuns (key : RunKey) (n : Nat) :
    key.expand n = emitRuns .skip 0 (List.replicate n key) := by
  have hrun := emitRuns_replicate_append key n (after := []) nofun
  rw [List.append_nil] at hrun
  rw [hrun]
  exact (List.append_nil _).symm

/-! ### What a command of the emitter is -/

theorem RunKey.pixelsOf_command (key : RunKey) {n : Nat} (h : n ≤ key.kind.max) : pixelsOf (key.command n) = n := by
  rw [← length_keysOf, key.keysOf_command h, List.length_replicate]

theorem length_flatMap_keysOf (cs : List Instr) : (cs.flatMap keysOf).length = pixelsOfAll cs := by
  simp only [List.length_flatMap, length_keysOf, pixelsOfAll]

/-- The counts of the commands sum to the pixels they were emitted for (43_encoder.md rule R108 item 3). -/
theorem pixelsOfAll_emitRuns (keys : List RunKey) : pixelsOfAll (emitRuns .skip 0 keys) = keys.length := by
  rw [← length_flatMap_keysOf, keysOf_emitRuns keys (Nat.zero_le _), List.replicate_zero, List.nil_append]

/-- A command of at least one pixel, within its field, whose key is that of a pixel of the frame (43_encoder.md rule
R108 items 2 to 4). -/
def IsRunOf (keys : List RunKey) (c : Instr) : Prop :=
  ∃ key ∈ keys, ∃ n, 1 ≤ n ∧ n ≤ key.kind.max ∧ c = key.command n

theorem IsRunOf.mono {keys keys' : List RunKey} {c : Instr} (h : IsRunOf keys c) (hsub : keys ⊆ keys') :
    IsRunOf keys' c := by
  obtain ⟨key, hmem, hrun⟩ := h
  exact ⟨key, hsub hmem, hrun⟩

theorem isRunOf_of_mem_close {key : RunKey} {n : Nat} {c : Instr} (h : n ≤ key.kind.max) (hc : c ∈ key.close n) :
    IsRunOf (List.replicate n key) c := by
  unfold RunKey.close at hc
  split at hc
  next hpos => exact ⟨key, List.mem_replicate.mpr ⟨hpos.ne', rfl⟩, n, hpos, h, List.mem_singleton.mp hc⟩
  next => cases hc

/-- A command that is emitted is a run of the open run's key or of a key that is left. -/
theorem isRunOf_of_mem_emitRuns {key : RunKey} {n : Nat} {keys : List RunKey} {c : Instr} (h : n ≤ key.kind.max)
    (hc : c ∈ emitRuns key n keys) : IsRunOf (List.replicate n key ++ keys) c := by
  induction keys generalizing key n with
  | nil => exact (isRunOf_of_mem_close h hc).mono (List.subset_append_left _ _)
  | cons k rest ih =>
    rw [emitRuns] at hc
    split at hc
    next hextend =>
      obtain ⟨-, rfl, hlt⟩ := hextend
      rw [List.append_cons, ← List.replicate_succ']
      exact ih hlt hc
    next =>
      rcases List.mem_append.mp hc with hclosed | hrest
      · exact (isRunOf_of_mem_close h hclosed).mono (List.subset_append_left _ _)
      · exact (ih k.one_le_max hrest).mono (List.subset_append_right _ _)

/-- Settles O48: the frame is emitted in parts at the ends of the run, which is emitted as its expansion. -/
theorem longRunsAreSplit : Obligations.LongRunsAreSplit := by
  intro key n hn
  have hsplit (before after : List RunKey) (hbefore : before.getLast? ≠ some key) (hafter : after.head? ≠ some key) :
      emitRuns .skip 0 (before ++ List.replicate n key ++ after) =
        emitRuns .skip 0 before ++ key.expand n ++ emitRuns .skip 0 after := by
    obtain ⟨m, rfl⟩ := Nat.exists_eq_add_of_le' hn
    rw [List.append_assoc, List.replicate_succ, List.cons_append, emitRuns_zero_append_cons _ hbefore,
      ← List.cons_append, ← List.replicate_succ, emitRuns_replicate_append key (m + 1) hafter, List.append_assoc]
  refine ⟨fun before after hbefore hafter => ⟨hsplit before after hbefore hafter, fun prev cur hkeys => ?frame⟩,
    ?sum, fun c hc => ?bounds⟩
  case frame => rw [frameCommands, hkeys, hsplit before after hbefore hafter]
  case sum => rw [key.expand_eq_emitRuns, pixelsOfAll_emitRuns, List.length_replicate]
  case bounds =>
    rw [key.expand_eq_emitRuns] at hc
    obtain ⟨k, hk, m, hpos, hmax, rfl⟩ := isRunOf_of_mem_emitRuns (Nat.zero_le _) hc
    obtain rfl : k = key := List.eq_of_mem_replicate hk
    rw [k.pixelsOf_command hmax]
    exact ⟨k.command_wf hpos hmax, hpos, hmax⟩

/-! ### What a frame and a stream are -/

theorem skip_notMem_frameKeys_none (cur : List Intensity) : RunKey.skip ∉ frameKeys none cur := by
  simp [frameKeys]

/-- Settles O49: a command of the frame is a run of one of its keys, and no key is a Skip without a previous frame. -/
theorem encodedFrameIsWellFormed : Obligations.EncodedFrameIsWellFormed := by
  intro prev cur hprev
  refine ⟨emitRuns .skip 0 (frameKeys prev cur), rfl, ?sum, fun c hc => ?runs⟩
  case sum => rw [pixelsOfAll_emitRuns, length_frameKeys hprev]
  case runs =>
    obtain ⟨key, hkey, n, hpos, hmax, rfl⟩ := isRunOf_of_mem_emitRuns (Nat.zero_le _) hc
    have hcount : 1 ≤ pixelsOf (key.command n) := by rwa [key.pixelsOf_command hmax]
    cases key with
    | skip =>
      refine .inl ⟨_, rfl, hcount, ?_⟩
      rintro rfl
      exact skip_notMem_frameKeys_none cur hkey
    | draw q => exact .inr ⟨_, q, rfl, hcount⟩

theorem getLast?_chainCommands (prev : Option (List Intensity)) {qs : List (List Intensity)} (hqs : qs ≠ []) :
    (chainCommands prev qs).getLast? = some .endFrame := by
  induction qs generalizing prev with
  | nil => exact absurd rfl hqs
  | cons q rest ih =>
    rw [chainCommands]
    cases rest with
    | nil => rw [chainCommands, List.append_nil, frameCommands, List.getLast?_concat]
    | cons q' rest => rw [List.getLast?_append, ih (some q) (List.cons_ne_nil q' rest), Option.some_or]

/-- Settles O50: a word is two bytes, and the stream has at least the Ends of one frame and of its tail. -/
theorem encodedStreamEndsEveryFrame : Obligations.EncodedStreamEndsEveryFrame := by
  intro F hF
  have hends := count_end_streamCommands hF
  have hlength : (physicalStream F).length = 2 * (streamCommands F).length := length_encodeStream _
  have hframes : 0 < F.length := List.length_pos_iff.mpr hF
  have htail : (withTail F).map RawFrame.levels ≠ [] := by
    rw [← List.length_pos_iff, List.length_map, length_withTail hF]
    exact Nat.succ_pos _
  have hcount : (streamCommands F).count .endFrame ≤ (streamCommands F).length := List.count_le_length
  exact ⟨hends, getLast?_chainCommands none htail, hlength, by omega⟩

/-! ### Adjacent commands (43_encoder.md rule R108 item 7) -/

/-- The key of a command's pixels; End has none. -/
def keyOf : Instr → Option RunKey
  | .endFrame => none
  | .skip _ => some .skip
  | .draw _ q => some (.draw q)

theorem RunKey.keyOf_command (key : RunKey) (n : Nat) : keyOf (key.command n) = some key := by
  cases key <;> rfl

/-- Of two commands of one key the first is full. -/
def FullIfRepeated (c c' : Instr) : Prop :=
  ∀ key, keyOf c = some key → keyOf c' = some key → pixelsOf c = key.kind.max

/-- The command of an open run is the first to be emitted. -/
theorem keyOf_head_emitRuns {key : RunKey} {n : Nat} {keys : List RunKey} (hpos : 0 < n) {c : Instr}
    (hc : c ∈ (emitRuns key n keys).head?) : keyOf c = some key := by
  induction keys generalizing key n with
  | nil =>
    rw [emitRuns, key.close_of_pos hpos] at hc
    rw [← Option.some.inj hc, key.keyOf_command]
  | cons k rest ih =>
    rw [emitRuns] at hc
    split at hc
    next hextend =>
      obtain ⟨-, rfl, -⟩ := hextend
      exact ih (Nat.succ_pos n) hc
    next =>
      rw [key.close_of_pos hpos] at hc
      rw [← Option.some.inj hc, key.keyOf_command]

theorem RunKey.isChain_close (key : RunKey) (n : Nat) : (key.close n).IsChain FullIfRepeated := by
  unfold RunKey.close
  split
  · exact .singleton _
  · exact .nil

/-- A run is closed at a pixel of its own key only where it is full. -/
theorem isChain_emitRuns {key : RunKey} {n : Nat} (keys : List RunKey) (h : n ≤ key.kind.max) :
    (emitRuns key n keys).IsChain FullIfRepeated := by
  induction keys generalizing key n with
  | nil => exact key.isChain_close n
  | cons k rest ih =>
    rw [emitRuns]
    split
    next hextend =>
      obtain ⟨-, rfl, hlt⟩ := hextend
      exact ih hlt
    next hclosed =>
      refine (key.isChain_close n).append (ih k.one_le_max) fun c hc c' hc' key' hkey hkey' => ?_
      obtain rfl : k = key' := Option.some.inj ((keyOf_head_emitRuns Nat.one_pos hc').symm.trans hkey')
      unfold RunKey.close at hc
      split at hc
      next hpos =>
        obtain rfl : key.command n = c := Option.some.inj hc
        obtain rfl : key = k := Option.some.inj ((key.keyOf_command n).symm.trans hkey)
        have hfull : ¬ n < key.kind.max := fun hlt => hclosed ⟨hpos, rfl, hlt⟩
        rw [key.pixelsOf_command h]
        omega
      next => cases hc

/-- Settles O55: the commands of a frame's runs are full where they are repeated, and its End has no key. -/
theorem onlyAFullCommandIsRepeated : Obligations.OnlyAFullCommandIsRepeated := by
  intro prev cur before after c c' hframe
  have hchain : (frameCommands prev cur).IsChain FullIfRepeated := by
    refine (isChain_emitRuns _ (Nat.zero_le _)).append (.singleton _) fun c _ e he key _ hkey => ?_
    obtain rfl : Instr.endFrame = e := Option.some.inj he
    cases hkey
  rw [hframe, List.isChain_append_cons_cons] at hchain
  obtain ⟨-, hfull, -⟩ := hchain
  refine ⟨fun n n' hc hc' => ?skip, fun n n' i hc hc' => ?draw⟩
  case skip =>
    subst hc hc'
    exact hfull .skip rfl rfl
  case draw =>
    subst hc hc'
    exact hfull (.draw i) rfl rfl

end Sys2Proof.Machine
end

section
/-!
PROOF. The streaming build is ENCODE (43_encoder.md rules R105, R106): what the operations a host issues make of the
encoder, an invariant between frames and one within a frame, and the build that ends with ENCODE's asset or its code.
-/

namespace Sys2Proof.Machine

/-! ### Operations issued one after another -/

/-- Where `ops` wait first, and ENC is as `P` says, they run without a stop, and then ENC is as `Q` says. -/
def Achieves (P : Enc → Prop) (ops : List Op) (Q : Enc → Prop) : Prop :=
  ∀ (s : State) (rest : List Op), s.script = ops ++ rest → P s.enc →
    ∃ t : State, Host.Core.run core ops.length s = .next t ∧ t.script = rest ∧ Q t.enc

theorem run_add {s t : State} {m : Nat} (n : Nat) (h : Host.Core.run core m s = .next t) :
    Host.Core.run core (m + n) s = Host.Core.run core n t := by
  induction m generalizing s with
  | zero =>
    cases h
    rw [Nat.zero_add]
  | succ m ih =>
    rw [Nat.succ_add]
    cases hstep : core.step s with
    | next s' =>
      simp only [Host.Core.run, hstep] at h ⊢
      exact ih h
    | fault f => simp only [Host.Core.run, hstep, reduceCtorEq] at h
    | refused q => simp only [Host.Core.run, hstep, reduceCtorEq] at h

section Achieves
variable {P Q R : Enc → Prop} {ops ops' : List Op} {op : Op}

theorem Achieves.nil : Achieves P [] P := fun s _ hscript hP => ⟨s, rfl, hscript, hP⟩

theorem Achieves.append (h : Achieves P ops Q) (h' : Achieves Q ops' R) : Achieves P (ops ++ ops') R := by
  intro s rest hscript hP
  obtain ⟨t, hrun, hscript', hQ⟩ := h s (ops' ++ rest) (by rw [hscript, List.append_assoc]) hP
  obtain ⟨u, hrun', hu⟩ := h' t rest hscript' hQ
  exact ⟨u, by rw [List.length_append, run_add _ hrun, hrun'], hu⟩

theorem Achieves.cons (h : Achieves P [op] Q) (h' : Achieves Q ops R) : Achieves P (op :: ops) R := h.append h'

theorem Achieves.of_runOp
    (h : ∀ s : State, P s.enc → ∃ t, runOp op s = .next t ∧ t.script = s.script ∧ Q t.enc) : Achieves P [op] Q := by
  intro s rest hscript hP
  obtain ⟨t, hrun, hscript', hQ⟩ := h (s.takeOp rest) hP
  exact ⟨t, run_succ_of_step 0 ((step_of_script hscript).trans hrun), hscript', hQ⟩

/-- An operation of ENC that answers an encoder as `Q` says. -/
theorem Achieves.of_ok {f : Enc → Except Stop Enc} (hop : ∀ s, runOp op s = s.onEnc (f s.enc))
    (h : ∀ e, P e → ∃ e', f e = .ok e' ∧ Q e') : Achieves P [op] Q := by
  refine .of_runOp fun s hP => ?_
  obtain ⟨e', hok, hQ⟩ := h s.enc hP
  have hrun : runOp op s = .next { s with enc := e', result := .done } := by rw [hop, hok, State.onEnc_ok]
  exact ⟨_, hrun, rfl, hQ⟩

/-- ENC holds this code. -/
def Enc.Failed (c : FaultCode) (e : Enc) : Prop := e.err = some c

/-- An operation of ENC that raises a code. -/
theorem Achieves.of_raised {f : Enc → Except Stop Enc} {c : FaultCode} (hop : ∀ s, runOp op s = s.onEnc (f s.enc))
    (h : ∀ e, P e → f e = .error (.raised c)) : Achieves P [op] (Enc.Failed c) := by
  refine .of_runOp fun s hP => ?_
  have hrun : runOp op s = .next (s.takeFault .enc c) := by rw [hop, h s.enc hP, State.onEnc_raised]
  exact ⟨_, hrun, rfl, rfl⟩

end Achieves

/-! ### A sticky error (60_exceptions.md rule R131) -/

theorem runOp_of_enc_err {s : State} {op : Op} {c : FaultCode} (hop : looksAtEncErr op = true)
    (herr : s.enc.err = some c) : runOp op s = .next (s.takeFault .enc c) := by
  cases op with
  | encFrameBegin w h => rw [runOp, Enc.frameBegin, Enc.inPhase_of_err herr, State.onEnc_raised]
  | encPixel x => rw [runOp, Enc.pixel, Enc.inPhase_of_err herr, State.onEnc_raised]
  | encFrameEnd => rw [runOp, Enc.frameEnd, Enc.inPhase_of_err herr, State.onEnc_raised]
  | encFinish =>
    rw [runOp, State.encFinish, Enc.finish, Enc.inPhase_of_err herr]
    rfl
  | fmtSkip n | fmtDraw n i =>
    rw [runOp, State.onFmt, herr, sticky_some]
    rfl
  | encBegin | quant | fmtEnd | fmtSerialize | parseBytes | parse | decConstruct | decAdvance | intReset | intApply
  | drive => cases hop

theorem Achieves.of_failed (c : FaultCode) {ops : List Op} (hops : ∀ op ∈ ops, looksAtEncErr op = true) :
    Achieves (Enc.Failed c) ops (Enc.Failed c) := by
  induction ops with
  | nil => exact .nil
  | cons op rest ih =>
    obtain ⟨hop, hrest⟩ := List.forall_mem_cons.mp hops
    exact .cons (.of_runOp fun s herr => ⟨_, runOp_of_enc_err hop herr, rfl, rfl⟩) (ih hrest)

/-- The operations of frames look at the sticky error (43_encoder.md rule R90). -/
theorem looksAtEncErr_of_mem_frameOps {fs : List RawFrame} {op : Op} (h : op ∈ fs.flatMap frameOps) :
    looksAtEncErr op = true := by
  obtain ⟨f, -, hf⟩ := List.mem_flatMap.mp h
  rcases List.mem_append.mp hf with hbody | hend
  · rcases List.mem_cons.mp hbody with rfl | hpixel
    · rfl
    · obtain ⟨x, -, rfl⟩ := List.mem_map.mp hpixel
      rfl
  · obtain rfl := List.mem_singleton.mp hend
    rfl

/-! ### What is emitted -/

theorem encodeStream_append (cs cs' : List Instr) : encodeStream (cs ++ cs') = encodeStream cs ++ encodeStream cs' :=
  List.flatMap_append

theorem encodeStream_close (key : RunKey) (n : Nat) :
    encodeStream (key.close n) = if 0 < n then encodeBytes (key.command n) else [] := by
  unfold RunKey.close
  split
  · exact List.flatMap_singleton ..
  · rfl

/-- One more frame at the end is encoded against the one before it (43_encoder.md rule R105). -/
theorem chainCommands_concat (prev : Option (List Intensity)) (qs : List (List Intensity)) (q : List Intensity) :
    chainCommands prev (qs ++ [q]) = chainCommands prev qs ++ frameCommands (qs.getLast?.or prev) q := by
  induction qs generalizing prev with
  | nil => exact List.append_nil _
  | cons q' rest ih =>
    have hprev : rest.getLast?.or (some q') = (q' :: rest).getLast?.or prev := by
      rw [List.getLast?_cons]
      cases rest.getLast? with
      | none => rfl
      | some old => rfl
    rw [List.cons_append, chainCommands, chainCommands, ih, List.append_assoc, hprev]

/-- The key of a pixel: Skip exactly where the previous frame has its level there (43_encoder.md rules R94 to R96). -/
theorem getElem?_frameKeys {prev : Option (List Intensity)} {cur : List Intensity} {p : Nat} {q : Intensity}
    (hq : cur[p]? = some q) (hprev : ∀ old, prev = some old → old.length = cur.length) :
    (frameKeys prev cur)[p]? = some (if prev.bind (·[p]?) = some q then .skip else .draw q) := by
  cases prev with
  | none => simp [frameKeys, hq]
  | some old =>
    obtain ⟨hlt, -⟩ := List.getElem?_eq_some_iff.mp hq
    have hltold : p < old.length := hprev old rfl ▸ hlt
    have hold : old[p]? = some old[p] := List.getElem?_eq_getElem hltold
    rw [frameKeys, List.getElem?_zipWith, hold, hq]
    simp [pixelKey, hold]

/-- ENC_PIXEL leaves what is emitted in all as it is: what the open run and the pixels left will give stands in `enc.O`
or is still to come. -/
theorem Enc.Accumulated.emitted_eq {e e' : Enc} (hrun : e.Accumulated e') (rest : List RunKey) :
    e'.O ++ encodeStream (emitRuns e'.key e'.count rest) =
      e.O ++ encodeStream (emitRuns e.key e.count (e'.key :: rest)) := by
  unfold Enc.Accumulated at hrun
  rw [emitRuns]
  split at hrun
  next hextend =>
    obtain ⟨hpos, hkey, hlt⟩ := hextend
    obtain ⟨hcount, hO⟩ := hrun
    rw [if_pos ⟨hpos, hkey, hlt⟩, hcount, hO, hkey]
  next hclosed =>
    obtain ⟨hcount, hO⟩ := hrun
    rw [if_neg hclosed, hcount, hO, encodeStream_append, encodeStream_close, List.append_assoc]

theorem Enc.Accumulated.fits {e e' : Enc} (hrun : e.Accumulated e') : e'.count ≤ e'.kind.max := by
  unfold Enc.Accumulated at hrun
  rw [← e'.key_kind]
  split at hrun
  next hextend =>
    obtain ⟨-, -, hlt⟩ := hextend
    obtain ⟨hcount, -⟩ := hrun
    exact hcount ▸ hlt
  next =>
    obtain ⟨hcount, -⟩ := hrun
    exact hcount ▸ e'.key.one_le_max

/-! ### A build under way -/

/-- A build of `W` by `H` frames with the levels `qs` encoded so far, with no error. -/
structure Enc.Building (W H : BitVec 16) (fps : Fps) (qs : List (List Intensity)) (e : Enc) : Prop where
  noError : e.err = none
  width : e.W = W
  height : e.H = H
  rate : e.fps = fps
  counted : e.frames = qs.length
  hasPrev : e.hasPrev = qs.getLast?.isSome

/-- Between frames (43_encoder.md rule R90): `enc.prev` is the last frame, and `enc.O` the stream so far. -/
structure Enc.After (W H : BitVec 16) (fps : Fps) (qs : List (List Intensity)) (e : Enc) : Prop
    extends Enc.Building W H fps qs e where
  between : e.phase = .between
  previous : ∀ old, qs.getLast? = some old →
    old.length = W.toNat * H.toNat ∧ ∀ p < W.toNat * H.toNat, e.prev.read p = old[p]?
  output : e.O = encodeStream (chainCommands none qs)

/-- Within the frame of levels `cur`, before the pixel at `enc.pix`: `enc.prev` is that frame below this index and the
last frame from it on (43_encoder.md rule R93), and what `enc.O` lacks of the frame's runs is what the open run and the
pixels left will give. -/
structure Enc.Within (W H : BitVec 16) (fps : Fps) (qs : List (List Intensity)) (cur : List Intensity) (e : Enc) : Prop
    extends Enc.Building W H fps qs e where
  inFrame : e.phase = .inFrame
  size : cur.length = W.toNat * H.toNat
  fits : e.count ≤ e.kind.max
  written : ∀ p < e.pix, e.prev.read p = cur[p]?
  previous : ∀ old, qs.getLast? = some old →
    old.length = cur.length ∧ ∀ p < cur.length, e.pix ≤ p → e.prev.read p = old[p]?
  output : e.O ++ encodeStream (emitRuns e.key e.count ((frameKeys qs.getLast? cur).drop e.pix)) =
    encodeStream (chainCommands none qs ++ emitRuns .skip 0 (frameKeys qs.getLast? cur))

section build
variable {W H : BitVec 16} {fps : Fps} {qs : List (List Intensity)} {cur : List Intensity} {e : Enc}

theorem Enc.Building.npix_eq (h : e.Building W H fps qs) : e.npix = W.toNat * H.toNat := by
  rw [Enc.npix, h.width, h.height]

/-- ENC_BEGIN within the bounds begins a build with no frame (43_encoder.md rule R91). -/
theorem Enc.after_of_beginBuild {w h : Nat} (hw : 1 ≤ w ∧ w ≤ 65535) (hh : 1 ≤ h ∧ h ≤ 65535) (fps : Fps) :
    ∃ e, Enc.beginBuild w h fps = .ok e ∧ e.After (BitVec.ofNat 16 w) (BitVec.ofNat 16 h) fps [] := by
  refine ⟨_, by rw [Enc.beginBuild, Config.dimMax, if_neg (by omega), if_neg (by omega)], ?_⟩
  exact {
    noError := rfl
    width := rfl
    height := rfl
    rate := rfl
    counted := rfl
    hasPrev := rfl
    between := rfl
    previous := nofun
    output := rfl }

/-- ENC_FRAME_BEGIN of a frame of the declared dimensions (43_encoder.md rule R92). -/
theorem Enc.After.frameBegin (h : e.After W H fps qs) (hcur : cur.length = W.toNat * H.toNat) :
    ∃ e', e.frameBegin W.toNat H.toNat = .ok e' ∧ e'.Within W H fps qs cur ∧ e'.pix = 0 := by
  refine ⟨_, by rw [Enc.frameBegin_eq h.noError h.between, h.width, h.height, if_pos ⟨rfl, rfl⟩], ?_, rfl⟩
  exact { h with
    inFrame := rfl
    size := hcur
    fits := Nat.zero_le _
    written := nofun
    previous := fun old hold => by
      obtain ⟨hlength, hread⟩ := h.previous old hold
      exact ⟨hlength.trans hcur.symm, fun p hp _ => hread p (hcur ▸ hp)⟩
    output := by
      rw [encodeStream_append, ← h.output]
      rfl }

/-- ENC_FRAME_BEGIN of any other frame. -/
theorem Enc.After.frameBegin_of_mismatch {w h : Nat} (hafter : e.After W H fps qs)
    (hdims : ¬ (w = W.toNat ∧ h = H.toNat)) : e.frameBegin w h = .error (.raised .eDimMismatch) := by
  rw [Enc.frameBegin_eq hafter.noError hafter.between, hafter.width, hafter.height, if_neg hdims]

/-- CLASSIFY reads the last frame's level, so it gives the key that FRAME gives this pixel (43_encoder.md rules R94,
R105). -/
theorem Enc.Within.frameKeys_eq (h : e.Within W H fps qs cur) {q : Intensity} (hq : cur[e.pix]? = some q) :
    (frameKeys qs.getLast? cur)[e.pix]? =
      some (if e.hasPrev = true ∧ e.prev.read e.pix = some q then .skip else .draw q) := by
  obtain ⟨hlt, -⟩ := List.getElem?_eq_some_iff.mp hq
  rw [getElem?_frameKeys hq fun old hold => (h.previous old hold).1, h.hasPrev]
  cases hlast : qs.getLast? with
  | none => simp
  | some old =>
    rw [(h.previous old hlast).2 e.pix hlt (Nat.le_refl _)]
    simp

/-- ENC_PIXEL of the frame's next sample (43_encoder.md rule R93). -/
theorem Enc.Within.pixel (h : e.Within W H fps qs cur) {x : Byte} (hx : cur[e.pix]? = some (quant x)) :
    ∃ e', e.pixel x = .ok e' ∧ e'.Within W H fps qs cur ∧ e'.pix = e.pix + 1 := by
  obtain ⟨hlt, -⟩ := List.getElem?_eq_some_iff.mp hx
  have hleft : e.pix ≠ e.npix := by
    rw [h.npix_eq, ← h.size]
    exact hlt.ne
  have hread : e.hasPrev = true → (e.prev.read e.pix).isSome = true := by
    intro hprev
    obtain ⟨old, hold⟩ := Option.isSome_iff_exists.mp (h.hasPrev ▸ hprev)
    obtain ⟨hlength, hold⟩ := h.previous old hold
    rw [hold e.pix hlt (Nat.le_refl _), List.getElem?_eq_getElem (hlength ▸ hlt), Option.isSome_some]
  obtain ⟨e', hpixel, heq, hkey, hrun⟩ := Enc.pixel_spec h.noError h.inFrame hleft h.fits hread x
  have hkeys : (frameKeys qs.getLast? cur).drop e.pix = e'.key :: (frameKeys qs.getLast? cur).drop (e.pix + 1) := by
    obtain ⟨hltk, hget⟩ := List.getElem?_eq_some_iff.mp (h.frameKeys_eq hx)
    rw [List.drop_eq_getElem_cons hltk, hget, hkey]
  have hpix : e'.pix = e.pix + 1 := by rw [heq]
  have hwrite : e'.prev = e.prev.write e.pix (quant x) := by rw [heq]
  refine ⟨e', hpixel, ?_, hpix⟩
  exact {
    noError := by rw [heq, h.noError]
    width := by rw [heq, h.width]
    height := by rw [heq, h.height]
    rate := by rw [heq, h.rate]
    counted := by rw [heq, h.counted]
    hasPrev := by rw [heq, h.hasPrev]
    inFrame := by rw [heq, h.inFrame]
    size := h.size
    fits := hrun.fits
    written := fun p hp => by
      rw [hwrite]
      rcases Nat.lt_or_eq_of_le (Nat.le_of_lt_succ (hpix ▸ hp)) with hbelow | rfl
      · rw [Memory.read_write_other _ hbelow.ne, h.written p hbelow]
      · rw [Memory.read_write_same, hx]
    previous := fun old hold => by
      obtain ⟨hlength, hread⟩ := h.previous old hold
      refine ⟨hlength, fun p hp hge => ?_⟩
      rw [hwrite, Memory.read_write_other _ (by omega), hread p hp (by omega)]
    output := by
      rw [hpix, hrun.emitted_eq, ← hkeys, h.output] }

/-- ENC_FRAME_END of a frame whose samples are all in (43_encoder.md rule R101). -/
theorem Enc.Within.frameEnd (h : e.Within W H fps qs cur) (hpix : e.pix = cur.length) :
    ∃ e', e.frameEnd = .ok e' ∧ e'.After W H fps (qs ++ [cur]) := by
  have hwhole : e.pix = e.npix := by rw [hpix, h.npix_eq, h.size]
  have hkeys : (frameKeys qs.getLast? cur).drop e.pix = [] := by
    rw [hpix, ← length_frameKeys fun old hold => (h.previous old hold).1, List.drop_length]
  have hruns := h.output
  rw [hkeys, emitRuns, encodeStream_close] at hruns
  refine ⟨_, Enc.frameEnd_of_whole h.noError h.inFrame hwhole h.fits, ?_⟩
  exact {
    noError := h.noError
    width := h.width
    height := h.height
    rate := h.rate
    counted := by rw [h.counted, List.length_append, List.length_singleton]
    hasPrev := by rw [List.getLast?_concat, Option.isSome_some]
    between := rfl
    previous := fun old hold => by
      obtain rfl : cur = old := by simpa using hold
      exact ⟨h.size, fun p hp => h.written p (by rw [hpix, h.size]; exact hp)⟩
    output := by
      rw [hruns, chainCommands_concat, Option.or_none, frameCommands, ← List.append_assoc,
        encodeStream_append _ [.endFrame]]
      rfl }

/-- The samples of a frame that are left, in raster order. -/
theorem Enc.Within.achieves_pixels {p : Nat} {xs : Bytes} (hxs : cur.drop p = xs.map quant) :
    Achieves (fun e => e.Within W H fps qs cur ∧ e.pix = p) (xs.map Op.encPixel)
      (fun e => e.Within W H fps qs cur ∧ e.pix = p + xs.length) := by
  induction xs generalizing p with
  | nil => exact .nil
  | cons x xs ih =>
    have hx : cur[p]? = some (quant x) := by
      rw [← Nat.add_zero p, ← List.getElem?_drop, hxs]
      rfl
    have hrest : cur.drop (p + 1) = xs.map quant := by
      rw [← List.drop_drop, hxs]
      rfl
    have htail := ih hrest
    rw [Nat.add_assoc, Nat.add_comm 1, ← List.length_cons (a := x)] at htail
    refine .cons (.of_ok (f := fun e => e.pixel x) (fun _ => rfl) fun e he => ?_) htail
    obtain ⟨hwithin, rfl⟩ := he
    exact hwithin.pixel hx

/-- A whole frame of the declared dimensions (43_encoder.md rules R92, R93, R101). -/
theorem Achieves.frame {f : RawFrame} (hwf : f.wf = true) (hdims : f.w = W.toNat ∧ f.h = H.toNat) :
    Achieves (Enc.After W H fps qs) (frameOps f) (Enc.After W H fps (qs ++ [f.levels])) := by
  obtain ⟨hw, hh⟩ := hdims
  have hlength : f.levels.length = W.toNat * H.toNat := by rw [RawFrame.length_levels hwf, hw, hh]
  have hsamples : f.samples.length = f.levels.length := (List.length_map _).symm
  have hbegin : Achieves (Enc.After W H fps qs) [.encFrameBegin f.w f.h]
      (fun e => e.Within W H fps qs f.levels ∧ e.pix = 0) := by
    rw [hw, hh]
    exact .of_ok (f := fun e => e.frameBegin W.toNat H.toNat) (fun _ => rfl) fun e he => he.frameBegin hlength
  have hpixels := Enc.Within.achieves_pixels (W := W) (H := H) (fps := fps) (qs := qs) (cur := f.levels) (p := 0)
    (xs := f.samples) rfl
  rw [Nat.zero_add, hsamples] at hpixels
  exact (hbegin.cons hpixels).append (.of_ok (f := Enc.frameEnd) (fun _ => rfl) fun e he => he.1.frameEnd he.2)

/-- Frames of the declared dimensions, one after another. -/
theorem Achieves.frames {fs : List RawFrame} (hfs : ∀ f ∈ fs, f.wf = true ∧ f.w = W.toNat ∧ f.h = H.toNat) :
    Achieves (Enc.After W H fps qs) (fs.flatMap frameOps) (Enc.After W H fps (qs ++ fs.map RawFrame.levels)) := by
  induction fs generalizing qs with
  | nil =>
    rw [List.map_nil, List.append_nil]
    exact .nil
  | cons f rest ih =>
    obtain ⟨⟨hwf, hdims⟩, hrest⟩ := List.forall_mem_cons.mp hfs
    rw [List.flatMap_cons, List.map_cons, List.append_cons]
    exact (Achieves.frame hwf hdims).append (ih hrest)

/-- The first frame of other dimensions raises E_DIM_MISMATCH, and the operations after it raise it again (43_encoder.md
rules R92, R104). -/
theorem Achieves.frames_of_mismatch {fs : List RawFrame} (hwf : ∀ f ∈ fs, f.wf = true)
    (hdims : ∃ f ∈ fs, ¬ (f.w = W.toNat ∧ f.h = H.toNat)) :
    Achieves (Enc.After W H fps qs) (fs.flatMap frameOps) (Enc.Failed .eDimMismatch) := by
  induction fs generalizing qs with
  | nil =>
    obtain ⟨f, hf, -⟩ := hdims
    cases hf
  | cons f rest ih =>
    obtain ⟨hwff, hwfrest⟩ := List.forall_mem_cons.mp hwf
    by_cases hf : f.w = W.toNat ∧ f.h = H.toNat
    · have hrest : ∃ g ∈ rest, ¬ (g.w = W.toNat ∧ g.h = H.toNat) := by
        obtain ⟨g, hg, hne⟩ := hdims
        rcases List.mem_cons.mp hg with rfl | hmem
        · exact absurd hf hne
        · exact ⟨g, hmem, hne⟩
      exact (Achieves.frame hwff hf).append (ih hwfrest hrest)
    · have hbegin : Achieves (Enc.After W H fps qs) [.encFrameBegin f.w f.h] (Enc.Failed .eDimMismatch) :=
        .of_raised (f := fun e => e.frameBegin f.w f.h) (fun _ => rfl) fun e he => he.frameBegin_of_mismatch hf
      refine hbegin.cons (.of_failed _ fun op hop => ?_)
      exact looksAtEncErr_of_mem_frameOps (fs := f :: rest) (List.mem_cons_of_mem _ hop)

end build

/-! ### A whole build -/

/-- The operations of a build up to ENC_FINISH (43_encoder.md rule R90). -/
theorem buildOps_eq (W H : Nat) (fps : Fps) (F : List RawFrame) :
    buildOps W H fps F = (.encBegin W H fps :: (withTail F).flatMap frameOps) ++ [.encFinish] := rfl

/-- A build runs to the state in which ENC_FINISH is the step. -/
theorem Achieves.run_finish {P Q : Enc → Prop} {ops : List Op} {s : State} (h : Achieves P ops Q)
    (hscript : s.script = ops ++ [.encFinish]) (hP : P s.enc) :
    ∃ t : State, t.script = [] ∧ Q t.enc ∧
      ∀ u, runOp .encFinish t = .next u → Host.Core.run core (ops ++ [Op.encFinish]).length s = .next u := by
  obtain ⟨t, hrun, hlast, hQ⟩ := h s [.encFinish] hscript hP
  refine ⟨t.takeOp [], rfl, hQ, fun u hu => ?_⟩
  rw [List.length_append, run_add _ hrun]
  exact run_succ_of_step 0 ((step_of_script hlast).trans hu)

theorem Achieves.begin {W H : Nat} (hW : 1 ≤ W ∧ W ≤ 65535) (hH : 1 ≤ H ∧ H ≤ 65535) (fps : Fps) :
    Achieves (fun _ => True) [.encBegin W H fps] (Enc.After (BitVec.ofNat 16 W) (BitVec.ofNat 16 H) fps []) :=
  .of_ok (f := fun _ => Enc.beginBuild W H fps) (fun _ => rfl) fun _ _ => Enc.after_of_beginBuild hW hH fps

/-- A dimension that ENC_BEGIN accepts is a `u16` of this value. -/
theorem toNat_dim {n : Nat} (h : 1 ≤ n ∧ n ≤ 65535) : (BitVec.ofNat 16 n).toNat = n :=
  Nat.mod_eq_of_lt (Nat.lt_succ_of_le h.2)

/-- ENCODE of a sequence that passes its checks (43_encoder.md rule R105). -/
theorem encodeAsset_of_frames {W H : Nat} {F : List RawFrame} (flt : Filter) (fps : Fps) (hF : F ≠ [])
    (hdims : ∀ f ∈ F, f.w = W ∧ f.h = H) (hW : 1 ≤ W ∧ W ≤ 65535) (hH : 1 ≤ H ∧ H ≤ 65535) :
    encodeAsset flt W H fps F = .ok
      (.asset (flt.compress (physicalStream F)) (BitVec.ofNat 16 W) (BitVec.ofNat 16 H) F.length fps) := by
  have hmismatch : F.any (fun f => decide (f.w ≠ W ∨ f.h ≠ H)) = false := by
    refine List.any_eq_false.mpr fun f hf => ?_
    obtain ⟨hw, hh⟩ := hdims f hf
    simp [hw, hh]
  rw [encodeAsset, Config.dimMax, if_neg (by omega), if_neg (by omega), hmismatch, if_neg (Bool.false_ne_true),
    if_neg (by simpa using hF)]

/-- Settles O51: the N + 1 frames leave an encoder after their levels, from which ENC_FINISH makes ENCODE's asset. -/
theorem streamingBuildGivesEncodesAsset : Obligations.StreamingBuildGivesEncodesAsset := by
  intro s W H fps F hF hfs hW hW' hH hH' hscript
  have hframes : ∀ f ∈ withTail F, f.wf = true ∧ f.w = (BitVec.ofNat 16 W).toNat ∧ f.h = (BitVec.ofNat 16 H).toNat := by
    rw [toNat_dim ⟨hW, hW'⟩, toNat_dim ⟨hH, hH'⟩]
    exact fun f hf => hfs f (mem_of_mem_withTail hf)
  have hbuild := (Achieves.begin ⟨hW, hW'⟩ ⟨hH, hH'⟩ fps).cons (.frames hframes)
  obtain ⟨t, hempty, hafter, hrun⟩ := hbuild.run_finish hscript trivial
  have hcounted : t.enc.frames = F.length + 1 := by
    rw [hafter.counted, List.nil_append, List.length_map, length_withTail hF]
  have hpos : 0 < F.length := List.length_pos_iff.mpr hF
  have hfinish := encFinishReturnsTheAsset t hafter.noError hafter.between
  rw [if_neg (by omega)] at hfinish
  refine ⟨_, hrun _ hfinish, hempty, hafter.output, hafter.noError, rfl, ?_⟩
  rw [encodeAsset_of_frames _ _ hF (fun f hf => (hfs f hf).2) ⟨hW, hW'⟩ ⟨hH, hH'⟩, hcounted, hafter.width,
    hafter.height, hafter.rate, hafter.output]
  rfl

/-- Where ENCODE fails, which of its checks did (43_encoder.md rules R104, R105). -/
theorem encodeAsset_eq_error {flt : Filter} {W H : Nat} {fps : Fps} {F : List RawFrame} {c : FaultCode}
    (h : encodeAsset flt W H fps F = .error c) :
    (Enc.beginBuild W H fps = .error (.raised c)) ∨
      ((1 ≤ W ∧ W ≤ 65535) ∧ (1 ≤ H ∧ H ≤ 65535) ∧
        ((c = .eDimMismatch ∧ ∃ f ∈ F, ¬ (f.w = W ∧ f.h = H)) ∨ (c = .eNoFrames ∧ F = []))) := by
  unfold encodeAsset at h
  split_ifs at h with hzero hrange hdims hempty
  · cases h
    exact .inl (by rw [Enc.beginBuild, if_pos hzero])
  · cases h
    exact .inl (by rw [Enc.beginBuild, if_neg hzero, if_pos hrange])
  · cases h
    obtain ⟨f, hf, hne⟩ := List.any_eq_true.mp hdims
    rw [Config.dimMax] at hrange
    exact .inr ⟨by omega, by omega, .inl ⟨rfl, f, hf, fun heq => by simp [heq] at hne⟩⟩
  · cases h
    rw [Config.dimMax] at hrange
    exact .inr ⟨by omega, by omega, .inr ⟨rfl, List.isEmpty_iff.mp hempty⟩⟩

/-- The frames of a build are among those it encodes. -/
theorem mem_withTail_of_mem {α : Type} {F : List α} {f : α} (hf : f ∈ F) : f ∈ withTail F := by
  cases F with
  | nil => cases hf
  | cons g rest => exact List.mem_append_left _ hf

/-- ENC_FINISH of a build that failed. -/
theorem Achieves.run_finish_of_failed {P : Enc → Prop} {ops : List Op} {s : State} {c : FaultCode}
    (h : Achieves P ops (Enc.Failed c)) (hscript : s.script = ops ++ [.encFinish]) (hP : P s.enc) :
    ∃ t : State, Host.Core.run core (ops ++ [Op.encFinish]).length s = .next t ∧ t.enc.err = some c ∧
      t.result = .fault c := by
  obtain ⟨t, -, hfailed, hrun⟩ := h.run_finish hscript hP
  exact ⟨_, hrun _ (runOp_of_enc_err rfl hfailed), rfl, rfl⟩

/-- Settles O52: ENC_BEGIN fails, or a frame fails, and the operations after it raise the code again; or there are no
frames and ENC_FINISH fails. -/
theorem streamingBuildFailsWithEncodesCode : Obligations.StreamingBuildFailsWithEncodesCode := by
  intro s W H fps F c hwf hfails hscript
  rcases encodeAsset_eq_error hfails with hbegin | ⟨hW, hH, ⟨rfl, f, hf, hne⟩ | ⟨rfl, rfl⟩⟩
  · have hfailed : Achieves (fun _ => True) [.encBegin W H fps] (Enc.Failed c) :=
      .of_raised (f := fun _ => Enc.beginBuild W H fps) (fun _ => rfl) fun _ _ => hbegin
    have hbuild := hfailed.cons (.of_failed c fun _ => looksAtEncErr_of_mem_frameOps (fs := withTail F))
    exact hbuild.run_finish_of_failed hscript trivial
  · have hmismatch : ∃ f ∈ withTail F, ¬ (f.w = (BitVec.ofNat 16 W).toNat ∧ f.h = (BitVec.ofNat 16 H).toNat) := by
      rw [toNat_dim hW, toNat_dim hH]
      exact ⟨f, mem_withTail_of_mem hf, hne⟩
    have hframes : ∀ f ∈ withTail F, f.wf = true := fun f hf => hwf f (mem_of_mem_withTail hf)
    have hbuild := (Achieves.begin hW hH fps).cons (.frames_of_mismatch hframes hmismatch)
    exact hbuild.run_finish_of_failed hscript trivial
  · obtain ⟨t, -, hafter, hrun⟩ := (Achieves.begin hW hH fps).run_finish hscript trivial
    have hfinish := encFinishReturnsTheAsset t hafter.noError hafter.between
    rw [hafter.counted, if_pos (by decide)] at hfinish
    exact ⟨_, hrun _ hfinish, rfl, rfl⟩

end Sys2Proof.Machine
end

section
/-!
PROOF. DEC_ADVANCE case by case (44_decoder.md rules R109 to R118): a word read, the two faults at the end of a stream, and
a new pass as a decoder that starts at the place the pass begins, with or without the loop-skip.
-/

namespace Sys2Proof.Machine

/-! ### READ_WORD (rule R111) -/

theorem endSeen_iff {c : Instr} : endSeen c = true ↔ c = .endFrame := beq_iff_eq

theorem Dec.readWord_of_exhausted {d : Dec} (h : d.cursor = d.L) : d.readWord = .ok none := by
  rw [Dec.readWord, Dec.exhausted, if_pos (beq_iff_eq.mpr h)]

theorem Dec.readWord_of_stray {d : Dec} (h : d.cursor + 1 = d.L) : d.readWord = .error (.raised .fOddTail) := by
  rcases d.readWord_cases with ⟨h', -⟩ | ⟨-, e⟩ | ⟨h', -⟩ | ⟨h', -⟩
  · omega
  · exact e
  · exact absurd h (Nat.ne_of_lt h')
  · omega

theorem Dec.readWord_of_drop {d : Dec} {b0 b1 : Byte} {rest : Bytes} (h : d.P.drop d.cursor = b0 :: b1 :: rest) :
    d.readWord = .ok (some (parseBytes b0 b1, { d with cursor := d.cursor + 2, win := [] })) := by
  have hword : d.cursor + 1 < d.P.length := by
    have hlength := congrArg List.length h
    rw [List.length_drop, List.length_cons, List.length_cons] at hlength
    omega
  rw [List.drop_eq_getElem_cons (by omega), List.drop_eq_getElem_cons hword, List.cons.injEq, List.cons.injEq] at h
  obtain ⟨rfl, rfl, -⟩ := h
  exact Dec.readWord_word hword

/-- A word of the stream is read back (20_memory.md rule R45). -/
theorem Dec.readWord_of_serialize {d : Dec} {w : Word} {rest : Bytes} (h : d.P.drop d.cursor = serialize w ++ rest) :
    d.readWord = .ok (some (w, { d with cursor := d.cursor + 2, win := [] })) := by
  rw [Dec.readWord_of_drop h, parseBytes_extractLsb']

/-! ### DEC_ADVANCE within a pass (rules R111 to R113) -/

theorem Dec.advance_of_err {d : Dec} {c : FaultCode} (h : d.err = some c) : d.advance = .error (.raised c) := by
  rw [Dec.advance, Dec.fetchWord, h, sticky_some]

theorem Dec.advance_of_drop {d : Dec} {b0 b1 : Byte} {rest : Bytes} (hnone : d.err = none)
    (h : d.P.drop d.cursor = b0 :: b1 :: rest) : d.advance = .ok (parse (parseBytes b0 b1), { d with
      cursor := d.cursor + 2
      win := []
      fp := d.fp + if parse (parseBytes b0 b1) = .endFrame then 1 else 0 }) := by
  have hdecode : decode (d.P.drop d.cursor) = .ok (parse (parseBytes b0 b1), rest) := by rw [h, decode]
  rw [(Dec.advance_of_decode hnone hdecode).1, Dec.yield_eq]
  simp only [endSeen_iff]

/-- Settles O32: the two bytes are the head of what is left of the stream. -/
theorem advanceReadsTheNextWord : Obligations.AdvanceReadsTheNextWord := by
  intro d b0 b1 hnone h0 h1
  obtain ⟨hlt0, rfl⟩ := List.getElem?_eq_some_iff.mp h0
  obtain ⟨hlt1, rfl⟩ := List.getElem?_eq_some_iff.mp h1
  refine Dec.advance_of_drop hnone (rest := d.P.drop (d.cursor + 2)) ?_
  rw [List.drop_eq_getElem_cons hlt0, List.drop_eq_getElem_cons hlt1]

/-- Settles O20: the fetch reads the word that decodes to the command. -/
theorem stepRunsTheDecodedCommand : Obligations.StepRunsTheDecodedCommand := by
  intro s d i rest hscript hd hnone hdecode
  obtain ⟨b0, b1, hdrop, rfl⟩ := decode_eq_ok hdecode
  have hfetch : d.fetchWord = .ok (parseBytes b0 b1, { d with cursor := d.cursor + 2, win := [] }) := by
    rw [Dec.fetchWord, hnone, sticky_none, Dec.readWord_of_drop hdrop, hnone]
  rw [step_of_no_script hscript]
  simp only [play, fetch, hd, hfetch]
  rfl

/-! ### A new pass (rules R114 to R118) -/

/-- The decoder as a pass begins at byte offset `k` of its stream, with no End counted. -/
def Dec.startPass (d : Dec) (k pass : Nat) : Dec :=
  { d with cursor := k, pass := pass, fp := 0, win := [], scratch := .initial }

/-- The first word of a pass (rule R118). -/
theorem Dec.advance_startPass {d : Dec} {k : Nat} {b0 b1 : Byte} {rest : Bytes} (pass : Nat) (hnone : d.err = none)
    (h : d.P.drop k = b0 :: b1 :: rest) : (d.startPass k pass).advance = .ok (parse (parseBytes b0 b1), { d with
      cursor := k + 2
      pass := pass
      fp := if parse (parseBytes b0 b1) = .endFrame then 1 else 0
      win := []
      scratch := .initial }) := by
  rw [Dec.advance_of_drop (d := d.startPass k pass) hnone h]
  simp only [Dec.startPass, Nat.zero_add]

/-- At the end of a stream, DEC_ADVANCE is that of the decoder at the place where RESTART and LOOP_SKIP leave it. -/
theorem Dec.advance_of_restart {d : Dec} {k : Nat} {win : Bytes} (hnone : d.err = none) (hend : d.cursor = d.L)
    (hstart : (if 1 < d.fp then d.restart.skipFrame else .ok d.restart) =
      .ok { d.restart with cursor := k, win := win })
    (hword : k + 1 < d.P.length) : d.advance = (d.startPass k (d.pass + 1)).advance := by
  have hfetch : d.fetchWord = (d.startPass k (d.pass + 1)).fetchWord := by
    have hfirst : (d.startPass k (d.pass + 1)).readWord =
        .ok (some (parseBytes d.P[k] d.P[k + 1], d.startPass (k + 2) (d.pass + 1))) := Dec.readWord_word hword
    have hnone' : (d.startPass k (d.pass + 1)).err = none := hnone
    rw [Dec.fetchWord, hnone, sticky_none, Dec.readWord_of_exhausted hend, Dec.fetchWord, hnone', sticky_none, hfirst]
    simp only [Dec.nextPass, hstart, Dec.firstWord]
    rw [Dec.readWord_word hword]
    rfl
  rw [Dec.advance, hfetch, ← Dec.advance]

/-- The first pass of a decoder that has read nothing. -/
theorem Dec.advance_of_fresh {d : Dec} (hnone : d.err = none) (hcursor : d.cursor = 0) (hfp : d.fp = 0)
    (hword : 1 < d.P.length) : d.advance = (d.startPass 0 d.pass).advance := by
  obtain ⟨b0, b1, rest, hP⟩ : ∃ b0 b1 rest, d.P = b0 :: b1 :: rest := by
    match d.P, hword with
    | b0 :: b1 :: rest, _ => exact ⟨b0, b1, rest, rfl⟩
  have hdrop : d.P.drop d.cursor = b0 :: b1 :: rest := by rw [hcursor, hP, List.drop_zero]
  rw [Dec.advance_of_drop hnone hdrop, Dec.advance_startPass (k := 0) _ hnone hP, hcursor, hfp, Nat.zero_add, Nat.zero_add]

/-- With at most one End counted, a new pass begins with the stream (rule R115). -/
theorem Dec.advance_of_short_pass {d : Dec} (hnone : d.err = none) (hend : d.cursor = d.L) (hfp : d.fp ≤ 1)
    (hword : 1 < d.P.length) : d.advance = (d.startPass 0 (d.pass + 1)).advance :=
  Dec.advance_of_restart (win := d.win) hnone hend (if_neg (Nat.not_lt.mpr hfp)) hword

/-- LOOP_SKIP reads the words of a frame and the End after them (rule R116). -/
theorem Dec.loopSkip_of_frame {frame : List Word} {rest : Bytes} {fuel : Nat} {d : Dec} (hframe : ∀ w ∈ frame, w ≠ 0)
    (hfuel : frame.length < fuel) (hdrop : d.P.drop d.cursor = frame.flatMap serialize ++ (serialize 0 ++ rest)) :
    Dec.loopSkip fuel d = .ok { d with cursor := d.cursor + 2 * frame.length + 2, win := [] } := by
  induction frame generalizing fuel d with
  | nil =>
    obtain ⟨fuel, rfl⟩ := Nat.exists_eq_add_one.mpr hfuel
    rw [Dec.loopSkip, Dec.readWord_of_serialize hdrop]
    rfl
  | cons w frame ih =>
    obtain ⟨fuel, rfl⟩ := Nat.exists_eq_add_one.mpr (Nat.zero_lt_of_lt hfuel)
    obtain ⟨hw, hframe⟩ := List.forall_mem_cons.mp hframe
    rw [List.flatMap_cons, List.append_assoc] at hdrop
    have hne : ¬ endSeen (parse w) = true := by
      rw [endSeen_iff]
      intro hend
      rw [← encode_parse w, hend] at hw
      exact hw rfl
    have hnext : d.P.drop (d.cursor + 2) = frame.flatMap serialize ++ (serialize 0 ++ rest) := by
      rw [← List.drop_drop, hdrop]
      rfl
    rw [Dec.loopSkip, Dec.readWord_of_serialize hdrop]
    simp only [if_neg hne]
    rw [ih (d := { d with cursor := d.cursor + 2, win := [] }) hframe (Nat.lt_of_succ_lt_succ hfuel) hnext]
    simp only [List.length_cons]
    congr 2
    omega

/-- With more than one End counted, a new pass begins after the stream's first End (rule R116). -/
theorem Dec.advance_of_long_pass {d : Dec} {frame : List Word} {rest : Bytes} (hnone : d.err = none)
    (hend : d.cursor = d.L) (hfp : 1 < d.fp) (hframe : ∀ w ∈ frame, w ≠ 0)
    (hP : d.P = frame.flatMap serialize ++ (serialize 0 ++ rest)) (hword : 1 < rest.length) :
    d.advance = (d.startPass (2 * frame.length + 2) (d.pass + 1)).advance := by
  have hlength : d.P.length = 2 * frame.length + 2 + rest.length := by
    simp [hP, List.length_flatMap, Nat.mul_comm, Nat.add_assoc]
  have hskip : d.restart.skipFrame = .ok { d.restart with cursor := 2 * frame.length + 2, win := [] } := by
    have hfuel : frame.length < d.restart.L + 1 := by
      rw [Dec.L, Dec.restart_P, hlength]
      omega
    rw [Dec.skipFrame, Dec.loopSkip_of_frame (d := d.restart) hframe hfuel hP]
    simp only [Dec.restart, Nat.zero_add]
  exact Dec.advance_of_restart hnone hend ((if_pos hfp).trans hskip) (by omega)

/-- Settles O33: the new pass begins with the first word of the stream. -/
theorem shortPassRestartsAtFrameZero : Obligations.ShortPassRestartsAtFrameZero := by
  intro d b0 b1 rest hnone hend hfp hP
  rw [Dec.advance_of_short_pass hnone hend hfp (by simp [hP]), Dec.advance_startPass (k := 0) _ hnone hP]

/-- Settles O34: the new pass begins with the word after the first End, which frame 0 does not hold. -/
theorem longPassRestartsAtFrameOne : Obligations.LongPassRestartsAtFrameOne := by
  intro d frame0 b0 b1 rest hnone hend hfp hframe hP
  rw [List.append_assoc] at hP
  have hdrop : d.P.drop (2 * frame0.length + 2) = b0 :: b1 :: rest := by
    rw [hP, ← List.append_assoc]
    exact List.drop_left' (by simp [List.length_flatMap, Nat.mul_comm])
  rw [Dec.advance_of_long_pass hnone hend hfp hframe hP (by simp), Dec.advance_startPass _ hnone hdrop]

/-- Settles O35: a stray byte stops READ_WORD, and after the restart of an empty stream there is no word either. -/
theorem strayByteAndEmptyStreamFault : Obligations.StrayByteAndEmptyStreamFault := by
  intro d hnone
  constructor
  · intro hstray
    rw [Dec.advance, Dec.fetchWord, hnone, sticky_none, Dec.readWord_of_stray hstray]
  · intro hL hcursor hfp
    have hfirst : Dec.readWord { d.restart with fp := 0 } = .ok none := Dec.readWord_of_exhausted hL.symm
    rw [Dec.advance, Dec.fetchWord, hnone, sticky_none, Dec.readWord_of_exhausted (hcursor.trans hL.symm)]
    simp only [Dec.nextPass, hfp, Nat.not_lt_zero, if_false, Dec.firstWord, hfirst]

/-! ### DEC_CONSTRUCT and DEC_ADVANCE on the machine -/

/-- Settles O31: what DEC_CONSTRUCT makes of a blob that the filter accepts and of one that it rejects. -/
theorem constructMakesAFreshInstance : Obligations.ConstructMakesAFreshInstance := by
  constructor
  · intro s rest blob W H fc fps hscript
    exact step_of_script hscript
  · rintro flt blob W H fc fps d rfl
    refine ⟨rfl, rfl, rfl, rfl, rfl, rfl, rfl, rfl, rfl, rfl, fun P hP => ?_, fun hrejected => ?_⟩
    · simp [Dec.construct, Dec.L, hP]
    · have herr : (Dec.construct flt blob W H fc fps).err = some .fFilter := by simp [Dec.construct, hrejected]
      exact ⟨by simp [Dec.construct, hrejected], by simp [Dec.construct, Dec.L, hrejected], herr,
        Dec.advance_of_err herr⟩

/-- DEC_ADVANCE on a decoder that exists. -/
theorem State.decAdvance_eq {s : State} {k : Nat} {d : Dec} (hd : s.decs[k]? = some d) : s.decAdvance k =
    s.finish (.dec k) (d.advance.map fun r => (s.putDec k r.2).answer (.command r.1)) := by
  rw [State.decAdvance, hd]

/-- Settles O54: the three ways in which DEC_ADVANCE ends; a decoder as its rules keep it never halts. -/
theorem advanceReplacesItsInstance : Obligations.AdvanceReplacesItsInstance := by
  intro s k d hd
  have hrun : runOp (.decAdvance k) s =
      s.finish (.dec k) (d.advance.map fun r => (s.putDec k r.2).answer (.command r.1)) := State.decAdvance_eq hd
  refine ⟨fun c d' hok => ?_, fun c hraised => ?_, fun f hhalted => ?_, fun hgood => ?_⟩
  · rw [hrun, hok]
    rfl
  · rw [hrun, hraised]
    exact congrArg Host.Outcome.next (State.takeFault_dec hd c)
  · rw [hrun, hhalted]
    rfl
  · have hsound := hgood.advance_sound
    rw [hrun]
    match d.advance, hsound with
    | .ok r, _ => exact ⟨_, rfl⟩
    | .error (.raised c), _ => exact ⟨_, rfl⟩

end Sys2Proof.Machine
end

section
/-!
PROOF. A stream of even length never faults (44_decoder.md rule R122): it is a stream of commands, and DEC_ADVANCE always
finds the next of them or the first of a new pass.
-/

namespace Sys2Proof.Machine

/-! ### The decoder of the machine (rules R110, R122, R123) -/

/-- DEC_ADVANCE yields a command of 00_scope.md rule R11. -/
theorem Dec.wf_of_advance {d d' : Dec} {c : Instr} (h : d.advance = .ok (c, d')) : c.wf = true := by
  rw [Dec.advance_eq_map] at h
  cases hfetch : d.fetchWord with
  | error x => rw [hfetch] at h; cases h
  | ok r =>
    rw [hfetch] at h
    cases h
    exact parse_wf r.1

/-- No code has a cause where the filter accepted the blob and the stream has an even length of at least 2. -/
theorem Dec.Ok.err_eq_none {d : Dec} (hok : d.Ok) (haccepted : Config.filter.decompress d.blob ≠ none)
    (heven : d.L % 2 = 0) (hlen : 2 ≤ d.L) : d.err = none := by
  cases herr : d.err with
  | none => rfl
  | some c =>
    rcases hok.errCause c herr with ⟨-, hrejected⟩ | ⟨-, hempty⟩ | ⟨-, hodd⟩
    · exact absurd hrejected haccepted
    · omega
    · omega

/-- Settles O56: the code of a fault would have a cause that such a stream does not give. -/
theorem goodEvenDecoderAdvances : Obligations.GoodEvenDecoderAdvances := by
  intro d hok hnone heven hlen
  have haccepted : Config.filter.decompress d.blob ≠ none := fun hrejected => by
    rw [hok.rejected hrejected] at hnone
    cases hnone
  have hsound := hok.advance_sound
  match hadvance : d.advance, hsound with
  | .ok (c, d'), hok' =>
    obtain ⟨hP, hblob, -⟩ := Dec.config_eq_iff.mp (Dec.config_of_advance hadvance)
    have hL : d'.L = d.L := congrArg List.length hP
    have hnone' : d'.err = none :=
      Dec.Ok.err_eq_none hok' (hblob ▸ haccepted) (hL ▸ heven) (hL ▸ hlen)
    exact ⟨c, d', rfl, Dec.wf_of_advance hadvance, hok', hnone', hP⟩
  | .error (.raised c), hok' => cases hok'.err_eq_none haccepted heven hlen

/-! ### Streams as commands (20_memory.md rules R43, R45) -/

theorem serialize_parseBytes (b0 b1 : Byte) : serialize (parseBytes b0 b1) = [b0, b1] := by
  rw [serialize, parseBytes_eq_append, BitVec.extractLsb'_append_eq_right, BitVec.extractLsb'_append_eq_left]

/-- Bytes of even length are the words of commands. -/
theorem exists_eq_encodeStream {P : Bytes} (h : P.length % 2 = 0) :
    ∃ cs, P = encodeStream cs ∧ ∀ c ∈ cs, c.wf = true := by
  match P, h with
  | [], _ => exact ⟨[], rfl, nofun⟩
  | b0 :: b1 :: rest, h =>
    obtain ⟨cs, rfl, hwf⟩ := exists_eq_encodeStream (P := rest) (by simp at h; omega)
    refine ⟨parse (parseBytes b0 b1) :: cs, ?_, List.forall_mem_cons.mpr ⟨parse_wf _, hwf⟩⟩
    rw [encodeStream, encodeStream, List.flatMap_cons, encodeBytes, encode_parse, serialize_parseBytes]
    rfl

theorem drop_encodeStream (cs : List Instr) (i : Nat) : (encodeStream cs).drop (2 * i) = encodeStream (cs.drop i) := by
  induction i generalizing cs with
  | zero => rfl
  | succ i ih =>
    cases cs with
    | nil => rfl
    | cons c cs => exact ih cs

/-- LOOP_SKIP over a frame of commands (44_decoder.md rule R116). -/
theorem Dec.advance_of_frame_skipped {d : Dec} {frame0 later : List Instr} (hnone : d.err = none)
    (hend : d.cursor = d.L) (hfp : 1 < d.fp) (hwf : ∀ c ∈ frame0, c.wf = true) (hframe : .endFrame ∉ frame0)
    (hP : d.P = encodeStream (frame0 ++ .endFrame :: later)) (hlater : later ≠ []) :
    d.advance = (d.startPass (2 * (frame0.length + 1)) (d.pass + 1)).advance := by
  have hwords : d.P = (frame0.map encode).flatMap serialize ++ (serialize 0 ++ encodeStream later) := by
    rw [hP, encodeStream, List.flatMap_append, List.flatMap_cons, List.flatMap_map]
    rfl
  have hne : ∀ w ∈ frame0.map encode, w ≠ 0 := List.forall_mem_map.mpr fun c hc hzero => by
    have hparse := parse_encode (hwf c hc)
    rw [hzero] at hparse
    obtain rfl : .endFrame = c := hparse
    exact hframe hc
  have hword : 1 < (encodeStream later).length := by
    have hpos := List.length_pos_iff.mpr hlater
    rw [length_encodeStream]
    omega
  have hskip := Dec.advance_of_long_pass hnone hend hfp hne hwords hword
  rwa [List.length_map] at hskip

/-! ### Any filter (rule R122) -/

/-- A decoder of a stream of commands, of which it has read `i` in this pass, with some of their Ends counted (10_state.md
rules R20, R22). -/
structure Dec.At (cs : List Instr) (i : Nat) (d : Dec) : Prop where
  noError : d.err = none
  stream : d.P = encodeStream cs
  place : d.cursor = 2 * i
  counted : d.fp ≤ (cs.take i).count .endFrame

section At
variable {cs : List Instr} {i : Nat} {d : Dec}

theorem Dec.At.startPass (h : d.At cs i) (k pass : Nat) : (d.startPass (2 * k) pass).At cs k :=
  ⟨h.noError, h.stream, rfl, Nat.zero_le _⟩

theorem Dec.At.advance_of_lt (h : d.At cs i) (hwf : ∀ c ∈ cs, c.wf = true) (hi : i < cs.length) :
    ∃ d', d.advance = .ok (cs[i], d') ∧ d'.At cs (i + 1) := by
  have hdecode : decode (d.P.drop d.cursor) = .ok (cs[i], encodeStream (cs.drop (i + 1))) := by
    rw [h.stream, h.place, drop_encodeStream, List.drop_eq_getElem_cons hi]
    exact decodeOfEncodedCommandIsTheCommand _ _ (hwf _ (List.getElem_mem hi))
  obtain ⟨hadvance, -⟩ := Dec.advance_of_decode h.noError hdecode
  rw [Dec.yield_eq] at hadvance
  refine ⟨_, hadvance, h.noError, h.stream, ?_, ?_⟩
  · rw [h.place, Nat.mul_succ]
  · rw [← List.take_concat_get' _ _ hi, List.count_append, List.count_singleton]
    exact Nat.add_le_add_right h.counted _

/-- At the end of the stream a new pass begins at one of its commands: at the first, or after the first End, which is not
the last where more than one was counted. -/
theorem Dec.At.exists_start (h : d.At cs cs.length) (hwf : ∀ c ∈ cs, c.wf = true) (hcs : cs ≠ []) :
    ∃ k, k < cs.length ∧ d.advance = (d.startPass (2 * k) (d.pass + 1)).advance := by
  have hpos := List.length_pos_iff.mpr hcs
  have hlength : d.P.length = 2 * cs.length := by rw [h.stream, length_encodeStream]
  have hend : d.cursor = d.L := h.place.trans hlength.symm
  rcases Nat.lt_or_ge 1 d.fp with hfp | hfp
  · have hcount : 1 < cs.count .endFrame := by
      have hcounted := h.counted
      rw [List.take_length] at hcounted
      omega
    obtain ⟨frame0, later, rfl, hframe⟩ := List.eq_append_cons_of_mem (List.count_pos_iff.mp (Nat.zero_lt_of_lt hcount))
    have hlater : later ≠ [] := by
      rintro rfl
      rw [List.count_append, List.count_eq_zero.mpr hframe, List.count_singleton_self] at hcount
      omega
    refine ⟨frame0.length + 1, ?_, Dec.advance_of_frame_skipped h.noError hend hfp
      (fun c hc => hwf c (List.mem_append_left _ hc)) hframe h.stream hlater⟩
    have hlaterpos := List.length_pos_iff.mpr hlater
    rw [List.length_append, List.length_cons]
    omega
  · exact ⟨0, hpos, Dec.advance_of_short_pass h.noError hend hfp (by omega)⟩

theorem Dec.At.advance (h : d.At cs i) (hwf : ∀ c ∈ cs, c.wf = true) (hcs : cs ≠ []) (hi : i ≤ cs.length) :
    ∃ j c d', j ≤ cs.length ∧ d.advance = .ok (c, d') ∧ d'.At cs j := by
  rcases Nat.lt_or_eq_of_le hi with hlt | rfl
  · obtain ⟨d', hadvance, h'⟩ := h.advance_of_lt hwf hlt
    exact ⟨i + 1, _, d', hlt, hadvance, h'⟩
  · obtain ⟨k, hk, hstart⟩ := h.exists_start hwf hcs
    obtain ⟨d', hadvance, h'⟩ := (h.startPass k (d.pass + 1)).advance_of_lt hwf hk
    exact ⟨k + 1, _, d', hk, hstart.trans hadvance, h'⟩

theorem Dec.At.advances (h : d.At cs i) (hwf : ∀ c ∈ cs, c.wf = true) (hcs : cs ≠ []) (hi : i ≤ cs.length) (n : Nat) :
    ∃ yielded d', Dec.advances n d = .ok (yielded, d') ∧ yielded.length = n ∧ d'.err = none := by
  induction n generalizing d i with
  | zero => exact ⟨[], d, rfl, rfl, h.noError⟩
  | succ n ih =>
    obtain ⟨j, c, d₁, hj, hadvance, h₁⟩ := h.advance hwf hcs hi
    obtain ⟨yielded, d', hrest, hlength, hnone⟩ := ih h₁ hj
    refine ⟨c :: yielded, d', ?_, congrArg (· + 1) hlength, hnone⟩
    rw [Dec.advances, hadvance]
    simp only [hrest]

end At

/-- Settles O36: a fresh decoder stands before the first command of its stream. -/
theorem evenStreamNeverFaults : Obligations.EvenStreamNeverFaults := by
  intro flt blob P W H fc fps hP heven hlen n
  obtain ⟨cs, rfl, hwf⟩ := exists_eq_encodeStream heven
  have hcs : cs ≠ [] := by
    rintro rfl
    exact absurd hlen (by decide)
  have hfresh : (Dec.construct flt blob W H fc fps).At cs 0 :=
    { noError := by simp [Dec.construct, hP]
      stream := by simp [Dec.construct, hP]
      place := rfl
      counted := Nat.zero_le _ }
  exact hfresh.advances hwf hcs (Nat.zero_le _) n

end Sys2Proof.Machine
end

section
/-!
PROOF. The passes over a stream of two frames or more (44_decoder.md rules R119 to R121): what a pass yields depends on the
number of Ends that the pass before it counted.
-/

namespace Sys2Proof.Machine

/-- DEC_ADVANCEs and then further ones (44_decoder.md rule R119). -/
theorem Dec.advances_add {m n : Nat} {d d₁ d₂ : Dec} {cs cs' : List Instr} (h : Dec.advances m d = .ok (cs, d₁))
    (h' : Dec.advances n d₁ = .ok (cs', d₂)) : Dec.advances (m + n) d = .ok (cs ++ cs', d₂) := by
  induction m generalizing d cs with
  | zero =>
    cases h
    rwa [Nat.zero_add]
  | succ m ih =>
    obtain ⟨c, d', tail, hadvance, htail, rfl⟩ := Dec.advances_succ_eq_ok h
    rw [Nat.succ_add, Dec.advances, hadvance]
    simp only [ih htail, List.cons_append]

/-- What DEC_ADVANCE does first decides what DEC_ADVANCEs do. -/
theorem Dec.advances_congr {d d₁ : Dec} (h : d.advance = d₁.advance) {n : Nat} (hn : n ≠ 0) :
    Dec.advances n d = Dec.advances n d₁ := by
  obtain ⟨n, rfl⟩ := Nat.exists_eq_succ_of_ne_zero hn
  rw [Dec.advances, h, Dec.advances]

/-- A pass that begins at byte offset `k` yields the commands of the stream from there on, some or all of them. -/
theorem Dec.advances_of_startPass {d : Dec} {k pass : Nat} {cs rest : List Instr} (hnone : d.err = none)
    (hstart : d.advance = (d.startPass k pass).advance) (hwf : ∀ c ∈ cs, c.wf = true) (hcs : cs ≠ [])
    (hdrop : d.P.drop k = encodeStream (cs ++ rest)) : Dec.advances cs.length d = .ok (cs, { d.startPass k pass with
      cursor := k + 2 * cs.length, fp := cs.count .endFrame }) := by
  rw [encodeStream_append] at hdrop
  have hlength : cs.length ≠ 0 := List.length_eq_zero_iff.not.mpr hcs
  rw [Dec.advances_congr hstart hlength, Dec.advances_encodeStream (d := d.startPass k pass) hwf hnone rfl hdrop]
  simp only [Dec.startPass, Nat.zero_add]

/-! ### From one pass to the next -/

/-- The commands of the pass after one that counted `fp` Ends, over a stream of `frame0`, its End and `later`. -/
def passAfter (frame0 later : List Instr) (fp : Nat) : List Instr :=
  if 1 < fp then later else frame0 ++ .endFrame :: later

/-- A decoder of such a stream that has read nothing yet, or has read it to its end. -/
structure Dec.BetweenPasses (frame0 later : List Instr) (d : Dec) : Prop where
  noError : d.err = none
  stream : d.P = encodeStream (frame0 ++ .endFrame :: later)
  place : d.cursor = 0 ∧ d.fp = 0 ∨ d.cursor = d.L

section BetweenPasses
variable {frame0 later : List Instr} {d : Dec}

theorem Dec.BetweenPasses.length_pos (h : d.BetweenPasses frame0 later) : 1 < d.P.length := by
  rw [h.stream, length_encodeStream, List.length_append, List.length_cons]
  omega

/-- At the end of its stream a decoder has read something. -/
theorem Dec.BetweenPasses.cursor_ne_zero (h : d.BetweenPasses frame0 later) (hend : d.cursor = d.L) :
    d.cursor ≠ 0 := by
  have hpos := h.length_pos
  rw [hend, Dec.L]
  omega

theorem passAfter_ne_nil (hlater : later ≠ []) (fp : Nat) : passAfter frame0 later fp ≠ [] := by
  unfold passAfter
  split
  · exact hlater
  · simp

/-- The place in the stream where the next pass begins. -/
theorem Dec.BetweenPasses.exists_start (h : d.BetweenPasses frame0 later) (hwf : ∀ c ∈ frame0 ++ later, c.wf = true)
    (hframe : .endFrame ∉ frame0) (hlater : later ≠ []) :
    ∃ k, d.P.drop k = encodeStream (passAfter frame0 later d.fp) ∧
      d.advance = (d.startPass k (d.pass + if d.cursor = 0 then 0 else 1)).advance := by
  rcases h.place with ⟨hcursor, hfp⟩ | hend
  · rw [if_pos hcursor, passAfter, hfp]
    exact ⟨0, h.stream, Dec.advance_of_fresh h.noError hcursor hfp h.length_pos⟩
  · rw [if_neg (h.cursor_ne_zero hend), passAfter]
    split
    next hfp =>
      refine ⟨2 * (frame0.length + 1), ?_, Dec.advance_of_frame_skipped h.noError hend hfp
        (fun c hc => hwf c (List.mem_append_left _ hc)) hframe h.stream hlater⟩
      rw [h.stream, drop_encodeStream, List.append_cons, List.drop_left' (by simp)]
    next hfp =>
      exact ⟨0, h.stream, Dec.advance_of_short_pass h.noError hend (Nat.not_lt.mp hfp) h.length_pos⟩

theorem wf_of_mem_passAfter (hwf : ∀ c ∈ frame0 ++ later, c.wf = true) {fp : Nat} {c : Instr}
    (hc : c ∈ passAfter frame0 later fp) : c.wf = true := by
  unfold passAfter at hc
  split at hc
  next => exact hwf c (List.mem_append_right _ hc)
  next =>
    rcases List.mem_append.mp hc with h0 | hc
    · exact hwf c (List.mem_append_left _ h0)
    · rcases List.mem_cons.mp hc with rfl | hlater
      · rfl
      · exact hwf c (List.mem_append_right _ hlater)

/-- The next pass as far as it is played. -/
theorem Dec.BetweenPasses.advances_part (h : d.BetweenPasses frame0 later) (hwf : ∀ c ∈ frame0 ++ later, c.wf = true)
    (hframe : .endFrame ∉ frame0) (hlater : later ≠ []) {cs rest : List Instr}
    (hpass : passAfter frame0 later d.fp = cs ++ rest) :
    ∃ d', Dec.advances cs.length d = .ok (cs, d') ∧ d'.err = none := by
  obtain ⟨k, hdrop, hstart⟩ := h.exists_start hwf hframe hlater
  by_cases hcs : cs = []
  · subst hcs
    exact ⟨d, rfl, h.noError⟩
  · have hcswf : ∀ c ∈ cs, c.wf = true := fun c hc =>
      wf_of_mem_passAfter hwf (hpass ▸ List.mem_append_left _ hc)
    exact ⟨_, Dec.advances_of_startPass h.noError hstart hcswf hcs (hpass ▸ hdrop), h.noError⟩

/-- The whole next pass, which counts its Ends. -/
theorem Dec.BetweenPasses.advances (h : d.BetweenPasses frame0 later) (hwf : ∀ c ∈ frame0 ++ later, c.wf = true)
    (hframe : .endFrame ∉ frame0) (hlater : later ≠ []) {cs : List Instr}
    (hcs : passAfter frame0 later d.fp = cs) :
    ∃ d', Dec.advances cs.length d = .ok (cs, d') ∧ d'.BetweenPasses frame0 later ∧ d'.cursor = d'.L ∧
      d'.fp = cs.count .endFrame ∧ d'.pass = d.pass + if d.cursor = 0 then 0 else 1 := by
  subst hcs
  obtain ⟨k, hdrop, hstart⟩ := h.exists_start hwf hframe hlater
  have hend : k + 2 * (passAfter frame0 later d.fp).length = d.L := by
    have hlength := congrArg List.length hdrop
    rw [List.length_drop, length_encodeStream] at hlength
    have hpos := List.length_pos_iff.mpr (passAfter_ne_nil (frame0 := frame0) hlater d.fp)
    rw [Dec.L]
    omega
  exact ⟨_, Dec.advances_of_startPass (rest := []) h.noError hstart (fun _ => wf_of_mem_passAfter hwf)
    (passAfter_ne_nil hlater _) (by rw [hdrop, List.append_nil]), ⟨h.noError, h.stream, .inr hend⟩, hend, rfl, rfl⟩

theorem count_end_stream (hframe : .endFrame ∉ frame0) :
    (frame0 ++ .endFrame :: later).count .endFrame = later.count .endFrame + 1 := by
  rw [List.count_append, List.count_eq_zero.mpr hframe, List.count_cons_self, Nat.zero_add]

/-- A pass over the whole stream, where at most one End was counted before it. -/
theorem Dec.BetweenPasses.advances_whole (h : d.BetweenPasses frame0 later) (hwf : ∀ c ∈ frame0 ++ later, c.wf = true)
    (hframe : .endFrame ∉ frame0) (hlater : later ≠ []) (hfp : d.fp ≤ 1) :
    ∃ d', Dec.advances (frame0.length + 1 + later.length) d = .ok (frame0 ++ .endFrame :: later, d') ∧
      d'.BetweenPasses frame0 later ∧ d'.cursor = d'.L ∧ d'.fp = later.count .endFrame + 1 ∧
      d'.pass = d.pass + if d.cursor = 0 then 0 else 1 := by
  have hpass := h.advances hwf hframe hlater (if_neg (Nat.not_lt.mpr hfp))
  rwa [List.length_append, List.length_cons, Nat.add_comm later.length, ← Nat.add_assoc, count_end_stream hframe]
    at hpass

/-- A pass that leaves out frame 0, where more than one End was counted before it. -/
theorem Dec.BetweenPasses.advances_later (h : d.BetweenPasses frame0 later) (hwf : ∀ c ∈ frame0 ++ later, c.wf = true)
    (hframe : .endFrame ∉ frame0) (hlater : later ≠ []) (hend : d.cursor = d.L) (hfp : 1 < d.fp) :
    ∃ d', Dec.advances later.length d = .ok (later, d') ∧ d'.BetweenPasses frame0 later ∧ d'.cursor = d'.L ∧
      d'.fp = later.count .endFrame ∧ d'.pass = d.pass + 1 := by
  have hpass := h.advances hwf hframe hlater (if_pos hfp)
  rwa [if_neg (h.cursor_ne_zero hend)] at hpass

end BetweenPasses

/-! ### The statements -/

/-- Settles O37: each pass counts at least two Ends, so each next pass leaves out frame 0. -/
theorem laterPassesLeaveOutFrameZero : Obligations.LaterPassesLeaveOutFrameZero := by
  intro d frame0 later hwf hframe hcount hnone hcursor hfp hP k
  have hlater : later ≠ [] := by
    rintro rfl
    exact absurd hcount (by decide)
  have hfresh : d.BetweenPasses frame0 later := ⟨hnone, hP, .inl ⟨hcursor, hfp⟩⟩
  suffices h : ∃ d', Dec.advances (frame0.length + 1 + later.length + k * later.length) d =
      .ok (frame0 ++ .endFrame :: later ++ (List.replicate k later).flatten, d') ∧ d'.BetweenPasses frame0 later ∧
      d'.cursor = d'.L ∧ d'.pass = d.pass + k ∧ d'.fp = later.count .endFrame + if k = 0 then 1 else 0 by
    obtain ⟨d', hadvances, -, hrest⟩ := h
    exact ⟨d', hadvances, hrest⟩
  induction k with
  | zero =>
    obtain ⟨d', hadvances, h', hend, hfp', hpass⟩ := hfresh.advances_whole hwf hframe hlater (by omega)
    rw [if_pos hcursor] at hpass
    refine ⟨d', ?_, h', hend, hpass, hfp'⟩
    rwa [Nat.zero_mul, Nat.add_zero, List.replicate_zero, List.flatten_nil, List.append_nil]
  | succ k ih =>
    obtain ⟨d₁, hadvances₁, h₁, hend₁, hpass₁, hfp₁⟩ := ih
    obtain ⟨d', hadvances, h', hend, hfp', hpass⟩ := h₁.advances_later hwf hframe hlater hend₁ (by omega)
    refine ⟨d', ?_, h', hend, ?_, hfp'⟩
    · rw [Nat.succ_mul, ← Nat.add_assoc, Dec.advances_add hadvances₁ hadvances, List.replicate_succ',
        List.flatten_append, List.flatten_singleton, List.append_assoc]
    · rw [hpass, hpass₁, Nat.add_assoc]

/-- Settles O38: a pass over the whole stream counts two Ends and the pass after it one, so the passes come in pairs. -/
theorem twoFrameStreamAlternates : Obligations.TwoFrameStreamAlternates := by
  intro d frame0 later hwf hframe hcount hnone hcursor hfp hP k
  have hlater : later ≠ [] := by
    rintro rfl
    exact absurd hcount (by decide)
  have hfresh : d.BetweenPasses frame0 later := ⟨hnone, hP, .inl ⟨hcursor, hfp⟩⟩
  suffices h : ∃ d', Dec.advances (k * (frame0.length + 1 + later.length + later.length)) d =
      .ok ((List.replicate k (frame0 ++ .endFrame :: later ++ later)).flatten, d') ∧ d'.BetweenPasses frame0 later ∧
      d'.fp ≤ 1 ∧ (d'.pass + if d'.cursor = 0 then 0 else 1) = d.pass + 2 * k ∧
      (0 < k → d'.cursor = d'.L ∧ d'.fp = 1) by
    obtain ⟨d', hadvances, h', -, hpass, hrest⟩ := h
    refine ⟨d', hadvances, fun hk => ?_⟩
    obtain ⟨hend, hfp'⟩ := hrest hk
    rw [if_neg (h'.cursor_ne_zero hend)] at hpass
    exact ⟨hend, hfp', hpass⟩
  induction k with
  | zero =>
    refine ⟨d, ?_, hfresh, by omega, by rw [if_pos hcursor], nofun⟩
    rw [Nat.zero_mul]
    rfl
  | succ k ih =>
    obtain ⟨d₁, hadvances₁, h₁, hfp₁, hpass₁, -⟩ := ih
    obtain ⟨d₂, hadvances₂, h₂, hend₂, hfp₂, hpass₂⟩ := h₁.advances_whole hwf hframe hlater hfp₁
    obtain ⟨d', hadvances, h', hend, hfp', hpass⟩ := h₂.advances_later hwf hframe hlater hend₂ (by omega)
    rw [hcount] at hfp'
    refine ⟨d', ?_, h', hfp'.le, ?_, fun _ => ⟨hend, hfp'⟩⟩
    · rw [Nat.succ_mul, Dec.advances_add hadvances₁ (Dec.advances_add hadvances₂ hadvances), List.replicate_succ',
        List.flatten_append, List.flatten_singleton]
    · rw [if_neg (h'.cursor_ne_zero hend), hpass, hpass₂, hpass₁]
      omega

end Sys2Proof.Machine
end

section
/-!
PROOF. The endless loop of ENCODE's asset (44_decoder.md rules R119 to R122): every pass of the decoder begins where the pixel
buffer is ready for it and records its frames, and the tail makes the buffer ready for the pass after it.
-/

namespace Sys2Proof.Machine

/-! ### What applied commands leave of the events -/

theorem Interp.apply_appends {b b' : Interp} {validate : Bool} {c : Instr} (h : b.apply validate c = .ok b') :
    ∃ events, b'.out = b.out ++ events ∧ b'.frames = b.frames + events.length := by
  cases c with
  | endFrame =>
    obtain ⟨-, rfl⟩ := Interp.endFrame_eq_ok.mp h
    exact ⟨[b.frameOut], rfl, rfl⟩
  | skip n =>
    obtain ⟨-, rfl⟩ := Interp.skip_eq_ok.mp h
    exact ⟨[], (List.append_nil _).symm, rfl⟩
  | draw n q =>
    obtain ⟨-, rfl⟩ := Interp.draw_eq_ok.mp h
    exact ⟨[], (List.append_nil _).symm, rfl⟩

/-- Commands append events and count them, and leave the error register (40_commands.md rules R76 to R78). -/
theorem Interp.applyAll_appends {b b' : Interp} {validate : Bool} {cs : List Instr}
    (h : b.applyAll validate cs = .ok b') :
    b'.err = b.err ∧ ∃ events, b'.out = b.out ++ events ∧ b'.frames = b.frames + events.length := by
  induction cs generalizing b with
  | nil =>
    cases h
    exact ⟨rfl, [], (List.append_nil _).symm, rfl⟩
  | cons c rest ih =>
    obtain ⟨b₁, hfirst, hrest⟩ := Interp.applyAll_cons_eq_ok h
    obtain ⟨events₁, hout₁, hframes₁⟩ := Interp.apply_appends hfirst
    obtain ⟨herr, events, hout, hframes⟩ := ih hrest
    refine ⟨herr.trans (Interp.err_of_apply hfirst), events₁ ++ events, ?_, ?_⟩
    · rw [hout, hout₁, List.append_assoc]
    · rw [hframes, hframes₁, List.length_append, Nat.add_assoc]

/-- Commands that all answer: some of them do, and then the others. -/
theorem Interp.applyAll_append_eq_ok {b b' : Interp} {validate : Bool} {cs cs' : List Instr}
    (h : b.applyAll validate (cs ++ cs') = .ok b') :
    ∃ b₁, b.applyAll validate cs = .ok b₁ ∧ b₁.applyAll validate cs' = .ok b' := by
  induction cs generalizing b with
  | nil => exact ⟨b, rfl, h⟩
  | cons c rest ih =>
    obtain ⟨b₁, hfirst, hrest⟩ := Interp.applyAll_cons_eq_ok h
    obtain ⟨b₂, hcs, hcs'⟩ := ih hrest
    exact ⟨b₂, (Interp.applyAll_cons rest hfirst).trans hcs, hcs'⟩

/-! ### The buffer after a pass -/

theorem Interp.ReadyFor.forget {b : Interp} {prev : Option (List Intensity)} (h : b.ReadyFor prev) : b.ReadyFor none :=
  { h with shows := nofun }

/-- The buffer that a frame's commands leave is ready for a frame encoded against it. -/
theorem Interp.ReadyFor.frameShown {b : Interp} {prev : Option (List Intensity)} {q : List Intensity} {m : Memory}
    (h : b.ReadyFor prev) (hq : q.length = b.npix) (hshows : Shows m q) (frames : Nat) (out : List FrameOut) :
    Interp.ReadyFor { b with buf := m, frames := frames, out := out } (some q) where
  noError := h.noError
  atStart := h.atStart
  bufWithin := by
    have hwithin := hshows.within
    rwa [hq] at hwithin
  shows old hold := Option.some.inj hold ▸ ⟨hq, hshows⟩

/-- A sequence of frames leaves a buffer that is ready for a frame encoded against the last of them. -/
theorem Interp.ReadyFor.chainShown {b b' : Interp} {prev : Option (List Intensity)} {frames : List (List Intensity)}
    {validate : Bool} (h : b.ReadyFor prev) (hframes : ∀ q ∈ frames, q.length = b.npix)
    (happly : b.applyAll validate (chainCommands prev frames) = .ok b') : b'.ReadyFor (frames.getLast?.or prev) := by
  induction frames generalizing b prev with
  | nil =>
    cases happly
    exact h
  | cons q rest ih =>
    obtain ⟨hq, hrest⟩ := List.forall_mem_cons.mp hframes
    obtain ⟨m, hshows, hframe⟩ := h.applyAll_frameCommands validate hq
    rw [chainCommands, Interp.applyAll_append _ hframe] at happly
    have hready := ih (h.frameShown hq hshows _ _) hrest happly
    rwa [Option.or_some, ← Option.some_or (o := prev), ← List.getLast?_cons] at hready

/-! ### The events of the loop -/

/-- The events are numbered, and the one numbered `k` shows frame `k mod N`. -/
structure Interp.ShowsLoop (F : List RawFrame) (b : Interp) : Prop where
  noError : b.err = none
  counted : b.out.length = b.frames
  shown : ∀ k e, b.out[k]? = some e → e.k = k ∧ ∃ f, F[k % F.length]? = some f ∧ Shows e.cells f.levels

/-- What is so of the events after some commands is so of those before them. -/
theorem Interp.ShowsLoop.of_applyAll {F : List RawFrame} {b b' : Interp} {validate : Bool} {cs : List Instr}
    (h : b'.ShowsLoop F) (happly : b.applyAll validate cs = .ok b') : b.ShowsLoop F := by
  obtain ⟨herr, events, hout, hframes⟩ := Interp.applyAll_appends happly
  refine ⟨herr ▸ h.noError, ?_, fun k e he => h.shown k e ?_⟩
  · have hcounted := h.counted
    rw [hout, hframes, List.length_append] at hcounted
    omega
  · rw [hout, List.getElem?_append_left (List.getElem?_eq_some_iff.mp he).1, he]

/-- Frames recorded after those of the loop so far, each where the loop has it. -/
theorem Interp.ShowsLoop.append {F : List RawFrame} {b : Interp} {frames : List RawFrame} {events : List FrameOut}
    {m : Memory} (h : b.ShowsLoop F) (hrecords : Records b.frames (frames.map RawFrame.levels) events)
    (hframes : ∀ j, j < frames.length → frames[j]? = F[(b.frames + j) % F.length]?) :
    Interp.ShowsLoop F { b with buf := m, frames := b.frames + frames.length, out := b.out ++ events } := by
  obtain ⟨hlength, hevents⟩ := hrecords
  rw [List.length_map] at hlength
  refine ⟨h.noError, ?_, fun k e he => ?_⟩
  · rw [List.length_append, h.counted, hlength]
  · rcases Nat.lt_or_ge k b.out.length with hlt | hge
    · exact h.shown k e (List.getElem?_append_left hlt ▸ he)
    · obtain ⟨j, rfl⟩ := Nat.exists_eq_add_of_le hge
      rw [List.getElem?_append_right hge, Nat.add_sub_cancel_left] at he
      have hj : j < frames.length := hlength ▸ (List.getElem?_eq_some_iff.mp he).1
      have hf := List.getElem?_eq_getElem hj
      obtain ⟨e', he', hk, hshows⟩ := hevents j frames[j].levels (by rw [List.getElem?_map, hf]; rfl)
      obtain rfl : e = e' := Option.some.inj (he.symm.trans he')
      rw [h.counted]
      exact ⟨hk, frames[j], (hframes j hj).symm.trans hf, hshows⟩

/-! ### The loop's passes -/

/-- The tail stands where the loop comes round to frame 0 (43_encoder.md rule R102). -/
theorem getElem?_withTail {α : Type} {F : List α} {j : Nat} (hj : j ≤ F.length) : (withTail F)[j]? = F[j % F.length]? := by
  cases F with
  | nil => rfl
  | cons f rest =>
    rcases Nat.lt_or_eq_of_le hj with hlt | rfl
    · rw [withTail, List.getElem?_append_left hlt, Nat.mod_eq_of_lt hlt]
    · rw [withTail, List.getElem?_concat_length, Nat.mod_self]
      rfl

/-- The commands of frame 0 but its End (43_encoder.md rule R105). -/
def headRuns (f : RawFrame) : List Instr := emitRuns .skip 0 (frameKeys none f.levels)

/-- The commands of the frames after frame 0, the tail among them (rules R102, R105). -/
def laterCommands (f : RawFrame) (rest : List RawFrame) : List Instr :=
  chainCommands (some f.levels) ((rest ++ [f]).map RawFrame.levels)

section loop
variable {f : RawFrame} {rest : List RawFrame}

theorem streamCommands_cons : streamCommands (f :: rest) = headRuns f ++ .endFrame :: laterCommands f rest := by
  simp only [streamCommands, withTail, List.cons_append, List.map_cons, chainCommands, frameCommands, headRuns,
    laterCommands, List.append_assoc, List.nil_append]

theorem count_end_laterCommands : (laterCommands f rest).count .endFrame = rest.length + 1 := by
  rw [laterCommands, count_end_chainCommands, List.length_map, List.length_append, List.length_singleton]

theorem laterCommands_ne_nil : laterCommands f rest ≠ [] := fun hnil => by
  have hcount := count_end_laterCommands (f := f) (rest := rest)
  rw [hnil] at hcount
  cases hcount

theorem end_notMem_headRuns : .endFrame ∉ headRuns f := fun hend =>
  (isRun_of_mem_emitRuns (Nat.zero_le _) hend).2 rfl

theorem wf_of_mem_loop : ∀ c ∈ headRuns f ++ laterCommands f rest, c.wf = true := by
  intro c hc
  refine (List.mem_append.mp hc).elim (fun h => ?_) wf_of_mem_chainCommands
  exact (isRun_of_mem_emitRuns (Nat.zero_le _) h).1

/-- The frame with which the pass begins, after one that counted `fp` Ends: 0, or 1 where frame 0 is left out. -/
def passStart (fp : Nat) : Nat := if 1 < fp then 1 else 0

/-- The frame that the pass is encoded against. -/
def passPrev (f : RawFrame) (fp : Nat) : Option (List Intensity) := if 1 < fp then some f.levels else none

/-- A pass over ENCODE's stream is its frames from the first or the second on, each encoded against the one before. -/
theorem passAfter_loop (fp : Nat) : passAfter (headRuns f) (laterCommands f rest) fp =
    chainCommands (passPrev f fp) (((withTail (f :: rest)).drop (passStart fp)).map RawFrame.levels) := by
  unfold passAfter passPrev passStart
  split
  · rfl
  · exact streamCommands_cons.symm

/-- Every pass ends with the tail. -/
theorem getLast?_passFrames (fp : Nat) : ((withTail (f :: rest)).drop (passStart fp)).getLast? = some f := by
  unfold passStart
  split
  · exact List.getLast?_concat
  · exact List.getLast?_concat

theorem passStart_le (fp : Nat) : passStart fp ≤ 1 := by
  unfold passStart
  split <;> omega

/-- Where a pass of the loop begins: the buffer shows what the pass is encoded against, and the frames recorded so far
go through the loop up to the pass. -/
structure LoopPoint (f : RawFrame) (rest : List RawFrame) (d : Dec) (b : Interp) : Prop where
  between : d.BetweenPasses (headRuns f) (laterCommands f rest)
  ready : b.ReadyFor (passPrev f d.fp)
  size : ∀ g ∈ f :: rest, g.levels.length = b.npix
  showsLoop : b.ShowsLoop (f :: rest)
  phase : b.frames ≡ passStart d.fp [MOD (f :: rest).length]

variable {d : Dec} {b : Interp}

/-- The tail leaves the buffer as it was after frame 0, so the next pass may begin with frame 0 or with frame 1. -/
theorem readyFor_passPrev (h : b.ReadyFor (some f.levels)) (fp : Nat) : b.ReadyFor (passPrev f fp) := by
  unfold passPrev
  split
  · exact h
  · exact h.forget

/-- After the tail the loop goes on with frame 1; a pass that counts at most one End is that of a single frame, which is
frame 0 and frame 1 of the loop. -/
theorem modEq_passStart {N k start fp : Nat} (hk : k ≡ start [MOD N]) (hstart : start ≤ 1) (hpos : 0 < N)
    (hfp : fp = N + 1 - start) : k + fp ≡ passStart fp [MOD N] := by
  have hnext : k + fp ≡ 1 [MOD N] := by
    have hsum : start + fp = N + 1 := by omega
    exact (hk.add_right fp).trans (hsum ▸ Nat.add_modEq_left)
  unfold passStart
  split
  · exact hnext
  · obtain rfl : N = 1 := by omega
    exact Nat.modEq_one

/-- A pass ends where the next one begins, with at least one frame more. -/
theorem LoopPoint.pass (h : LoopPoint f rest d b) (validate : Bool) {cs : List Instr}
    (hcs : passAfter (headRuns f) (laterCommands f rest) d.fp = cs) :
    ∃ d' b', Dec.advances cs.length d = .ok (cs, d') ∧ b.applyAll validate cs = .ok b' ∧ LoopPoint f rest d' b' ∧
      b.frames < b'.frames := by
  obtain ⟨d', hadvances, hbetween, -, hfp, -⟩ :=
    h.between.advances wf_of_mem_loop end_notMem_headRuns laterCommands_ne_nil hcs
  have hstart := passStart_le d.fp
  have hlength : ((withTail (f :: rest)).drop (passStart d.fp)).length = (f :: rest).length + 1 - passStart d.fp := by
    rw [List.length_drop, length_withTail (List.cons_ne_nil f rest)]
  have hsize : ∀ q ∈ ((withTail (f :: rest)).drop (passStart d.fp)).map RawFrame.levels, q.length = b.npix :=
    List.forall_mem_map.mpr fun g hg => h.size g (mem_of_mem_withTail (List.mem_of_mem_drop hg))
  obtain ⟨m, events, hrecords, happly⟩ := h.ready.applyAll_chainCommands validate hsize
  have hready := h.ready.chainShown hsize happly
  rw [List.getLast?_map, getLast?_passFrames] at hready
  rw [List.length_map] at happly hready
  have hcount : d'.fp = ((withTail (f :: rest)).drop (passStart d.fp)).length := by
    rw [hfp, ← hcs, passAfter_loop, count_end_chainCommands, List.length_map]
  have hshows := h.showsLoop.append (m := m) hrecords fun j hj => by
    rw [List.getElem?_drop, getElem?_withTail (by omega), h.phase.add_right j]
  rw [← passAfter_loop, hcs, ← hcount] at happly
  rw [← hcount] at hready hshows
  refine ⟨d', _, hadvances, happly, ⟨hbetween, readyFor_passPrev hready _, h.size, hshows, ?_⟩, ?_⟩
  · exact modEq_passStart h.phase hstart (Nat.zero_lt_succ _) (hcount.trans hlength)
  · have hpos : 0 < d'.fp := by
      rw [hcount, hlength, List.length_cons]
      omega
    exact Nat.lt_add_of_pos_right hpos

theorem length_passAfter_le (fp : Nat) :
    (passAfter (headRuns f) (laterCommands f rest) fp).length ≤ (streamCommands (f :: rest)).length := by
  rw [streamCommands_cons]
  unfold passAfter
  split
  · rw [List.length_append, List.length_cons]
    omega
  · exact Nat.le_refl _

/-- Any number of commands played from the start of a pass: whole passes, and then a part of one. -/
theorem LoopPoint.plays (h : LoopPoint f rest d b) (validate : Bool) (n : Nat) :
    ∃ cs d' b', Dec.advances n d = .ok (cs, d') ∧ b.applyAll validate cs = .ok b' ∧ d'.err = none ∧
      b'.ShowsLoop (f :: rest) ∧ ∀ m, m * (streamCommands (f :: rest)).length ≤ n → b.frames + m ≤ b'.frames := by
  induction n using Nat.strong_induction_on generalizing d b with
  | _ n ih =>
    obtain ⟨pass, hpass⟩ : ∃ pass, passAfter (headRuns f) (laterCommands f rest) d.fp = pass := ⟨_, rfl⟩
    have hpos : 0 < pass.length := List.length_pos_iff.mpr (hpass ▸ passAfter_ne_nil laterCommands_ne_nil _)
    have hle : pass.length ≤ (streamCommands (f :: rest)).length := hpass ▸ length_passAfter_le d.fp
    obtain ⟨d₁, b₁, hadvances, happly, h₁, hmore⟩ := h.pass validate hpass
    rcases Nat.lt_or_ge n pass.length with hlt | hge
    · have hsplit := (List.take_append_drop n pass).symm
      obtain ⟨d', hadvances', hnone⟩ := h.between.advances_part wf_of_mem_loop end_notMem_headRuns
        laterCommands_ne_nil (hpass.trans hsplit)
      rw [hsplit] at happly
      obtain ⟨b', happly', hrest⟩ := Interp.applyAll_append_eq_ok happly
      rw [List.length_take, Nat.min_eq_left (Nat.le_of_lt hlt)] at hadvances'
      obtain ⟨-, events, -, hframes⟩ := Interp.applyAll_appends happly'
      refine ⟨_, d', b', hadvances', happly', hnone, h₁.showsLoop.of_applyAll hrest, fun m hm => ?_⟩
      obtain rfl : m = 0 := by
        by_contra hne
        have hfits := Nat.le_mul_of_pos_left (streamCommands (f :: rest)).length (Nat.pos_of_ne_zero hne)
        omega
      omega
    · obtain ⟨cs, d', b', hadvances', happly', hnone, hshows, hprogress⟩ := ih (n - pass.length) (by omega) h₁
      have hadvancesAll := Dec.advances_add hadvances hadvances'
      rw [Nat.add_sub_cancel' hge] at hadvancesAll
      refine ⟨_, d', b', hadvancesAll, (Interp.applyAll_append cs happly).trans happly', hnone, hshows, fun m hm => ?_⟩
      cases m with
      | zero =>
        have hkept := hprogress 0 (by omega)
        omega
      | succ m =>
        rw [Nat.succ_mul] at hm
        have hgained := hprogress m (by omega)
        omega

end loop

/-- Settles O58: a fresh decoder and a fresh buffer stand where the first pass of the loop begins. -/
theorem playedAssetLoopsSeamlessly : Obligations.PlayedAssetLoopsSeamlessly := by
  intro s W H fc fps blob F hwf hasset hscript hd hb n
  obtain ⟨hF, hdims, hresult⟩ := encodeAsset_eq_ok hasset
  obtain rfl : blob = Config.filter.compress (physicalStream F) := by injection hresult
  obtain ⟨f, rest, rfl⟩ := List.exists_cons_of_ne_nil hF
  have hfresh : LoopPoint f rest (Dec.construct Config.filter (Config.filter.compress (physicalStream (f :: rest)))
      W H fc fps) (Interp.reset W H []) := by
    rw [Dec.construct_compress]
    exact
      { between := ⟨rfl, congrArg encodeStream streamCommands_cons, .inl ⟨rfl, rfl⟩⟩
        ready := .reset W H []
        size := fun g hg => by
          obtain ⟨hw, hh⟩ := hdims g hg
          rw [RawFrame.length_levels (hwf g hg), hw, hh]
          rfl
        showsLoop := ⟨rfl, rfl, nofun⟩
        phase := rfl }
  obtain ⟨cs, d, b, hadvances, happly, hnone, hshows, hprogress⟩ := hfresh.plays s.validateFrameLen n
  obtain ⟨r, hrun⟩ := run_plays hscript hd hb rfl hadvances happly
  obtain ⟨hltd, -⟩ := List.getElem?_eq_some_iff.mp hd
  obtain ⟨hltb, -⟩ := List.getElem?_eq_some_iff.mp hb
  refine ⟨_, d, b, hrun, List.getElem?_set_self hltd, hnone, List.getElem?_set_self hltb, hshows.noError,
    hshows.counted, fun m hm => ?_, hshows.shown⟩
  exact (Nat.zero_add m).symm.le.trans (hprogress m hm)

end Sys2Proof.Machine
end

section
/-!
PROOF. The units' error registers: a fault taken writes one of them and the result, and where the code stands already it
writes the result alone (60_exceptions.md rules R129 to R131).
-/

namespace Sys2Proof.Machine

/-! ### The error register of a unit -/

/-- What a unit's error register holds (10_state.md rules R23, R35, R40); a unit that does not exist holds no code. -/
def State.errOf (s : State) : UnitId → Option FaultCode
  | .enc => s.enc.err
  | .dec k => s.decs[k]?.bind Dec.err
  | .int k => s.ints[k]?.bind Interp.err

theorem State.errOf_dec_eq_some {s : State} {k : Nat} {c : FaultCode} :
    s.errOf (.dec k) = some c ↔ ∃ d, s.decs[k]? = some d ∧ d.err = some c :=
  Option.bind_eq_some_iff

theorem State.errOf_int_eq_some {s : State} {k : Nat} {c : FaultCode} :
    s.errOf (.int k) = some c ↔ ∃ b, s.ints[k]? = some b ∧ b.err = some c :=
  Option.bind_eq_some_iff

theorem Enc.withErr_of_err_eq {e : Enc} {c : FaultCode} (h : e.err = some c) : e.withErr c = e := by
  rw [Enc.withErr, ← h]

theorem Interp.withErr_of_err_eq {b : Interp} {c : FaultCode} (h : b.err = some c) : b.withErr c = b := by
  rw [Interp.withErr, ← h]

/-- A code that its unit holds already is recorded where it stands (60_exceptions.md rule R131). -/
theorem State.takeFault_of_err {s : State} {u : UnitId} {c : FaultCode} (h : s.errOf u = some c) :
    s.takeFault u c = s.answer (.fault c) := by
  cases u with
  | enc =>
    rw [State.takeFault_enc, Enc.withErr_of_err_eq h]
    rfl
  | dec k =>
    obtain ⟨d, hd, herr⟩ := State.errOf_dec_eq_some.mp h
    rw [State.takeFault_dec hd, Dec.withErr_of_err_eq herr, State.putDec_eq_self hd]
  | int k =>
    obtain ⟨b, hb, herr⟩ := State.errOf_int_eq_some.mp h
    rw [State.takeFault_int hb, Interp.withErr_of_err_eq herr, State.putInt_eq_self hb]

/-- Settles O28: the operation takes the fault that stands, which changes the result alone. -/
theorem faultedUnitRaisesTheSameCodeAgain : Obligations.FaultedUnitRaisesTheSameCodeAgain := by
  intro s c
  refine ⟨fun herr op hop => ?_, fun k d hd herr => ?_, fun k b i hb herr => ?_⟩
  · rw [runOp_of_enc_err hop herr, State.takeFault_of_err (u := .enc) herr]
    rfl
  · have hstands : s.errOf (.dec k) = some c := State.errOf_dec_eq_some.mpr ⟨d, hd, herr⟩
    calc runOp (.decAdvance k) s
        = .next (s.takeFault (.dec k) c) := by rw [runOp, State.decAdvance_eq hd, Dec.advance_of_err herr]; rfl
      _ = .next (s.answer (.fault c)) := by rw [State.takeFault_of_err hstands]
  · exact State.intApply_of_err hb herr

/-! ### A fault handed back is a fault taken (rule R130) -/

/-- An operation whose answers are no faults hands back a fault only where it took one. -/
theorem State.eq_takeFault_of_finish {α : Type} {s t : State} {u : UnitId} {r : Except Stop α} {f : α → State}
    {c : FaultCode} (h : s.finish u (r.map f) = .next t) (hr : ∀ x, r = .ok x → (f x).result ≠ .fault c)
    (hc : t.result = .fault c) : t = s.takeFault u c := by
  refine State.finish_map_next (φ := fun t => t.result = .fault c → t = s.takeFault u c) h (fun x hx hfault => ?_)
    (fun c' hfault => ?_) hc
  · exact absurd hfault (hr x hx)
  · obtain rfl : c' = c := Result.fault.inj hfault
    rfl

/-- What ENC_FINISH returns is an asset (43_encoder.md rule R103). -/
theorem Enc.finish_result_ne_fault {F : Filter} {e : Enc} {r : Enc × Result} (hr : e.finish F = .ok r)
    (c : FaultCode) : r.2 ≠ .fault c := by
  obtain ⟨-, -, hbody⟩ := Enc.inPhase_eq_ok.mp hr
  split at hbody <;> cases hbody
  exact nofun

theorem State.decAdvance_fault {s t : State} {k : Nat} {c : FaultCode} (h : s.decAdvance k = .next t)
    (hc : t.result = .fault c) : ∃ d, s.decs[k]? = some d ∧ t = s.takeFault (.dec k) c := by
  cases hd : s.decs[k]? with
  | none =>
    rw [State.decAdvance, hd] at h
    cases h
  | some d =>
    rw [State.decAdvance_eq hd] at h
    exact ⟨d, rfl, State.eq_takeFault_of_finish h (fun _ _ => nofun) hc⟩

theorem State.intApply_fault {s t : State} {k : Nat} {i : Instr} {c : FaultCode} (h : s.intApply k i = .next t)
    (hc : t.result = .fault c) : ∃ b, s.ints[k]? = some b ∧ t = s.takeFault (.int k) c := by
  obtain ⟨b, hb, ⟨-, b', -, rfl⟩ | ⟨c', -, rfl⟩⟩ := State.onInt_eq_next.mp h
  · cases hc
  · obtain rfl : c' = c := Result.fault.inj hc
    exact ⟨b, hb, rfl⟩

theorem State.intReset_result_ne_fault (s : State) (k : Nat) (W H : BitVec 16) (c : FaultCode) :
    (s.intReset k W H).result ≠ .fault c := by
  unfold State.intReset
  split <;> exact nofun

/-- Settles O27: only the operations of ENC and of the formatter, DEC_ADVANCE and INT_APPLY hand back a fault, and each
has taken it in its own unit. -/
theorem faultsArePrecise : Obligations.FaultsArePrecise := by
  intro op s t c h hc
  cases op with
  | encBegin | encFrameBegin | encPixel | encFrameEnd | fmtSkip | fmtDraw =>
    exact .inl ⟨rfl, State.eq_takeFault_of_finish h (fun _ _ => nofun) hc⟩
  | encFinish => exact .inl ⟨rfl, State.eq_takeFault_of_finish h (fun _ hr => Enc.finish_result_ne_fault hr c) hc⟩
  | quant | fmtEnd | fmtSerialize | parseBytes | parse | decConstruct | drive =>
    cases h
    cases hc
  | decAdvance k =>
    obtain ⟨d, hd, rfl⟩ := State.decAdvance_fault h hc
    exact .inr (.inl ⟨k, d, rfl, hd, State.takeFault_dec hd c⟩)
  | intReset k W H =>
    cases h
    exact absurd hc (s.intReset_result_ne_fault k W H c)
  | intApply k i =>
    obtain ⟨b, hb, rfl⟩ := State.intApply_fault h hc
    exact .inr (.inr ⟨k, i, b, rfl, hb, State.takeFault_int hb c⟩)

end Sys2Proof.Machine
end

section
/-!
PROOF. Sticky errors: over every step, each unit's error register keeps a code it holds, but for the unit's reset
operation (10_state.md rules R23, R35, R40; 60_exceptions.md rule R131).
-/

namespace Sys2Proof.Machine

/-! ### The error registers that one write leaves unchanged -/

@[simp] theorem State.errOf_answer (s : State) (r : Result) (v : UnitId) : (s.answer r).errOf v = s.errOf v := by
  cases v <;> rfl

@[simp] theorem State.errOf_takeOp (s : State) (rest : List Op) (v : UnitId) :
    (s.takeOp rest).errOf v = s.errOf v := by
  cases v <;> rfl

section write
variable (s : State) {v : UnitId}

theorem State.errOf_putEnc_of_ne (hv : v ≠ .enc) (e : Enc) : (s.putEnc e).errOf v = s.errOf v := by
  cases v with
  | enc => exact absurd rfl hv
  | dec j | int j => rfl

theorem State.errOf_putDec_of_ne {k : Nat} (hv : v ≠ .dec k) (d : Dec) : (s.putDec k d).errOf v = s.errOf v := by
  cases v with
  | dec j =>
    have hj : k ≠ j := fun heq => hv (heq ▸ rfl)
    exact congrArg (Option.bind · Dec.err) (List.getElem?_set_ne hj)
  | enc | int j => rfl

theorem State.errOf_putInt_of_ne {k : Nat} (hv : v ≠ .int k) (b : Interp) : (s.putInt k b).errOf v = s.errOf v := by
  cases v with
  | int j =>
    have hj : k ≠ j := fun heq => hv (heq ▸ rfl)
    exact congrArg (Option.bind · Interp.err) (List.getElem?_set_ne hj)
  | enc | dec j => rfl

/-- A fault taken in one unit leaves the error registers of the others (rules R129, R130). -/
theorem State.errOf_takeFault_of_ne {u : UnitId} (hv : v ≠ u) (c : FaultCode) :
    (s.takeFault u c).errOf v = s.errOf v := by
  rw [State.takeFault, State.errOf_answer]
  cases u with
  | enc => exact s.errOf_putEnc_of_ne hv _
  | dec k =>
    simp only [State.recordFault]
    split
    · exact s.errOf_putDec_of_ne hv _
    · rfl
  | int k =>
    simp only [State.recordFault]
    split
    · exact s.errOf_putInt_of_ne hv _
    · rfl

end write

/-! ### An operation keeps the codes that stand -/

/-- From `s` to `t` a code in the error register of `v` stays there. -/
def State.KeepsErr (s : State) (v : UnitId) (t : State) : Prop := ∀ c, s.errOf v = some c → t.errOf v = some c

theorem State.KeepsErr.of_eq {s t : State} {v : UnitId} (h : t.errOf v = s.errOf v) : s.KeepsErr v t :=
  fun _ hc => h.trans hc

theorem State.KeepsErr.trans {s t u : State} {v : UnitId} (h : s.KeepsErr v t) (h' : t.KeepsErr v u) :
    s.KeepsErr v u :=
  fun c hc => h' c (h c hc)

section finish
variable {α : Type} {s t : State} {u v : UnitId} {r : Except Stop α} {f : α → State}

/-- An operation of one unit leaves the error registers of the others, whether it answers or takes a fault. -/
theorem State.errOf_finish_of_ne (h : s.finish u (r.map f) = .next t) (hv : v ≠ u)
    (hf : ∀ x, (f x).errOf v = s.errOf v) : t.errOf v = s.errOf v :=
  State.finish_map_next (φ := fun t => t.errOf v = s.errOf v) h (fun x _ => hf x) (s.errOf_takeFault_of_ne hv)

/-- An operation that looks at its unit's sticky error first keeps every unit's code. -/
theorem State.keepsErr_finish (h : s.finish u (r.map f) = .next t)
    (hsticky : ∀ c, s.errOf u = some c → r = .error (.raised c))
    (hf : ∀ x, v ≠ u → (f x).errOf v = s.errOf v) : s.KeepsErr v t := by
  by_cases hv : v = u
  · subst hv
    intro c hc
    have ht : t = s.takeFault v c := by
      rw [hsticky c hc] at h
      exact (Host.Outcome.next.inj h).symm
    rw [ht, State.takeFault_of_err hc, State.errOf_answer, hc]
  · exact .of_eq (State.errOf_finish_of_ne h hv fun x => hf x hv)

end finish

section operations
variable {s t : State} {v : UnitId}

theorem State.keepsErr_onEnc {r : Except Stop Enc} (h : s.onEnc r = .next t)
    (hsticky : ∀ c, s.enc.err = some c → r = .error (.raised c)) : s.KeepsErr v t :=
  State.keepsErr_finish h hsticky fun e hv => s.errOf_putEnc_of_ne hv e

theorem State.keepsErr_onFmt {r : Except Stop Word} (h : s.onFmt r = .next t) : s.KeepsErr v t :=
  State.keepsErr_finish h (fun c hc => sticky_eq_error.mpr (.inl ⟨c, hc, rfl⟩)) fun w _ => s.errOf_answer (.word w) v

theorem State.keepsErr_decConstruct (s : State) (blob : Bytes) (W H : BitVec 16) (frameCount : Nat) (fps : Fps) :
    s.KeepsErr v (s.decConstruct blob W H frameCount fps) := by
  cases v with
  | dec k =>
    intro c hc
    obtain ⟨d, hd, herr⟩ := State.errOf_dec_eq_some.mp hc
    obtain ⟨hlt, -⟩ := List.getElem?_eq_some_iff.mp hd
    exact State.errOf_dec_eq_some.mpr ⟨d, (List.getElem?_append_left hlt).trans hd, herr⟩
  | enc | int k => exact .of_eq rfl

theorem State.keepsErr_decAdvance {k : Nat} (h : s.decAdvance k = .next t) : s.KeepsErr v t := by
  cases hd : s.decs[k]? with
  | none =>
    rw [State.decAdvance, hd] at h
    cases h
  | some d =>
    rw [State.decAdvance_eq hd] at h
    refine State.keepsErr_finish h (fun c hc => ?_) fun r hv => s.errOf_putDec_of_ne hv r.2
    obtain ⟨d', hd', herr⟩ := State.errOf_dec_eq_some.mp hc
    obtain rfl := Option.some.inj (hd.symm.trans hd')
    exact Dec.advance_of_err herr

/-- INT_RESET of another buffer, or of a new one after those that exist, leaves the code of `v`. -/
theorem State.keepsErr_intReset {k : Nat} (s : State) (hv : v ≠ .int k) (W H : BitVec 16) :
    s.KeepsErr v (s.intReset k W H) := by
  unfold State.intReset
  split
  next x _ => exact .of_eq (s.errOf_putInt_of_ne hv (Interp.reset W H x.out))
  next =>
    cases v with
    | int j =>
      intro c hc
      obtain ⟨b, hb, herr⟩ := State.errOf_int_eq_some.mp hc
      obtain ⟨hlt, -⟩ := List.getElem?_eq_some_iff.mp hb
      exact State.errOf_int_eq_some.mpr ⟨b, (List.getElem?_append_left hlt).trans hb, herr⟩
    | enc | dec j => exact .of_eq rfl

theorem State.keepsErr_intApply {k : Nat} {i : Instr} (h : s.intApply k i = .next t) : s.KeepsErr v t := by
  by_cases hv : v = .int k
  · subst hv
    intro c hc
    obtain ⟨b, hb, herr⟩ := State.errOf_int_eq_some.mp hc
    rw [State.intApply_of_err hb herr] at h
    cases h
    rw [State.errOf_answer, hc]
  · exact State.intApply_next h (fun _ x' _ _ => .of_eq (s.errOf_putInt_of_ne hv x'))
      fun code => .of_eq (s.errOf_takeFault_of_ne hv code)

end operations

/-! ### The machine -/

/-- The unit that a reset operation starts anew, which is the one way to clear its error (60_exceptions.md rules R131,
R132). DEC_CONSTRUCT is none: it makes a new decoder. -/
def resetUnit : Op → Option UnitId
  | .encBegin _ _ _ => some .enc
  | .intReset k _ _ => some (.int k)
  | _ => none

theorem runOp_keepsErr {op : Op} {s t : State} {v : UnitId} (h : runOp op s = .next t)
    (hreset : resetUnit op ≠ some v) : s.KeepsErr v t := by
  cases op with
  | encBegin W H fps =>
    have hv : v ≠ .enc := fun heq => hreset (heq ▸ rfl)
    exact .of_eq (State.errOf_finish_of_ne h hv (s.errOf_putEnc_of_ne hv))
  | encFrameBegin | encPixel | encFrameEnd =>
    exact State.keepsErr_onEnc h fun _ herr => Enc.inPhase_of_err herr _
  | encFinish =>
    exact State.keepsErr_finish h (fun _ herr => Enc.inPhase_of_err herr _) fun r hv => s.errOf_putEnc_of_ne hv r.1
  | fmtSkip | fmtDraw => exact State.keepsErr_onFmt h
  | quant | fmtEnd | fmtSerialize | parseBytes | parse | drive =>
    cases h
    cases v <;> exact .of_eq rfl
  | decConstruct blob W H frameCount fps =>
    cases h
    exact s.keepsErr_decConstruct blob W H frameCount fps
  | decAdvance => exact State.keepsErr_decAdvance h
  | intReset k W H =>
    cases h
    have hv : v ≠ .int k := fun heq => hreset (heq ▸ rfl)
    exact s.keepsErr_intReset hv W H
  | intApply => exact State.keepsErr_intApply h

/-- A play iteration on a faulted decoder ends with its code again; on any other it writes the decoder's registers, and
INT_APPLY keeps the code of the buffer. -/
theorem play_keepsErr {s t : State} (h : play s = .next t) (v : UnitId) : s.KeepsErr v t := by
  by_cases hv : v = .dec s.cur
  · subst hv
    intro c hc
    obtain ⟨d, hd, herr⟩ := State.errOf_dec_eq_some.mp hc
    rw [play_of_advance_error hd (Dec.advance_of_err herr), State.finish_raised, State.takeFault_of_err hc] at h
    cases h
    rw [State.errOf_answer, hc]
  · refine play_next h (fun _ _ d' _ _ happly => ?_) fun code => .of_eq (s.errOf_takeFault_of_ne hv code)
    exact (State.KeepsErr.of_eq (s.errOf_putDec_of_ne hv d')).trans (State.keepsErr_intApply happly)

theorem step_keepsErr {s t : State} {v : UnitId} (h : step s = .next t)
    (hreset : ∀ op rest, s.script = op :: rest → resetUnit op ≠ some v) : s.KeepsErr v t := by
  cases hscript : s.script with
  | nil => exact play_keepsErr (step_of_no_script hscript ▸ h) v
  | cons op rest =>
    have htake : s.KeepsErr v (s.takeOp rest) := .of_eq (s.errOf_takeOp rest v)
    exact htake.trans (runOp_keepsErr (step_of_script hscript ▸ h) (hreset op rest hscript))

theorem eq_encBegin_of_resetUnit {op : Op} (h : resetUnit op = some .enc) : ∃ W H fps, op = .encBegin W H fps := by
  cases op <;> cases h
  exact ⟨_, _, _, rfl⟩

theorem eq_intReset_of_resetUnit {op : Op} {k : Nat} (h : resetUnit op = some (.int k)) :
    ∃ W H, op = .intReset k W H := by
  cases op <;> cases h
  exact ⟨_, _, rfl⟩

/-- DEC_CONSTRUCT, the reset operation of DEC, makes a decoder beside the others, so a faulted one stays faulted (rules
R131, R140). -/
theorem resetUnit_ne_dec (op : Op) (k : Nat) : resetUnit op ≠ some (.dec k) := by
  cases op <;> exact nofun

/-- Settles O29: a step that runs no reset operation of a unit keeps the unit's code. -/
theorem onlyResetOperationsClearAFault : Obligations.OnlyResetOperationsClearAFault := by
  intro s t c h
  refine ⟨fun herr hbegin => ?_, fun k d hd herr => ?_, fun k b hb herr hintReset => ?_⟩
  · refine step_keepsErr (v := .enc) h (fun op rest hscript hreset => ?_) c herr
    obtain ⟨W, H, fps, rfl⟩ := eq_encBegin_of_resetUnit hreset
    exact hbegin W H fps rest hscript
  · have hkeeps := step_keepsErr h fun op _ _ => resetUnit_ne_dec op k
    exact State.errOf_dec_eq_some.mp (hkeeps c (State.errOf_dec_eq_some.mpr ⟨d, hd, herr⟩))
  · refine State.errOf_int_eq_some.mp (step_keepsErr h (fun op rest hscript hreset => ?_) c
      (State.errOf_int_eq_some.mpr ⟨b, hb, herr⟩))
    obtain ⟨W, H, rfl⟩ := eq_intReset_of_resetUnit hreset
    exact hintReset W H rest hscript

end Sys2Proof.Machine
end

section
/-!
PROOF. Reset and use before construction: the state right after reset, and what each unit answers before its reset
operation (70_reset_and_hazards.md rule R143).
-/

namespace Sys2Proof.Machine

/-! ### A decoder or a buffer that does not exist -/

theorem State.decAdvance_of_no_decoder {s : State} {k : Nat} (hd : s.decs[k]? = none) :
    s.decAdvance k = .refused .noDecoder := by
  rw [State.decAdvance, hd]

theorem State.intApply_of_no_buffer {s : State} {k : Nat} (hb : s.ints[k]? = none) (c : Instr) :
    s.intApply k c = .refused .noInterpreter := by
  rw [State.intApply, State.onInt, hb]

/-- The DEC effect of a command makes no pixel buffer, so INT_APPLY of it is refused as before. -/
theorem exec_of_no_buffer {s : State} (hb : s.ints[s.curBuf]? = none) (c : Instr) :
    exec c s = .refused .noInterpreter := by
  rw [exec_eq_intApply, s.yieldCommand_eq]
  refine State.intApply_of_no_buffer ?_ c
  exact hb

/-! ### The state right after reset -/

/-- ENC before its first ENC_BEGIN, with the values that log entry 6 chooses: no frame, no run and no code. -/
theorem Enc.ok_reset : Enc.reset.Ok where
  dims hphase := absurd rfl hphase
  countBound := Nat.zero_le _
  noRun _ := ⟨rfl, rfl⟩
  prevWf := rfl
  prevWithin := rfl
  pixBound := Nat.zero_le _
  prevCovers := nofun
  prevSoFar := nofun
  runOpen := nofun
  streamEven := rfl
  hasPrevIff := rfl
  errCode := nofun

/-! ### The statements -/

/-- Settles O22: with no operation issued, the step is a play iteration, and there is no decoder to play. -/
theorem resetHasNoInstances : Obligations.ResetHasNoInstances := by
  have hstep : step State.reset = play State.reset := step_of_no_script rfl
  exact ⟨rfl, rfl, rfl, rfl, hstep.trans (play_of_no_decoder rfl)⟩

/-- Settles O23: the refusals are lookups past the units that exist, and IDLE is neither phase that an operation of ENC
is accepted in. -/
theorem useBeforeConstructionIsRefused : Obligations.UseBeforeConstructionIsRefused := by
  intro s rest
  refine ⟨fun k hk hscript => ?advance, fun k c hk hscript => ?apply, fun hcur hscript => ?play, fun i hbuf => ?exec,
    fun op hop hscript hidle hnone => ?idle⟩
  case advance =>
    rw [step_of_script hscript]
    exact State.decAdvance_of_no_decoder (s := s.takeOp rest) (List.getElem?_eq_none hk)
  case apply =>
    rw [step_of_script hscript]
    exact State.intApply_of_no_buffer (s := s.takeOp rest) (List.getElem?_eq_none hk) c
  case play =>
    rw [step_of_no_script hscript]
    exact play_of_no_decoder (List.getElem?_eq_none hcur)
  case exec => exact exec_of_no_buffer (List.getElem?_eq_none hbuf) i
  case idle =>
    have hbetween : s.enc.phase ≠ .between := hidle ▸ nofun
    have hinFrame : s.enc.phase ≠ .inFrame := hidle ▸ nofun
    rw [step_of_script hscript]
    refine outOfPhaseOperationFaults (s.takeOp rest) op hnone ?_
    rcases hop with hop | hop | hop | hop
    · exact .inl ⟨.inl hop, hbetween⟩
    · exact .inr ⟨.inl hop, hinFrame⟩
    · exact .inr ⟨.inr hop, hinFrame⟩
    · exact .inl ⟨.inr hop, hbetween⟩

/-- Settles O24: ENC is as its rules keep it, and there is no other unit. -/
theorem resetMeetsTheInvariant : Obligations.ResetMeetsTheInvariant where
  enc := Enc.ok_reset
  decs := nofun
  ints := nofun

end Sys2Proof.Machine
end

section
/-!
PROOF. A play iteration as the two operations it consists of: DEC_ADVANCE on the machine, and INT_APPLY in the state
that it answered (70_reset_and_hazards.md rule R147 step 4).
-/

namespace Sys2Proof.Machine

/-! ### INT_APPLY does not look at the result before it -/

/-- A fault taken overwrites the result and reads registers of its unit only. -/
theorem State.takeFault_answer (s : State) (r : Result) (u : UnitId) (c : FaultCode) :
    (s.answer r).takeFault u c = s.takeFault u c := by
  cases u with
  | enc => rfl
  | dec k =>
    simp only [State.takeFault, State.recordFault, State.answer_decs]
    split <;> rfl
  | int k =>
    simp only [State.takeFault, State.recordFault, State.answer_ints]
    split <;> rfl

theorem State.finish_answer (s : State) (r : Result) (u : UnitId) (x : Except Stop State) :
    (s.answer r).finish u x = s.finish u x := by
  match x with
  | .ok _ | .error (.halted _) => rfl
  | .error (.raised c) => rw [State.finish_raised, State.finish_raised, State.takeFault_answer]

theorem State.intApply_answer (s : State) (r : Result) (k : Nat) (c : Instr) :
    (s.answer r).intApply k c = s.intApply k c := by
  cases hb : s.ints[k]? with
  | none => rw [State.intApply_of_no_buffer hb, State.intApply_of_no_buffer (s := s.answer r) hb]
  | some b =>
    simp only [State.intApply, State.onInt, State.answer_ints, hb]
    exact s.finish_answer r (.int k) _

/-! ### What DEC_ADVANCE answers, by what its decoder yields -/

/-- DEC_ADVANCE that answers ran on a decoder that exists: it yielded a command, or it raised a code that was taken
(44_decoder.md rule R112, 60_exceptions.md rule R130). -/
theorem State.decAdvance_cases {s t : State} {k : Nat} (h : s.decAdvance k = .next t) :
    ∃ d, s.decs[k]? = some d ∧
      ((∃ c d', d.advance = .ok (c, d') ∧ t = (s.putDec k d').answer (.command c)) ∨
        ∃ c, d.advance = .error (.raised c) ∧ t = s.takeFault (.dec k) c) := by
  cases hd : s.decs[k]? with
  | none =>
    rw [State.decAdvance_of_no_decoder hd] at h
    cases h
  | some d =>
    refine ⟨d, rfl, ?_⟩
    rw [State.decAdvance_eq hd] at h
    match d.advance, h with
    | .ok (c, d'), h =>
      cases h
      exact .inl ⟨c, d', rfl, rfl⟩
    | .error (.raised c), h =>
      cases h
      exact .inr ⟨c, rfl, rfl⟩
    | .error (.halted _), h => cases h

/-- Settles O21: the two ways DEC_ADVANCE answers are the two ways the iteration goes on, and INT_APPLY overwrites the
command that DEC_ADVANCE handed back. -/
theorem playIsAdvanceThenApply : Obligations.PlayIsAdvanceThenApply := by
  intro s t hscript hrun
  obtain ⟨d, hd, ⟨c, d', hadvance, rfl⟩ | ⟨c, hadvance, rfl⟩⟩ := State.decAdvance_cases hrun
  · refine ⟨fun c' hc' => ?_, nofun⟩
    obtain rfl : c = c' := Result.command.inj hc'
    calc step s
        = play s := step_of_no_script hscript
      _ = (s.putDec s.cur d').intApply s.curBuf c := play_of_advance_ok hd hadvance
      _ = ((s.putDec s.cur d').answer (.command c)).intApply s.curBuf c :=
        (State.intApply_answer _ (.command c) s.curBuf c).symm
  · refine ⟨nofun, fun _ _ => ?_⟩
    calc step s
        = play s := step_of_no_script hscript
      _ = s.finish (.dec s.cur) (.error (.raised c)) := play_of_advance_error hd hadvance
      _ = .next (s.takeFault (.dec s.cur) c) := s.finish_raised (.dec s.cur) c

end Sys2Proof.Machine
end
